-- ==== Sys2Proof/Word.lean ====
section
/-! DEFINITION. The block's value types: bytes, 16-bit values and command words. Spec: 00_scope.md R8
(every register value is an unsigned integer of its stated width) and 30_encoding.md R100. -/

namespace Sys2Proof

/-- An 8-bit value: a UART byte, a character, an opcode, an operand `d`. -/
abbrev Byte := BitVec 8

/-- A 16-bit value: `CRC`, `RES`, the timer counters, an operand `w`. -/
abbrev Half := BitVec 16

/-- A command word `cmd[23:0]` (30_encoding.md R100). -/
abbrev Cmd := BitVec 24

/-- The 4-bit value the DAC is driven with, and the waveform index (00_scope.md R6). -/
abbrev Nibble := BitVec 4

end Sys2Proof
end

