-- ==== Sys2Proof/Syntax.lean ====
section
/-! DEFINITION. The commands of TTX-CMD24, one constructor per row of spec/opcode_table.json, and the
causes a command word can be rejected for (30_encoding.md R103; 60_exceptions.md R351). -/

namespace Sys2Proof

/-- The 27 commands with their operands: `d` a byte (format B), `w` a 16-bit value (format W), `f` and
`i` the field code and character index (format F). Operands are unsigned and unchecked here (R102). -/
inductive Instr where
  /-- 0x00 NOP (R330). -/
  | nop
  /-- 0x01 STAT_RD (R331). -/
  | statRd
  /-- 0x02 ERR_RD (R332). -/
  | errRd
  /-- 0x03 ERR_CLR (R333). -/
  | errClr
  /-- 0x10 CRC_INIT (R230). -/
  | crcInit
  /-- 0x11 CRC_BIT d (R231). -/
  | crcBit (d : Byte)
  /-- 0x12 CRC_BYTE d (R232). -/
  | crcByte (d : Byte)
  /-- 0x13 CRC_RD (R233). -/
  | crcRd
  /-- 0x14 CRC_FCS (R234). -/
  | crcFcs
  /-- 0x15 CRC_WR w (R235). -/
  | crcWr (w : Half)
  /-- 0x20 FRM_START w (R270). -/
  | frmStart (w : Half)
  /-- 0x21 FRM_BYTE d (R271). -/
  | frmByte (d : Byte)
  /-- 0x22 FRM_END (R272). -/
  | frmEnd
  /-- 0x30 WAIT w (R299). -/
  | wait (w : Half)
  /-- 0x31 CTRL_WR d (R311). -/
  | ctrlWr (d : Byte)
  /-- 0x32 CTRL_RD (R310). -/
  | ctrlRd
  /-- 0x40 RX_POLL (R150). -/
  | rxPoll
  /-- 0x41 RX_POLL_FEED (R151). -/
  | rxPollFeed
  /-- 0x42 TX_ENQ d (R152). -/
  | txEnq (d : Byte)
  /-- 0x43 OVF_RD (R153). -/
  | ovfRd
  /-- 0x44 OVF_CLR (R154). -/
  | ovfClr
  /-- 0x45 RING_RD d (R155). -/
  | ringRd (d : Byte)
  /-- 0x50 NMEA_FEED d (R200). -/
  | nmeaFeed (d : Byte)
  /-- 0x51 NMEA_COMMIT (R201). -/
  | nmeaCommit
  /-- 0x52 FIX_RD f, i (R202). -/
  | fixRd (f i : Byte)
  /-- 0x53 TMP_RD f, i (R203). -/
  | tmpRd (f i : Byte)
  /-- 0x54 CUR_RD (R204). -/
  | curRd
  deriving DecidableEq, Repr

/-- The cause of a command error (60_exceptions.md R351). -/
inductive Cause where
  /-- `OP` is not one of the 27 opcodes (30_encoding.md R104). -/
  | illegalOpcode
  /-- A bit the format requires to be 0 is 1, or `CTRL_WR` with `d[7:6]` not 0 (R105). -/
  | reservedBits
  /-- An operand outside the range its rule allows (R106). -/
  | operandRange
  deriving DecidableEq, Repr

end Sys2Proof
end

