-- ==== Sys2Proof/Decode.lean ====
section
/-! DEFINITION. The command decoder, total on every 24-bit word, and after it the encoder
(30_encoding.md R100 to R107). The operand-range checks of R106 and CTRL_WR's check of `d[7:6]` are made by
the commands' own meanings, after the checks of this file, in the order R107 gives (log 10). -/

namespace Sys2Proof

/-- `{hi, lo}`: two bytes as one 16-bit value, the first in bits 15:8 (00_scope.md R8). -/
def pair (hi lo : Byte) : Half := hi ++ lo
/-- `{op, imm}`: a command word from its opcode byte and operand field (30_encoding.md R100). -/
def cmdWord (op : Byte) (imm : Half) : Cmd := op ++ imm
/-- `OP = cmd[23:16]`. -/
def opField (w : Cmd) : Byte := w.extractLsb' 16 8
/-- `IMM = cmd[15:0]`. -/
def immField (w : Cmd) : Half := w.extractLsb' 0 16
/-- `IMM[15:8]`: reserved in format B, the field code `f` in format F. -/
def immHigh (w : Cmd) : Byte := w.extractLsb' 8 8
/-- `IMM[7:0]`: the operand `d` of format B, the index `i` of format F. -/
def immLow (w : Cmd) : Byte := w.extractLsb' 0 8

/-- The operand formats of 30_encoding.md R101, each with the command it makes of its operands. -/
inductive Form where
  | n (i : Instr)
  | b (mk : Byte → Instr)
  | w (mk : Half → Instr)
  | f (mk : Byte → Byte → Instr)

/-- The opcode map of 30_encoding.md R103; `none` for the 229 undefined opcodes. -/
def formOf (op : Byte) : Option Form :=
  match op.toNat with
  | 0x00 => some (.n .nop)
  | 0x01 => some (.n .statRd)
  | 0x02 => some (.n .errRd)
  | 0x03 => some (.n .errClr)
  | 0x10 => some (.n .crcInit)
  | 0x11 => some (.b .crcBit)
  | 0x12 => some (.b .crcByte)
  | 0x13 => some (.n .crcRd)
  | 0x14 => some (.n .crcFcs)
  | 0x15 => some (.w .crcWr)
  | 0x20 => some (.w .frmStart)
  | 0x21 => some (.b .frmByte)
  | 0x22 => some (.n .frmEnd)
  | 0x30 => some (.w .wait)
  | 0x31 => some (.b .ctrlWr)
  | 0x32 => some (.n .ctrlRd)
  | 0x40 => some (.n .rxPoll)
  | 0x41 => some (.n .rxPollFeed)
  | 0x42 => some (.b .txEnq)
  | 0x43 => some (.n .ovfRd)
  | 0x44 => some (.n .ovfClr)
  | 0x45 => some (.b .ringRd)
  | 0x50 => some (.b .nmeaFeed)
  | 0x51 => some (.n .nmeaCommit)
  | 0x52 => some (.f .fixRd)
  | 0x53 => some (.f .tmpRd)
  | 0x54 => some (.n .curRd)
  | _ => none

/-- Read one command word: opcode defined (R104), then reserved bits zero (R105). -/
def decode (w : Cmd) : Except Cause Instr :=
  match formOf (opField w) with
  | none => .error .illegalOpcode
  | some (.n i) => if immField w = 0 then .ok i else .error .reservedBits
  | some (.b mk) => if immHigh w = 0 then .ok (mk (immLow w)) else .error .reservedBits
  | some (.w mk) => .ok (mk (immField w))
  | some (.f mk) => .ok (mk (immHigh w) (immLow w))

/-- The opcode byte of a command (30_encoding.md R103). -/
def Instr.opcode : Instr → Byte
  | .nop => 0x00#8
  | .statRd => 0x01#8
  | .errRd => 0x02#8
  | .errClr => 0x03#8
  | .crcInit => 0x10#8
  | .crcBit _ => 0x11#8
  | .crcByte _ => 0x12#8
  | .crcRd => 0x13#8
  | .crcFcs => 0x14#8
  | .crcWr _ => 0x15#8
  | .frmStart _ => 0x20#8
  | .frmByte _ => 0x21#8
  | .frmEnd => 0x22#8
  | .wait _ => 0x30#8
  | .ctrlWr _ => 0x31#8
  | .ctrlRd => 0x32#8
  | .rxPoll => 0x40#8
  | .rxPollFeed => 0x41#8
  | .txEnq _ => 0x42#8
  | .ovfRd => 0x43#8
  | .ovfClr => 0x44#8
  | .ringRd _ => 0x45#8
  | .nmeaFeed _ => 0x50#8
  | .nmeaCommit => 0x51#8
  | .fixRd _ _ => 0x52#8
  | .tmpRd _ _ => 0x53#8
  | .curRd => 0x54#8

/-- The operand field `IMM` of a command (30_encoding.md R101). -/
def Instr.imm : Instr → Half
  | .crcBit d | .crcByte d | .frmByte d | .ctrlWr d | .txEnq d | .ringRd d | .nmeaFeed d => pair 0x00#8 d
  | .crcWr w | .frmStart w | .wait w => w
  | .fixRd f i | .tmpRd f i => pair f i
  | .nop | .statRd | .errRd | .errClr | .crcInit | .crcRd | .crcFcs | .frmEnd | .ctrlRd | .rxPoll
  | .rxPollFeed | .ovfRd | .ovfClr | .nmeaCommit | .curRd => 0x0000#16

/-- The command word of a command: opcode byte, then operand field (30_encoding.md R100). -/
def encode (i : Instr) : Cmd := cmdWord i.opcode i.imm

/-- The command the decoder reads from a table row's word of `nbits` bits; every bit above `nbits` is 0. -/
def decodeTableWord (nbits w : Nat) : Option Instr :=
  if 24 < nbits then none
  else (decode (BitVec.ofNat 24 (w % 2 ^ nbits))).toOption

end Sys2Proof
end

