-- ==== Sys2Proof/Config.lean ====
section
/-! DEFINITION. The implementation parameters of 00_scope.md R6: the values the spec fixes, the seven
position fields with their lengths (10_state.md R46), and the OPEN parameters as opaque constants. -/

namespace Sys2Proof

/-- The seven position fields, in the order of their field codes 0 to 6 (10_state.md R46). -/
inductive Field where
  | time | latitude | longitude | altitude | speed | course | satellites
  deriving DecidableEq, Repr

/-- `L(f)`: the number of characters of field `f` (10_state.md R46; `COMMIT_LEN` of 00_scope.md R6). -/
def Field.len : Field → Nat
  | .time => 6
  | .latitude => 9
  | .longitude => 10
  | .altitude => 7
  | .speed => 5
  | .course => 5
  | .satellites => 2

namespace Config

/-- `RING_CAP`: bytes of storage per ring. -/
def ringCap : Nat := 96
/-- `RING_USABLE`: bytes a ring holds before its indices alias. -/
def ringUsable : Nat := 95
/-- `CRC_POLY`: the reflected CCITT polynomial. -/
def crcPoly : Half := 0x8408#16
/-- `CRC_INIT`: the seed. -/
def crcInit : Half := 0xFFFF#16
/-- `CRC_XOROUT`: the FCS is the complement. -/
def crcXorOut : Half := 0xFFFF#16
/-- `FLAG`: the byte that delimits a frame. -/
def flagByte : Byte := 0x7E#8
/-- `COMMA_SENTINEL`: the comma count that means no sentence is active. -/
def commaSentinel : Byte := 0xFF#8
/-- The firmware's header flag count; the block takes the count as `FRM_START`'s operand. -/
def defaultFlagCount : Half := 100#16
/-- `L(f)` by field code, as the operand ranges of 30_encoding.md R106 use it. -/
def commitLen : List Nat := [6, 9, 10, 7, 5, 5, 2]

/-- The OPEN parameters of 00_scope.md R6, as plain data: the arguments a model of the block takes. -/
structure Params where
  /-- `WAVE[0..15]`: sixteen 4-bit samples, read-only (10_state.md R64). -/
  wave : Vector Nibble 16
  /-- `F_TICK`: rate of the base tick in Hz. No step reads it. R6 asks only that it be positive; that it is a rational
  number is the model's choice (DESIGN CHOICE, log 15). -/
  fTick : Rat
  /-- `RELOAD_MARK`: base ticks per waveform step in mark. -/
  reloadMark : Half
  /-- `RELOAD_SPACE`: base ticks per waveform step in space. -/
  reloadSpace : Half
  /-- `BIT_TICKS`: base ticks per transmitted bit. -/
  bitTicks : Half
  /-- `IDLE_TIMEOUT`: base ticks reloaded after a deadline expires. -/
  idleTimeout : Half
  /-- `RX_MIN_GAP`, optional: least number of base ticks between two receive events. No step reads it. -/
  rxMinGap : Option Nat
  deriving DecidableEq, Repr

/-- The constraint every value of the OPEN parameters meets: `F_TICK > 0`, the four tick counts in 1..65535. -/
def Params.legal (p : Params) : Bool :=
  decide (0 < p.fTick) && decide (p.reloadMark ≠ 0) && decide (p.reloadSpace ≠ 0) &&
    decide (p.bitTicks ≠ 0) && decide (p.idleTimeout ≠ 0)

/-- OPEN (log 2): the waveform samples. No value of it can be proved. -/
opaque wave : Vector Nibble 16
/-- OPEN (logs 2, 15): the numerator of `F_TICK`, less 1. -/
opaque fTickNumPred : Nat
/-- OPEN (logs 2, 15): the denominator of `F_TICK`, less 1. -/
opaque fTickDenPred : Nat
/-- OPEN (log 2): `RELOAD_MARK - 1`. -/
opaque reloadMarkPred : Fin 65535
/-- OPEN (log 2): `RELOAD_SPACE - 1`. -/
opaque reloadSpacePred : Fin 65535
/-- OPEN (log 2): `BIT_TICKS - 1`. -/
opaque bitTicksPred : Fin 65535
/-- OPEN (log 2): `IDLE_TIMEOUT - 1`. -/
opaque idleTimeoutPred : Fin 65535
/-- OPEN (log 2): `RX_MIN_GAP`, where the platform promises one. -/
opaque rxMinGap : Option Nat

/-- A 16-bit tick count in 1..65535, one for each `k`. -/
def tickCount (k : Fin 65535) : Half := BitVec.ofNat 16 (k.val + 1)

/-- The block's own parameters: arbitrary values within the constraints of 00_scope.md R6 (log 2). -/
def params : Params :=
  { wave := wave
    fTick := ((fTickNumPred + 1 : Nat) : Rat) / ((fTickDenPred + 1 : Nat) : Rat)
    reloadMark := tickCount reloadMarkPred
    reloadSpace := tickCount reloadSpacePred
    bitTicks := tickCount bitTicksPred
    idleTimeout := tickCount idleTimeoutPred
    rxMinGap := rxMinGap }

end Config
end Sys2Proof
end

