-- ==== Sys2Proof/Machine/State.lean ====
section
/-! DEFINITION. The block's whole state as plain data (10_state.md R35 to R66), the reasons a step can stop,
and the state after reset (70_reset_and_hazards.md R390, R391). -/

namespace Sys2Proof.Machine

/-- `STYPE`, the sentence type (10_state.md R43). -/
inductive SentenceType where
  | none | gprmc | gpgga | ignored
  deriving DecidableEq, Repr

/-- `ENC_JOB`, the encoder sequencer's job; codes 5 to 7 never occur (10_state.md R53, log 9). -/
inductive Job where
  | none | flags | byte | frameEnd | wait
  deriving DecidableEq, Repr

/-- One ring of the serial link with its overflow counter (10_state.md R35 to R42; 40_serial_link.md R140). -/
structure Ring where
  /-- The 96 bytes of storage. -/
  buf : Vector Byte 96
  /-- The producer's index, in 0..95. -/
  head : Fin 96
  /-- The consumer's index, in 0..95. -/
  tail : Fin 96
  /-- Bytes dropped in drop mode, sticking at 255. -/
  ovf : Byte
  deriving DecidableEq, Repr

/-- `TMP[f][0..L(f)-1]`, the temp set (10_state.md R47). -/
structure TempSet where
  time : Vector Byte 6
  latitude : Vector Byte 9
  longitude : Vector Byte 10
  altitude : Vector Byte 7
  speed : Vector Byte 5
  course : Vector Byte 5
  satellites : Vector Byte 2
  deriving DecidableEq, Repr

/-- `FIX[f][0..L(f)]`, the committed set with its terminator slots (10_state.md R48). -/
structure FixSet where
  time : Vector Byte 7
  latitude : Vector Byte 10
  longitude : Vector Byte 11
  altitude : Vector Byte 8
  speed : Vector Byte 6
  course : Vector Byte 6
  satellites : Vector Byte 3
  deriving DecidableEq, Repr

/-- One agent's turn (10_state.md R30; 60_exceptions.md R357). -/
inductive Move where
  /-- The controller's command on the port is taken, if `BUSY = 0`. -/
  | controller
  /-- The encoder sequencer: an encoder step or the end of a wait. -/
  | sequencer
  /-- The wait-feeder. -/
  | feeder
  /-- The UART receiver delivers `b`. -/
  | rxByte (b : Byte)
  /-- The UART transmitter has finished its byte. -/
  | txEmpty
  /-- One base tick of the timer. -/
  | tick
  /-- The reset input. -/
  | reset
  deriving DecidableEq, Repr

/-- Everything the spec gives the block, the OPEN parameters, and the model's own record of inputs and outputs. -/
structure State where
  /-- The OPEN parameters (00_scope.md R6); no step writes them (log 2). -/
  cfg : Config.Params
  /-- The receive ring: `RXBUF`, `RX_HEAD`, `RX_TAIL`, `RX_OVF_CNT`. -/
  rx : Ring
  /-- The transmit ring: `TXBUF`, `TX_HEAD`, `TX_TAIL`, `TX_OVF_CNT`. -/
  tx : Ring
  /-- `TXACT` (R41). -/
  txAct : Bool
  /-- `STYPE` (R43). -/
  stype : SentenceType
  /-- `COMMA` (R44). -/
  comma : Byte
  /-- `CIDX` (R45). -/
  cidx : Byte
  /-- `TMP` (R47). -/
  tmp : TempSet
  /-- `FIX` (R48). -/
  fix : FixSet
  /-- `CRC` (R49). -/
  crc : Half
  /-- `ONES` (R50). -/
  ones : BitVec 3
  /-- `FRMACT` (R51). -/
  frmAct : Bool
  /-- `BUSY` (R52). -/
  busy : Bool
  /-- `ENC_JOB` (R53). -/
  encJob : Job
  /-- `ENC_BYTE` (R54). -/
  encByte : Byte
  /-- `ENC_CRCEN` (R54). -/
  encCrcEn : Bool
  /-- `ENC_BIT`, in 0..8 (R55). -/
  encBit : Fin 9
  /-- `ENC_STUFF` (R56). -/
  encStuff : Bool
  /-- `ENC_FLAGS_LEFT` (R57). -/
  encFlagsLeft : Half
  /-- `ENC_END_STAGE` (R57). -/
  encEndStage : BitVec 2
  /-- `CTRL` (R58). -/
  ctrl : Byte
  /-- `DLFLAG`: 1 means a deadline is pending (R59; 90_conflicts.md C5). -/
  dlFlag : Bool
  /-- `DL_COUNT` (R60). -/
  dlCount : Half
  /-- `SMP_COUNT` (R61). -/
  smpCount : Half
  /-- `WAVE_IDX` (R62). -/
  waveIdx : Nibble
  /-- `DAC` (R63). -/
  dac : Nibble
  /-- `RES` (R65). -/
  res : Half
  /-- `ERR` (R66). -/
  err : Bool
  /-- `ERRCAUSE` (R66). -/
  errCause : Byte
  /-- `ERROP` (R66). -/
  errOp : Byte
  /-- The `tx_load` bytes so far, oldest first (R32, log 7). -/
  txTrace : List Byte
  /-- `TONE` at each bit period so far, oldest first; `true` is 1, space (R32, log 7). -/
  lineTrace : List Bool
  /-- The `DAC` samples so far, oldest first (R32, log 7). -/
  dacTrace : List Nibble
  /-- The command words the controller still has to hand over; the first is on the port (R31, log 6). -/
  cmds : List Cmd
  /-- Whose turn comes next, and next, ... ; any list is a possible order (R91, R359, log 3). -/
  agenda : List Move
  deriving DecidableEq, Repr

/-- The reasons the machine can stop with a fault. -/
inductive Fault where
  /-- Raised by the encoder step when it meets `ONES > 5`, which no run reaches (60_exceptions.md R363;
  93_implementation_defined.md S7). Safe: the machine stops where the spec gives no meaning (log 8). -/
  | onesOutOfRange
  deriving DecidableEq, Repr

/-- The reasons an instruction can have no meaning. -/
inductive Refusal where
  /-- Raised by `exec`'s arm of a command the model has not reached. No arm raises it. Safe. -/
  | notModelled (mnemonic : String)
  deriving DecidableEq, Repr

/-- The outcome of one step. -/
abbrev Result := Host.Outcome State Fault Refusal

/-- A ring right after power-on: empty, its storage at the model's named value 0x00 (log 1). -/
def Ring.empty : Ring := { buf := Vector.replicate 96 0#8, head := 0, tail := 0, ovf := 0#8 }

/-- The temp set at reset (10_state.md R47). -/
def TempSet.zero : TempSet :=
  { time := Vector.replicate 6 0#8, latitude := Vector.replicate 9 0#8, longitude := Vector.replicate 10 0#8
    altitude := Vector.replicate 7 0#8, speed := Vector.replicate 5 0#8, course := Vector.replicate 5 0#8
    satellites := Vector.replicate 2 0#8 }

/-- The committed set at reset (10_state.md R48). -/
def FixSet.zero : FixSet :=
  { time := Vector.replicate 7 0#8, latitude := Vector.replicate 10 0#8, longitude := Vector.replicate 11 0#8
    altitude := Vector.replicate 8 0#8, speed := Vector.replicate 6 0#8, course := Vector.replicate 6 0#8
    satellites := Vector.replicate 3 0#8 }

/-- The state after reset of a block with parameters `p` (70_reset_and_hazards.md R390, R391), nothing
presented on its inputs and nothing yet seen on its outputs. -/
def State.powerOn (p : Config.Params) : State :=
  { cfg := p
    rx := Ring.empty, tx := Ring.empty, txAct := false
    stype := .none, comma := Config.commaSentinel, cidx := 0#8
    tmp := TempSet.zero, fix := FixSet.zero
    crc := Config.crcInit
    ones := 0#3, frmAct := false, busy := false, encJob := .none
    encByte := 0x00#8, encCrcEn := false, encBit := 8, encStuff := false
    encFlagsLeft := 0#16, encEndStage := 0#2
    ctrl := 0x00#8, dlFlag := false, dlCount := p.idleTimeout
    smpCount := p.reloadMark, waveIdx := 0#4, dac := 0x0#4
    res := 0x0000#16, err := false, errCause := 0x00#8, errOp := 0x00#8
    txTrace := [], lineTrace := [], dacTrace := []
    cmds := [], agenda := [] }

/-- The machine right after reset, its OPEN parameters those of `Config.params` (log 2). -/
def State.reset : State := State.powerOn Config.params

end Sys2Proof.Machine
end

