-- ==== Sys2Proof/Machine/Flags.lean ====
section
/-! DEFINITION. The fields of `CTRL` (10_state.md R58), the status flags and the `STATUS` view (R67, R70),
and the block's output signals (R31). -/

namespace Sys2Proof.Machine

/-- Bit `k` of a byte set to `v`, the other bits kept. -/
def setBit (c : Byte) (k : Nat) (v : Bool) : Byte :=
  if v then c ||| (1#8 <<< k) else c &&& ~~~(1#8 <<< k)

/-- `CTRL.TXEN`: the timer generates samples. -/
def State.txen (s : State) : Bool := s.ctrl.getLsbD 0
/-- `CTRL.TONE`: the active tone and NRZI line level, 0 mark, 1 space. -/
def State.tone (s : State) : Bool := s.ctrl.getLsbD 1
/-- `CTRL.PTT`: the push-to-talk level. -/
def State.ptt (s : State) : Bool := s.ctrl.getLsbD 2
/-- `CTRL.LED`: the indicator level. -/
def State.led (s : State) : Bool := s.ctrl.getLsbD 3
/-- `CTRL.RXOVM`: the receive ring drops and counts instead of overwriting. -/
def State.rxovm (s : State) : Bool := s.ctrl.getLsbD 4
/-- `CTRL.TXOVM`: the same for the transmit ring. -/
def State.txovm (s : State) : Bool := s.ctrl.getLsbD 5

/-- `CTRL.TXEN <- v`. -/
def State.setTxen (s : State) (v : Bool) : State := { s with ctrl := setBit s.ctrl 0 v }
/-- `CTRL.TONE <- v`. -/
def State.setTone (s : State) (v : Bool) : State := { s with ctrl := setBit s.ctrl 1 v }
/-- `CTRL.PTT <- v`. -/
def State.setPtt (s : State) (v : Bool) : State := { s with ctrl := setBit s.ctrl 2 v }

/-- `RXNE = (RX_HEAD != RX_TAIL)` (R67). -/
def State.rxne (s : State) : Bool := decide (s.rx.head ≠ s.rx.tail)
/-- `TXNE = (TX_HEAD != TX_TAIL)` (R67). -/
def State.txne (s : State) : Bool := decide (s.tx.head ≠ s.tx.tail)

/-- The two-bit code of `STYPE` (10_state.md R43). -/
def SentenceType.code : SentenceType → BitVec 2
  | .none => 0#2
  | .gprmc => 1#2
  | .gpgga => 2#2
  | .ignored => 3#2

/-- The three-bit code of `ENC_JOB` (10_state.md R53). -/
def Job.code : Job → BitVec 3
  | .none => 0#3
  | .flags => 1#3
  | .byte => 2#3
  | .frameEnd => 3#3
  | .wait => 4#3

/-- `STATUS` (10_state.md R70): bits 15:7 zero, then TXNE, STYPE, ERR, FRMACT, TXACT, RXNE. -/
def State.statusWord (s : State) : Half :=
  0#9 ++ BitVec.ofBool s.txne ++ s.stype.code ++ BitVec.ofBool s.err ++ BitVec.ofBool s.frmAct ++
    BitVec.ofBool s.txAct ++ BitVec.ofBool s.rxne

/-- The level outputs of 10_state.md R31. -/
structure Outputs where
  cmdReady : Bool
  busy : Bool
  res : Half
  dac : Nibble
  ptt : Bool
  led : Bool
  deriving DecidableEq, Repr

/-- The block's output levels, all views of its registers (10_state.md R31, R33). -/
def State.outputs (s : State) : Outputs :=
  { cmdReady := !s.busy, busy := s.busy, res := s.res, dac := s.dac, ptt := s.ptt, led := s.led }

end Sys2Proof.Machine
end

