-- ==== Sys2Proof/Machine/Ops.lean ====
section
/-! DEFINITION. The operations the commands and events share: saturating counts, ring push and pop
(40_serial_link.md R140 to R142), recording a command error (60_exceptions.md R352), the field arrays, and the
start of a bit period (44_bitclock.md R298). -/

namespace Sys2Proof.Machine

/-- `sat_inc_8` (00_scope.md R9). -/
def satInc (v : Byte) : Byte := if v = 0xFF#8 then v else v + 1#8

/-! ### Rings -/

/-- `count(HEAD, TAIL) = (HEAD - TAIL) mod 96` (R140). -/
def Ring.count (r : Ring) : Nat := (r.head - r.tail).val

/-- `push(BUF, HEAD, TAIL, mode, OVF, b)` (R141); `mode = true` is drop mode. -/
def Ring.push (r : Ring) (mode : Bool) (b : Byte) : Ring :=
  if mode = true ∧ r.count = Config.ringUsable then { r with ovf := satInc r.ovf }
  else { r with buf := r.buf.set r.head.val b r.head.isLt, head := r.head + 1 }

/-- `pop(BUF, HEAD, TAIL)` (R142): the oldest unread byte and the ring without it. -/
def Ring.pop (r : Ring) : Option (Byte × Ring) :=
  if r.head = r.tail then none else some (r.buf[r.tail.val]'r.tail.isLt, { r with tail := r.tail + 1 })

/-- The unread bytes of a ring, oldest first (R140, R156); a view for claims, read by no step. -/
def Ring.contents (r : Ring) : List Byte :=
  (List.range r.count).map fun k =>
    r.buf[(r.tail.val + k) % 96]'(Nat.mod_lt _ (by decide))

/-- `OVF <- 0` for one ring (R154). -/
def Ring.clearOvf (r : Ring) : Ring := { r with ovf := 0#8 }

/-- Hand byte `v` to the UART transmitter: one event of the output trace (00_scope.md R9). -/
def State.txLoad (s : State) (v : Byte) : State := { s with txTrace := s.txTrace ++ [v] }

/-- `prime()` (R146). -/
def State.prime (s : State) : State :=
  if s.txAct then s
  else
    match s.tx.pop with
    | some (v, r) => { s.txLoad v with tx := r, txAct := true }
    | none => s

/-! ### Command errors -/

/-- The code recorded in `ERRCAUSE` (60_exceptions.md R351). -/
def causeCode : Cause → Byte
  | .illegalOpcode => 0x01#8
  | .reservedBits => 0x02#8
  | .operandRange => 0x03#8

/-- `raise CmdError(cause)` for a command whose opcode byte is `op`: the whole of the step that takes the
command (60_exceptions.md R352). Only the first error since reset or ERR_CLR is recorded. -/
def State.raiseCmdError (s : State) (c : Cause) (op : Byte) : State :=
  if s.err then s else { s with err := true, errCause := causeCode c, errOp := op }

/-- `RES <- v`. -/
def State.setRes (s : State) (v : Half) : State := { s with res := v }

/-! ### Field arrays -/

/-- `TMP[f]` (10_state.md R47). -/
def TempSet.get (t : TempSet) : (f : Field) → Vector Byte f.len
  | .time => t.time
  | .latitude => t.latitude
  | .longitude => t.longitude
  | .altitude => t.altitude
  | .speed => t.speed
  | .course => t.course
  | .satellites => t.satellites

/-- `TMP[f] <- v`. -/
def TempSet.put (t : TempSet) : (f : Field) → Vector Byte f.len → TempSet
  | .time, v => { t with time := v }
  | .latitude, v => { t with latitude := v }
  | .longitude, v => { t with longitude := v }
  | .altitude, v => { t with altitude := v }
  | .speed, v => { t with speed := v }
  | .course, v => { t with course := v }
  | .satellites, v => { t with satellites := v }

/-- `FIX[f]` (10_state.md R48). -/
def FixSet.get (x : FixSet) : (f : Field) → Vector Byte (f.len + 1)
  | .time => x.time
  | .latitude => x.latitude
  | .longitude => x.longitude
  | .altitude => x.altitude
  | .speed => x.speed
  | .course => x.course
  | .satellites => x.satellites

/-- `commit()`'s copy of the temp set, each field followed by its terminator 0x00 (41_position_decoder.md R190). -/
def TempSet.commit (t : TempSet) : FixSet :=
  { time := t.time.push 0x00#8, latitude := t.latitude.push 0x00#8, longitude := t.longitude.push 0x00#8
    altitude := t.altitude.push 0x00#8, speed := t.speed.push 0x00#8, course := t.course.push 0x00#8
    satellites := t.satellites.push 0x00#8 }

/-! ### Bit clock -/

/-- `reload(t)`: base ticks per waveform step (44_bitclock.md R291). -/
def reload (p : Config.Params) (tone : Bool) : Half := if tone then p.reloadSpace else p.reloadMark

/-- `emit_period()` (44_bitclock.md R298), recording the line symbol (10_state.md R32). -/
def State.emitPeriod (s : State) : State :=
  { s with dlFlag := true, dlCount := s.cfg.bitTicks, lineTrace := s.lineTrace ++ [s.tone] }

end Sys2Proof.Machine
end

