-- ==== Sys2Proof/Machine/Operands.lean ====
section
/-! DEFINITION. The operand forms of the commands and their range checks at run time (30_encoding.md R101,
R102, R106). `none` is an operand out of range. -/

namespace Sys2Proof.Machine

/-- A byte operand that must be 0 or 1: CRC_BIT's bit, RING_RD's ring select. -/
def bitOperand (d : Byte) : Option Bool :=
  if d = 0x00#8 then some false else if d = 0x01#8 then some true else none

/-- The field of a field code (10_state.md R46). -/
def fieldOfCode (f : Byte) : Option Field :=
  match f.toNat with
  | 0 => some .time
  | 1 => some .latitude
  | 2 => some .longitude
  | 3 => some .altitude
  | 4 => some .speed
  | 5 => some .course
  | 6 => some .satellites
  | _ => none

/-- The field code of a field (10_state.md R46). -/
def codeOfField : Field → Byte
  | .time => 0#8
  | .latitude => 1#8
  | .longitude => 2#8
  | .altitude => 3#8
  | .speed => 4#8
  | .course => 5#8
  | .satellites => 6#8

/-- `FIX[f][i]` for operands in range: `f <= 6` and `i <= L(f)`. -/
def FixSet.read (x : FixSet) (f i : Byte) : Option Byte :=
  match fieldOfCode f with
  | none => none
  | some fld => if h : i.toNat ≤ fld.len then some ((x.get fld)[i.toNat]'(by omega)) else none

/-- `TMP[f][i]` for operands in range: `f <= 6` and `i <= L(f) - 1`. -/
def TempSet.read (t : TempSet) (f i : Byte) : Option Byte :=
  match fieldOfCode f with
  | none => none
  | some fld => if h : i.toNat < fld.len then some ((t.get fld)[i.toNat]'h) else none

/-- `CTRL_WR`'s operand check: `d[7:6] = 0` (30_encoding.md R105). -/
def ctrlOperandOk (d : Byte) : Bool := decide (d.extractLsb' 6 2 = 0#2)

end Sys2Proof.Machine
end

