-- ==== Sys2Proof/Machine/Clock.lean ====
section
/-! DEFINITION. The bit clock: the base tick (44_bitclock.md R295), the transmitter enable (R296), the end of a
wait (R300), and the commands WAIT, CTRL_WR, CTRL_RD (R299, R310, R311). -/

namespace Sys2Proof.Machine

/-- A counter that expires on this tick: it holds 1, or 0 as if 1 (R292). -/
def expired (n : Half) : Bool := decide (n.toNat ≤ 1)

/-- The deadline half of the base tick (R295): it counts in both modes (90_conflicts.md C2). -/
def tickDeadline (s : State) : State :=
  if expired s.dlCount then { s with dlFlag := false, dlCount := s.cfg.idleTimeout }
  else { s with dlCount := s.dlCount - 1#16 }

/-- The sample half of the base tick (R295): it counts only while `TXEN = 1` (90_conflicts.md C6). -/
def tickSample (s : State) : State :=
  if s.txen then
    if expired s.smpCount then
      let idx := s.waveIdx + 1#4
      let v := s.cfg.wave[idx.toNat]'idx.isLt
      { s with waveIdx := idx, dac := v, smpCount := reload s.cfg s.tone, dacTrace := s.dacTrace ++ [v] }
    else { s with smpCount := s.smpCount - 1#16 }
  else s

/-- The timer's base tick (R295), one atomic step. -/
def tickEvent (s : State) : State := tickSample (tickDeadline s)

/-- The end of a wait (R300). -/
def endOfWait (s : State) : State := { s with encJob := .none, busy := false }

/-- WAIT w (R299). -/
def execWait (w : Half) (s : State) : Result :=
  .next { s with busy := true, encJob := .wait, dlFlag := true, dlCount := w }

/-- CTRL_WR d (R311): `RESERVED_BITS` if `d[7:6] != 0`; a 0 to 1 change of `TXEN` reloads `SMP_COUNT` (R296). -/
def execCtrlWr (d : Byte) (s : State) : Result :=
  if ctrlOperandOk d then
    let t : State := { s with ctrl := d }
    .next (if !s.txen && t.txen then { t with smpCount := reload s.cfg t.tone } else t)
  else .next (s.raiseCmdError .reservedBits (Instr.opcode (.ctrlWr d)))

/-- CTRL_RD (R310): `RES <- zext_16(CTRL)`. -/
def execCtrlRd (s : State) : Result := .next (s.setRes (s.ctrl.zeroExtend 16))

end Sys2Proof.Machine
end

