-- ==== Sys2Proof/Machine/Crc.lean ====
section
/-! DEFINITION. The CRC-16 generator: the recurrence (42_crc.md R220, R221, R223) and its six commands
(R230 to R235). -/

namespace Sys2Proof.Machine

/-- `crc_step(c, bit)` (R220). -/
def crcStep (c : Half) (bit : Bool) : Half :=
  let x := c ^^^ (BitVec.ofBool bit).zeroExtend 16
  if x.getLsbD 0 then (c >>> 1) ^^^ Config.crcPoly else c >>> 1

/-- `crc_byte(c, d)` (R221): the eight bits of `d`, least significant first. -/
def crcByte (c : Half) (d : Byte) : Half :=
  [0, 1, 2, 3, 4, 5, 6, 7].foldl (fun c k => crcStep c (d.getLsbD k)) c

/-- `crc_bytes(c, m)` (R223). -/
def crcBytes (c : Half) (m : List Byte) : Half := m.foldl crcByte c

/-- `fcs(m)` (R223). -/
def fcs (m : List Byte) : Half := crcBytes Config.crcInit m ^^^ Config.crcXorOut

/-- `T[n] = crc_byte(0x0000, n)` (R222). -/
def crcTable (n : Byte) : Half := crcByte 0x0000#16 n

/-- CRC_INIT (R230). -/
def execCrcInit (s : State) : Result := .next { s with crc := Config.crcInit }

/-- CRC_BIT d (R231): `OPERAND_RANGE` if `d > 1`. -/
def execCrcBit (d : Byte) (s : State) : Result :=
  match bitOperand d with
  | some bit => .next { s with crc := crcStep s.crc bit }
  | none => .next (s.raiseCmdError .operandRange (Instr.opcode (.crcBit d)))

/-- CRC_BYTE d (R232): every byte alike, with no flag exemption. -/
def execCrcByte (d : Byte) (s : State) : Result := .next { s with crc := crcByte s.crc d }

/-- CRC_RD (R233): `RES <- CRC`. -/
def execCrcRd (s : State) : Result := .next (s.setRes s.crc)

/-- CRC_FCS (R234): `RES <- CRC ^ 0xFFFF`, `CRC` kept. -/
def execCrcFcs (s : State) : Result := .next (s.setRes (s.crc ^^^ Config.crcXorOut))

/-- CRC_WR w (R235). -/
def execCrcWr (w : Half) (s : State) : Result := .next { s with crc := w }

end Sys2Proof.Machine
end

