-- ==== Sys2Proof/Machine/Frame.lean ====
section
/-! DEFINITION. The frame encoder: NRZI coding, bit-stuffing and CRC update (43_frame_encoder.md R250 to R255),
the byte procedure (R256), the encoder step (R257 to R259), and FRM_START, FRM_BYTE, FRM_END (R270 to R272). -/

namespace Sys2Proof.Machine

/-- A byte is a flag byte by its value, in every phase (R250). -/
def isFlag (d : Byte) : Bool := decide (d = Config.flagByte)

/-- NRZI coding of one data bit and its effect on the run counter (R251, R252): `flag` says that the bit
belongs to a flag byte. -/
def State.codeBit (s : State) (flag bit : Bool) : State :=
  if bit then
    if flag then { s with ones := 0#3 } else { s with ones := s.ones + 1#3 }
  else { s.setTone (!s.tone) with ones := 0#3 }

/-- The line bit of `ENC_BYTE[ENC_BIT]` (R258, the part after the load). -/
def State.sendDataBit (s : State) : State :=
  let bit := s.encByte.getLsbD s.encBit.val
  let flag := isFlag s.encByte
  let s1 : State := if s.encCrcEn then { s with crc := crcStep s.crc bit } else s
  let s2 : State := { s1.codeBit flag bit with encBit := s.encBit + 1 }
  let s3 : State := if !flag && decide (s2.ones = 5#3) then { s2 with encStuff := true } else s2
  s3.emitPeriod

/-- The line bit of a stuffed zero (R253, R258). -/
def State.sendStuffedZero (s : State) : State :=
  ({ s.setTone (!s.tone) with ones := 0#3, encStuff := false } : State).emitPeriod

/-- Load byte `b`, its CRC update disabled (the last lines of R257). -/
def State.loadByte (s : State) (b : Byte) : State := { s with encByte := b, encCrcEn := false, encBit := 0 }

/-- `next_byte()` (R257): the state with the job's next byte loaded, or `none` if it has no more. The jobs NONE
and WAIT have no bytes; the encoder step is not enabled in them (log 9). -/
def State.nextByte (s : State) : Option State :=
  match s.encJob with
  | .flags =>
    if s.encFlagsLeft = 0#16 then none
    else some ({ s with encFlagsLeft := s.encFlagsLeft - 1#16 }.loadByte Config.flagByte)
  | .byte => none
  | .frameEnd =>
    match s.encEndStage.toNat with
    | 0 => some ({ s with encEndStage := 1#2 }.loadByte (s.crc.extractLsb' 0 8))
    | 1 => some ({ s with encEndStage := 2#2 }.loadByte (s.crc.extractLsb' 8 8))
    | 2 => some ({ s with encEndStage := 3#2 }.loadByte Config.flagByte)
    | _ => none
  | .none => none
  | .wait => none

/-- `finish()` (R259). -/
def State.finish (s : State) : State :=
  let t : State :=
    if s.encJob = .frameEnd then { (s.setTxen false).setPtt false with frmAct := false } else s
  { t with encJob := .none, busy := false }

/-- The encoder step (R258), enabled when `BUSY = 1`, `DLFLAG = 0` and the job is FLAGS, BYTE or END. It stops
with a fault where it meets `ONES > 5`, which no run reaches (60_exceptions.md R363, log 8). -/
def encStep (s : State) : Result :=
  if 5 < s.ones.toNat then .fault .onesOutOfRange
  else if s.encStuff then .next s.sendStuffedZero
  else if s.encBit = 8 then
    match s.nextByte with
    | some t => .next t.sendDataBit
    | none => .next s.finish
  else .next s.sendDataBit

/-! ### The byte procedure R256, as a function on the line coder's registers; read by claims, by no step. -/

/-- The registers `send_byte` works on, and the line symbols it produces, oldest first. -/
structure Line where
  crc : Half
  tone : Bool
  ones : BitVec 3
  symbols : List Bool
  deriving DecidableEq, Repr

/-- `emit_period()` as `send_byte` sees it: one line symbol. -/
def Line.emit (l : Line) : Line := { l with symbols := l.symbols ++ [l.tone] }

/-- One pass of `send_byte`'s loop (R256), for data bit `bit`. -/
def Line.sendBit (l : Line) (flag crcEn bit : Bool) : Line :=
  let l1 : Line := if crcEn then { l with crc := crcStep l.crc bit } else l
  let l2 : Line :=
    if bit then { l1 with ones := if flag then 0#3 else l1.ones + 1#3 }
    else { l1 with tone := !l1.tone, ones := 0#3 }
  let l3 := l2.emit
  if !flag && decide (l3.ones = 5#3) then ({ l3 with tone := !l3.tone, ones := 0#3 } : Line).emit else l3

/-- `send_byte(d, crcen)` (R256). -/
def Line.sendByte (l : Line) (d : Byte) (crcEn : Bool) : Line :=
  [0, 1, 2, 3, 4, 5, 6, 7].foldl (fun l k => l.sendBit (isFlag d) crcEn (d.getLsbD k)) l

/-- The line coder's registers of a state. -/
def State.line (s : State) : Line := { crc := s.crc, tone := s.tone, ones := s.ones, symbols := s.lineTrace }

/-! ### Commands -/

/-- FRM_START w (R270). -/
def execFrmStart (w : Half) (s : State) : Result :=
  let s1 : State := { s with crc := Config.crcInit, ones := 0#3 }.setTone false
  let s2 : State := if s1.txen then s1 else { s1 with smpCount := s1.cfg.reloadMark }
  .next { (s2.setTxen true).setPtt true with
    frmAct := true, encJob := .flags, encFlagsLeft := w, encBit := 8, encStuff := false, busy := true }

/-- FRM_BYTE d (R271). -/
def execFrmByte (d : Byte) (s : State) : Result :=
  .next { s with
    encJob := .byte, encByte := d, encCrcEn := !isFlag d, encBit := 0, encStuff := false, busy := true }

/-- FRM_END (R272): `CRC` holds the FCS afterwards. -/
def execFrmEnd (s : State) : Result :=
  .next { s with
    crc := s.crc ^^^ Config.crcXorOut, encJob := .frameEnd, encEndStage := 0#2, encBit := 8,
    encStuff := false, busy := true }

end Sys2Proof.Machine
end

