-- ==== Sys2Proof/Machine/Position.lean ====
section
/-! DEFINITION. The position decoder: field routing, `feed` and `commit` (41_position_decoder.md R181 to
R190) and its five commands (R200 to R204). -/

namespace Sys2Proof.Machine

/-- The routing maps of R181: the field a character belongs to, if any. -/
def route (t : SentenceType) (comma : Byte) : Option Field :=
  match t with
  | .gpgga =>
    match comma.toNat with
    | 1 => some .time
    | 2 => some .latitude
    | 4 => some .longitude
    | 7 => some .satellites
    | 9 => some .altitude
    | _ => none
  | .gprmc =>
    match comma.toNat with
    | 7 => some .speed
    | 8 => some .course
    | _ => none
  | .none => none
  | .ignored => none

/-- The sentence type after character `b` of the identity section (R186). -/
def sniff (t : SentenceType) (b : Byte) : SentenceType :=
  if b = 0x53#8 then .ignored
  else if b = 0x43#8 then .gprmc
  else if b = 0x41#8 ∧ t ≠ .ignored then .gpgga
  else t

/-- `store(fld, b)` (R189): a character beyond the field is dropped, and `CIDX` advances either way. -/
def State.storeChar (s : State) (fld : Field) (b : Byte) : State :=
  let tmp :=
    if h : s.cidx.toNat < fld.len then s.tmp.put fld ((s.tmp.get fld).set s.cidx.toNat b h) else s.tmp
  { s with tmp := tmp, cidx := satInc s.cidx }

/-- `feed(b)` (R182): the first case that applies is the only one taken. -/
def State.feed (s : State) (b : Byte) : State :=
  if b = 0x00#8 then { s with stype := .none, comma := Config.commaSentinel, cidx := 0#8 }
  else if b = 0x24#8 then { s with stype := .none, comma := 0#8, cidx := 0#8 }
  else if b = 0x2C#8 then { s with comma := satInc s.comma, cidx := 0#8 }
  else if s.comma = 0#8 then { s with stype := sniff s.stype b }
  else
    match route s.stype s.comma with
    | some fld => s.storeChar fld b
    | none => s

/-- `commit()` (R190). -/
def State.commit (s : State) : State := { s with fix := s.tmp.commit }

/-- NMEA_FEED d (R200). -/
def execNmeaFeed (d : Byte) (s : State) : Result := .next (s.feed d)

/-- NMEA_COMMIT (R201). -/
def execNmeaCommit (s : State) : Result := .next s.commit

/-- FIX_RD f, i (R202): `OPERAND_RANGE` if `f > 6` or `i > L(f)`. -/
def execFixRd (f i : Byte) (s : State) : Result :=
  match s.fix.read f i with
  | some b => .next (s.setRes (b.zeroExtend 16))
  | none => .next (s.raiseCmdError .operandRange (Instr.opcode (.fixRd f i)))

/-- TMP_RD f, i (R203): `OPERAND_RANGE` if `f > 6` or `i > L(f) - 1`. -/
def execTmpRd (f i : Byte) (s : State) : Result :=
  match s.tmp.read f i with
  | some b => .next (s.setRes (b.zeroExtend 16))
  | none => .next (s.raiseCmdError .operandRange (Instr.opcode (.tmpRd f i)))

/-- CUR_RD (R204): `RES <- {COMMA, CIDX}`. -/
def execCurRd (s : State) : Result := .next (s.setRes (pair s.comma s.cidx))

end Sys2Proof.Machine
end

