-- ==== Sys2Proof/Machine/Link.lean ====
section
/-! DEFINITION. The serial link: the UART receive and transmit-empty events (40_serial_link.md R144, R145) and
its six commands (R150 to R155). -/

namespace Sys2Proof.Machine

/-- The UART receive event (R144). -/
def rxEvent (b : Byte) (s : State) : State := { s with rx := s.rx.push s.rxovm b }

/-- The UART transmit-empty event (R145); its step is enabled only when `TXACT = 1`. -/
def txEmptyEvent (s : State) : State :=
  if s.txAct then
    match s.tx.pop with
    | some (v, r) => { s.txLoad v with tx := r }
    | none => { s with txAct := false }
  else s

/-- The wait-feeder's step (44_bitclock.md R301), enabled when `BUSY = 1`, `DLFLAG = 1` and a received byte is
unread. It does not write `RES`. -/
def feederStep (s : State) : State :=
  if s.busy ∧ s.dlFlag then
    match s.rx.pop with
    | some (b, r) => ({ s with rx := r } : State).feed b
    | none => s
  else s

/-- The result word of a poll: bit 8 tells a received 0x00 from an empty ring (R150). -/
def polledWord (b : Byte) : Half := 0x0100#16 ||| b.zeroExtend 16

/-- RX_POLL (R150). -/
def execRxPoll (s : State) : Result :=
  match s.rx.pop with
  | some (b, r) => .next ({ s with rx := r }.setRes (polledWord b))
  | none => .next (s.setRes 0x0000#16)

/-- RX_POLL_FEED (R151). -/
def execRxPollFeed (s : State) : Result :=
  match s.rx.pop with
  | some (b, r) => .next (({ s with rx := r }.setRes (polledWord b)).feed b)
  | none => .next (s.setRes 0x0000#16)

/-- TX_ENQ d (R152): push, then prime, as one step. -/
def execTxEnq (d : Byte) (s : State) : Result :=
  .next ({ s with tx := s.tx.push s.txovm d } : State).prime

/-- OVF_RD (R153): `RES <- {TX_OVF_CNT, RX_OVF_CNT}`. -/
def execOvfRd (s : State) : Result := .next (s.setRes (pair s.tx.ovf s.rx.ovf))

/-- OVF_CLR (R154). -/
def execOvfClr (s : State) : Result := .next { s with rx := s.rx.clearOvf, tx := s.tx.clearOvf }

/-- `{zext_8(HEAD), zext_8(TAIL)}` of a ring (R155). -/
def Ring.indices (r : Ring) : Half := pair (BitVec.ofNat 8 r.head.val) (BitVec.ofNat 8 r.tail.val)

/-- RING_RD d (R155): `OPERAND_RANGE` if `d > 1`. -/
def execRingRd (d : Byte) (s : State) : Result :=
  match bitOperand d with
  | some false => .next (s.setRes s.rx.indices)
  | some true => .next (s.setRes s.tx.indices)
  | none => .next (s.raiseCmdError .operandRange (Instr.opcode (.ringRd d)))

end Sys2Proof.Machine
end

