-- ==== Sys2Proof/Machine/System.lean ====
section
/-! DEFINITION. The system commands NOP, STAT_RD, ERR_RD, ERR_CLR (45_system.md). -/

namespace Sys2Proof.Machine

/-- NOP (R330): no effect. -/
def execNop (s : State) : Result := .next s

/-- STAT_RD (R331): `RES <- STATUS`. -/
def execStatRd (s : State) : Result := .next (s.setRes s.statusWord)

/-- ERR_RD (R332): `RES <- {ERROP, ERRCAUSE}`. -/
def execErrRd (s : State) : Result := .next (s.setRes (pair s.errOp s.errCause))

/-- ERR_CLR (R333): clear the error record. -/
def execErrClr (s : State) : Result :=
  .next { s with err := false, errCause := 0x00#8, errOp := 0x00#8 }

end Sys2Proof.Machine
end

