-- ==== Sys2Proof/Machine/Dispatch.lean ====
section
/-! DEFINITION. One arm per command: the step that takes a command whose word has passed the decoder. -/

namespace Sys2Proof.Machine

/-- The effect of taking command `i` (the rule of each row of 30_encoding.md R103). -/
def exec (i : Instr) (s : State) : Host.Outcome State Fault Refusal :=
  match i with
  | .nop => Sys2Proof.Machine.execNop s
  | .statRd => Sys2Proof.Machine.execStatRd s
  | .errRd => Sys2Proof.Machine.execErrRd s
  | .errClr => Sys2Proof.Machine.execErrClr s
  | .crcInit => Sys2Proof.Machine.execCrcInit s
  | .crcBit d => Sys2Proof.Machine.execCrcBit d s
  | .crcByte d => Sys2Proof.Machine.execCrcByte d s
  | .crcRd => Sys2Proof.Machine.execCrcRd s
  | .crcFcs => Sys2Proof.Machine.execCrcFcs s
  | .crcWr w => Sys2Proof.Machine.execCrcWr w s
  | .frmStart w => Sys2Proof.Machine.execFrmStart w s
  | .frmByte d => Sys2Proof.Machine.execFrmByte d s
  | .frmEnd => Sys2Proof.Machine.execFrmEnd s
  | .wait w => Sys2Proof.Machine.execWait w s
  | .ctrlWr d => Sys2Proof.Machine.execCtrlWr d s
  | .ctrlRd => Sys2Proof.Machine.execCtrlRd s
  | .rxPoll => Sys2Proof.Machine.execRxPoll s
  | .rxPollFeed => Sys2Proof.Machine.execRxPollFeed s
  | .txEnq d => Sys2Proof.Machine.execTxEnq d s
  | .ovfRd => Sys2Proof.Machine.execOvfRd s
  | .ovfClr => Sys2Proof.Machine.execOvfClr s
  | .ringRd d => Sys2Proof.Machine.execRingRd d s
  | .nmeaFeed d => Sys2Proof.Machine.execNmeaFeed d s
  | .nmeaCommit => Sys2Proof.Machine.execNmeaCommit s
  | .fixRd f k => Sys2Proof.Machine.execFixRd f k s
  | .tmpRd f k => Sys2Proof.Machine.execTmpRd f k s
  | .curRd => Sys2Proof.Machine.execCurRd s

end Sys2Proof.Machine
end

