-- ==== Sys2Proof/Machine/Moves.lean ====
section
/-! DEFINITION. What each agent does when its turn comes (10_state.md R30), the reset event
(70_reset_and_hazards.md R390), and whose turn it is when the agenda says nothing (log 4). -/

namespace Sys2Proof.Machine

/-- The reset event (R390): every register to its reset value; `RXBUF` and `TXBUF` are not written. The
parameters, the words still with the controller and the record of past outputs are no registers (log 7). -/
def resetEvent (s : State) : State :=
  { State.powerOn s.cfg with
    rx := { Ring.empty with buf := s.rx.buf }
    tx := { Ring.empty with buf := s.tx.buf }
    txTrace := s.txTrace, lineTrace := s.lineTrace, dacTrace := s.dacTrace
    cmds := s.cmds, agenda := s.agenda }

/-- Take command word `w` (30_encoding.md R107, R108): reject it with a command error, or execute its rule. -/
def takeCommand (w : Cmd) (s : State) : Result :=
  match decode w with
  | .ok i => exec i s
  | .error c => .next (s.raiseCmdError c (opField w))

/-- The controller's turn (10_state.md R31): the word on the port is taken if `BUSY = 0`, else it is held and not
checked (R108). -/
def controllerMove (s : State) : Result :=
  if s.busy then .next s
  else
    match s.cmds with
    | w :: ws => takeCommand w { s with cmds := ws }
    | [] => .next s

/-- The sequencer's turn: an encoder step (R258) or the end of a wait (R300), enabled when `BUSY = 1` and
`DLFLAG = 0`. -/
def sequencerMove (s : State) : Result :=
  if s.busy ∧ s.dlFlag = false then
    match s.encJob with
    | .flags => encStep s
    | .byte => encStep s
    | .frameEnd => encStep s
    | .wait => .next (endOfWait s)
    | .none => .next s
  else .next s

/-- One agent's turn. An agent whose step is not enabled does nothing (log 5). -/
def runMove (m : Move) (s : State) : Result :=
  match m with
  | .controller => controllerMove s
  | .sequencer => sequencerMove s
  | .feeder => .next (feederStep s)
  | .rxByte b => .next (rxEvent b s)
  | .txEmpty => .next (txEmptyEvent s)
  | .tick => .next (tickEvent s)
  | .reset => .next (resetEvent s)

/-- Whose turn it is when the agenda is empty (log 4): an enabled sequencer step first, then an enabled feeder
step, then a command, then the tick. It is one of the orders R359 allows, and it keeps the timing convention of
44_bitclock.md R302. -/
def defaultMove (s : State) : Move :=
  if s.busy then
    if s.dlFlag then (if s.rxne then .feeder else .tick)
    else if s.encJob = .none then .tick else .sequencer
  else
    match s.cmds with
    | _ :: _ => .controller
    | [] => .tick

/-- The block between commands (10_state.md R69: `BUSY = 0`, no job, no deadline pending), command word `w` on the
port, and the controller next: the next step takes `w` (log 6). -/
def State.present (s : State) (w : Cmd) : State :=
  { s with busy := false, encJob := .none, dlFlag := false, cmds := w :: s.cmds, agenda := .controller :: s.agenda }

/-- The command word of a table row of `nbits` bits; every bit above `nbits` is 0. -/
def tableCmd (nbits w : Nat) : Cmd := BitVec.ofNat 24 (w % 2 ^ nbits)

end Sys2Proof.Machine
end

