-- ==== Sys2Proof/Machine/Step.lean ====
section
/-! DEFINITION. One atomic step of the block (00_scope.md R10; 20_memory.md R91): the next agent of the agenda, or
the default order where the agenda is empty, takes its turn. -/

namespace Sys2Proof.Machine

/-- One atomic step. -/
def step (s : State) : Host.Outcome State Fault Refusal :=
  match s.agenda with
  | m :: ms => runMove m { s with agenda := ms }
  | [] => runMove (defaultMove s) s

/-- `s` with the table row's word on the command port, so that the next step takes it (log 6). -/
def State.withFetchWord (s : State) (nbits w : Nat) : State := s.present (tableCmd nbits w)

end Sys2Proof.Machine
end

