-- ==== Sys2Proof/Machine/Asm.lean ====
section
/-! DEFINITION. The assembler syntax and the pseudo-instructions (30_encoding.md R109, R110). The block reads none
of it: an assembled program is a list of command words to present on the port. Details of the text that R109 does
not give are log 12; the byte layout of FRM_ADDR is log 13. -/

namespace Sys2Proof.Machine

/-! ### Pseudo-instructions (R110) -/

/-- `FRM_STR "s"`. -/
def frmStr (s : List Byte) : List Instr := s.map .frmByte

/-- `CRC_STR "s"`. -/
def crcStr (s : List Byte) : List Instr := s.map .crcByte

/-- `FEED_STR "s"`. -/
def feedStr (s : List Byte) : List Instr := s.map .nmeaFeed

/-- `FRM_FLAG`. -/
def frmFlag : List Instr := [.frmByte Config.flagByte]

/-- `FRM_ADDR "CALL", ssid, last`: six characters padded with spaces and shifted left by one, then the SSID byte
`0x60 | (ssid << 1) | last`; `none` where an operand is out of the range R110 gives (log 13). -/
def frmAddr (call : List Byte) (ssid last : Nat) : Option (List Instr) :=
  if call.length ≤ 6 ∧ ssid ≤ 15 ∧ last ≤ 1 then
    some (((call ++ List.replicate (6 - call.length) 0x20#8).map fun c => .frmByte (c <<< 1)) ++
      [.frmByte (0x60#8 ||| (BitVec.ofNat 8 ssid <<< 1) ||| BitVec.ofNat 8 last)])
  else none

/-! ### Tokens of one line -/

/-- A token: a name, a number, a string or a comma. -/
inductive Token where
  | name (s : String)
  | num (n : Nat)
  | str (bytes : List Byte)
  | comma
  deriving DecidableEq, Repr

/-- Where the scanner stands inside a token; lists hold the token's characters so far, latest first. -/
inductive Scan where
  | between
  | word (rev : List Char)
  | string (rev : List Byte)
  | stringEscape (rev : List Byte)
  | charOpen
  | charClose (b : Byte)
  deriving DecidableEq, Repr

/-- The ASCII code of a character (R11). -/
def asciiOf (c : Char) : Option Byte := if c.toNat < 128 then some (BitVec.ofNat 8 c.toNat) else none

/-- The value of a digit in base `base`. -/
def digitOf (base : Nat) (c : Char) : Option Nat :=
  let n := c.toNat
  let v := if 48 ≤ n ∧ n ≤ 57 then some (n - 48)
    else if 97 ≤ n ∧ n ≤ 102 then some (n - 87)
    else if 65 ≤ n ∧ n ≤ 70 then some (n - 55)
    else none
  v.filter (· < base)

/-- The value of a string of digits after a value `acc`. -/
def digitsValue (base : Nat) : Nat → List Char → Option Nat
  | acc, [] => some acc
  | acc, c :: cs =>
    match digitOf base c with
    | some d => digitsValue base (acc * base + d) cs
    | none => none

/-- A number is decimal or `0x` hexadecimal (R109). -/
def numberOf (cs : List Char) : Option Nat :=
  match cs with
  | [] => none
  | '0' :: 'x' :: d :: ds => digitsValue 16 0 (d :: ds)
  | c :: ds => digitsValue 10 0 (c :: ds)

/-- Characters of names and numbers. -/
def isWordChar (c : Char) : Bool :=
  let n := c.toNat
  decide (48 ≤ n ∧ n ≤ 57 ∨ 65 ≤ n ∧ n ≤ 90 ∨ 97 ≤ n ∧ n ≤ 122 ∨ n = 95)

/-- Blanks between tokens. -/
def isBlank (c : Char) : Bool := decide (c.toNat = 32 ∨ c.toNat = 9 ∨ c.toNat = 13 ∨ c.toNat = 10)

/-- A finished word: a number if it begins with a digit, else a name. -/
def wordToken (rev : List Char) : Option Token :=
  let cs := rev.reverse
  match cs with
  | [] => none
  | c :: _ =>
    if 48 ≤ c.toNat ∧ c.toNat ≤ 57 then (numberOf cs).map .num else some (.name (String.ofList cs))

/-- The byte an escape `\r`, `\n`, `\0` stands for (R110). -/
def escapeOf (c : Char) : Option Byte :=
  match c with
  | 'r' => some 0x0D#8
  | 'n' => some 0x0A#8
  | '0' => some 0x00#8
  | _ => none

/-- The start of a token at character `c`, which is no comment. -/
def openToken (c : Char) : Option (List Token × Scan) :=
  if isBlank c then some ([], .between)
  else if c = ',' then some ([.comma], .between)
  else if c = '"' then some ([], .string [])
  else if c = '\'' then some ([], .charOpen)
  else if isWordChar c then some ([], .word [c])
  else none

/-- The tokens of a line; a `;` outside quotes starts a comment (R109). -/
def scan : Scan → List Char → Option (List Token)
  | .between, [] => some []
  | .word rev, [] => (wordToken rev).map fun t => [t]
  | .string _, [] => none
  | .stringEscape _, [] => none
  | .charOpen, [] => none
  | .charClose _, [] => none
  | .between, c :: cs =>
    if c = ';' then some []
    else
      match openToken c with
      | some (ts, st) => (scan st cs).map fun rest => ts ++ rest
      | none => none
  | .word rev, c :: cs =>
    if isWordChar c then scan (.word (c :: rev)) cs
    else
      match wordToken rev with
      | none => none
      | some t =>
        if c = ';' then some [t]
        else
          match openToken c with
          | some (ts, st) => (scan st cs).map fun rest => t :: (ts ++ rest)
          | none => none
  | .string rev, c :: cs =>
    if c = '"' then (scan .between cs).map fun rest => .str rev.reverse :: rest
    else if c = '\\' then scan (.stringEscape rev) cs
    else
      match asciiOf c with
      | some b => scan (.string (b :: rev)) cs
      | none => none
  | .stringEscape rev, c :: cs =>
    match escapeOf c with
    | some b => scan (.string (b :: rev)) cs
    | none => none
  | .charOpen, c :: cs =>
    match asciiOf c with
    | some b => scan (.charClose b) cs
    | none => none
  | .charClose b, c :: cs =>
    if c = '\'' then (scan .between cs).map fun rest => .num b.toNat :: rest else none

/-! ### Lines -/

/-- The operands of a line, separated by commas. -/
def operandsOf : List Token → Option (List Token)
  | [] => some []
  | [.name s] => some [.name s]
  | [.num n] => some [.num n]
  | [.str b] => some [.str b]
  | .name s :: .comma :: rest => (operandsOf rest).bind fun l => if l = [] then none else some (.name s :: l)
  | .num n :: .comma :: rest => (operandsOf rest).bind fun l => if l = [] then none else some (.num n :: l)
  | .str b :: .comma :: rest => (operandsOf rest).bind fun l => if l = [] then none else some (.str b :: l)
  | _ => none

/-- The opcode of a mnemonic (30_encoding.md R103). -/
def mnemonicTable : List (String × Byte) :=
  [("NOP", 0x00#8), ("STAT_RD", 0x01#8), ("ERR_RD", 0x02#8), ("ERR_CLR", 0x03#8)] ++
  [("CRC_INIT", 0x10#8), ("CRC_BIT", 0x11#8), ("CRC_BYTE", 0x12#8), ("CRC_RD", 0x13#8), ("CRC_FCS", 0x14#8),
    ("CRC_WR", 0x15#8)] ++
  [("FRM_START", 0x20#8), ("FRM_BYTE", 0x21#8), ("FRM_END", 0x22#8)] ++
  [("WAIT", 0x30#8), ("CTRL_WR", 0x31#8), ("CTRL_RD", 0x32#8)] ++
  [("RX_POLL", 0x40#8), ("RX_POLL_FEED", 0x41#8), ("TX_ENQ", 0x42#8), ("OVF_RD", 0x43#8), ("OVF_CLR", 0x44#8),
    ("RING_RD", 0x45#8)] ++
  [("NMEA_FEED", 0x50#8), ("NMEA_COMMIT", 0x51#8), ("FIX_RD", 0x52#8), ("TMP_RD", 0x53#8), ("CUR_RD", 0x54#8)]

/-- The names a field code may be written by (R109). -/
def fieldNameTable : List (String × Nat) :=
  [("TIME", 0), ("LAT", 1), ("LON", 2), ("ALT", 3), ("SPD", 4), ("CRS", 5), ("SAT", 6)]

/-- A byte operand: refused, not truncated, where it does not fit (R109). -/
def byteArg : Token → Option Byte
  | .num n => if n < 256 then some (BitVec.ofNat 8 n) else none
  | _ => none

/-- A 16-bit operand: refused, not truncated, where it does not fit (R109). -/
def halfArg : Token → Option Half
  | .num n => if n < 65536 then some (BitVec.ofNat 16 n) else none
  | _ => none

/-- A field code, by number or by name (R109). -/
def fieldArg : Token → Option Byte
  | .name s => (fieldNameTable.lookup s).map (BitVec.ofNat 8)
  | t => byteArg t

/-- A core command from its mnemonic and operands, by the format of its opcode. -/
def assembleCore (m : String) (args : List Token) : Option Instr :=
  match (mnemonicTable.lookup m).bind formOf, args with
  | some (.n i), [] => some i
  | some (.b mk), [d] => (byteArg d).map mk
  | some (.w mk), [w] => (halfArg w).map mk
  | some (.f mk), [f, k] => (fieldArg f).bind fun fv => (byteArg k).map fun kv => mk fv kv
  | _, _ => none

/-- The commands of a statement: a pseudo-instruction expanded (R110), or one core command. -/
def assembleStatement (m : String) (args : List Token) : Option (List Instr) :=
  if m = "FRM_STR" then (match args with | [.str s] => some (frmStr s) | _ => none)
  else if m = "CRC_STR" then (match args with | [.str s] => some (crcStr s) | _ => none)
  else if m = "FEED_STR" then (match args with | [.str s] => some (feedStr s) | _ => none)
  else if m = "FRM_ADDR" then (match args with | [.str s, .num a, .num b] => frmAddr s a b | _ => none)
  else if m = "FRM_FLAG" then (match args with | [] => some frmFlag | _ => none)
  else (assembleCore m args).map fun i => [i]

/-- The commands of one line; `none` where the assembler refuses it. -/
def assembleLine (line : List Char) : Option (List Instr) :=
  match scan .between line with
  | none => none
  | some [] => some []
  | some (.name m :: rest) => (operandsOf rest).bind (assembleStatement m)
  | some _ => none

/-- The command words of a program, line by line. -/
def assemble : List String → Option (List Cmd)
  | [] => some []
  | l :: ls => (assembleLine l.toList).bind fun is => (assemble ls).map fun ws => is.map encode ++ ws

end Sys2Proof.Machine
end

