-- ==== Sys2Proof/WellFormed.lean ====
section
/-! DEFINITION. Which commands pass the operand checks of 30_encoding.md R105 (CTRL_WR) and R106. A command
that does not is a real word of the block: it takes the command error its rule names (see Machine/). -/

namespace Sys2Proof

/-- `f <= 6` and `i <= L(f)` (30_encoding.md R106, FIX_RD). -/
def fixOperandOk (f i : Byte) : Bool :=
  match Config.commitLen[f.toNat]? with
  | some n => decide (i.toNat ≤ n)
  | none => false

/-- `f <= 6` and `i <= L(f) - 1` (30_encoding.md R106, TMP_RD). -/
def tmpOperandOk (f i : Byte) : Bool :=
  match Config.commitLen[f.toNat]? with
  | some n => decide (i.toNat < n)
  | none => false

/-- The command passes every operand check: it executes its rule rather than raising `CmdError`. -/
def Instr.wellFormed : Instr → Bool
  | .crcBit d => decide (d.toNat ≤ 1)
  | .ringRd d => decide (d.toNat ≤ 1)
  | .ctrlWr d => decide (d.toNat < 64)
  | .fixRd f i => fixOperandOk f i
  | .tmpRd f i => tmpOperandOk f i
  | .nop | .statRd | .errRd | .errClr => true
  | .crcInit | .crcByte _ | .crcRd | .crcFcs | .crcWr _ => true
  | .frmStart _ | .frmByte _ | .frmEnd => true
  | .wait _ | .ctrlRd => true
  | .rxPoll | .rxPollFeed | .txEnq _ | .ovfRd | .ovfClr => true
  | .nmeaFeed _ | .nmeaCommit | .curRd => true

end Sys2Proof
end

