-- ==== Sys2Proof/Safety.lean ====
section
/-! DEFINITION. The terms claims about the block use: runs and their end, the invariant of every reachable state,
the environment's duties, and the receiver's view of the line symbols. No step reads anything of this file. -/

namespace Sys2Proof.Machine

/-! ### Runs -/

/-- The agent whose turn the next step is. -/
def State.turn (s : State) : Move :=
  match s.agenda with
  | m :: _ => m
  | [] => defaultMove s

/-- The command the next step takes, where the turn is the controller's and the word on the port passes the decoder. -/
def State.taken (s : State) : Option Instr :=
  match s.turn, s.busy, s.cmds with
  | .controller, false, w :: _ => (decode w).toOption
  | _, _, _ => none

/-- `n` steps, stopping at the first fault or refusal. -/
def steps : Nat → State → Result
  | 0, s => .next s
  | n + 1, s =>
    match step s with
    | .next t => steps n t
    | .fault r => .fault r
    | .refused r => .refused r

/-- `n` base ticks with nothing else between them (44_bitclock.md R292, R297). -/
def ticks : Nat → State → State
  | 0, s => s
  | n + 1, s => ticks n (tickEvent s)

/-- Commands taken one after another, nothing else between them. -/
def execAll : List Instr → State → Result
  | [], s => .next s
  | i :: is, s =>
    match exec i s with
    | .next t => execAll is t
    | .fault r => .fault r
    | .refused r => .refused r

/-- `t` comes after `s` in some number of steps. -/
def State.Leads (s t : State) : Prop := ∃ n, steps n s = .next t

/-- `s` is reached from reset with some words on the command port and some order of the agents (70_reset_and_hazards.md
R415; 20_memory.md R91). -/
def State.Reachable (s : State) : Prop :=
  ∃ (cmds : List Cmd) (agenda : List Move), State.Leads { State.reset with cmds := cmds, agenda := agenda } s

/-- What the end of a run asks of a state (70_reset_and_hazards.md R415): every word taken and `BUSY = 0`. It is true of
every later idle state too; the end itself is `State.RunEndsAt`. -/
def State.RunEnded (s : State) : Prop := s.cmds = [] ∧ s.busy = false

/-- From `s` on, the run ends after `n` steps, in `t`: the FIRST state in which every word has been taken and `BUSY = 0`
(R415). -/
def State.RunEndsAt (s : State) (n : Nat) (t : State) : Prop :=
  steps n s = .next t ∧ t.RunEnded ∧ ∀ (k : Nat) (u : State), k < n → steps k s = .next u → ¬ u.RunEnded

/-- The traces of 10_state.md R32. -/
structure Traces where
  /-- The `tx_load` bytes. -/
  tx : List Byte
  /-- The line symbols. -/
  line : List Bool
  /-- The samples. -/
  dac : List Nibble
  deriving DecidableEq, Repr

/-- The traces up to a state, oldest entry first. -/
def State.traces (s : State) : Traces := { tx := s.txTrace, line := s.lineTrace, dac := s.dacTrace }

/-- `t` is the end state of a run of the command words `cmds` (R415) in one order of the agents: a reset, the words
presented on the port, and the first state in which all are taken and `BUSY = 0`; the run's traces, `out`, are the
observable traces' beginnings up to that state. -/
def IsRun (cmds : List Cmd) (agenda : List Move) (t : State) (out : Traces) : Prop :=
  ∃ n : Nat, State.RunEndsAt { State.reset with cmds := cmds, agenda := agenda } n t ∧ out = t.traces

/-- One encoder step and the bit period it starts, elapsed (43_frame_encoder.md R255): what the encoder sees at its next
step when no other agent writes its registers (10_state.md R68). -/
def bitPeriod (s : State) : Result :=
  match encStep s with
  | .next t => .next { t with dlFlag := false }
  | .fault r => .fault r
  | .refused r => .refused r

/-- `n` bit periods. -/
def bitPeriods : Nat → State → Result
  | 0, s => .next s
  | n + 1, s =>
    match bitPeriod s with
    | .next t => bitPeriods n t
    | .fault r => .fault r
    | .refused r => .refused r

/-! ### The invariant -/

/-- The jobs in which the encoder step is enabled (43_frame_encoder.md R258). -/
def Job.sendsBits : Job → Bool
  | .flags => true
  | .byte => true
  | .frameEnd => true
  | .none => false
  | .wait => false

/-- The invariants of 10_state.md R69, with what they need to be kept by every step. -/
structure State.Inv (s : State) : Prop where
  /-- The parameters meet the constraints of 00_scope.md R6. -/
  cfg_legal : s.cfg.legal = true
  /-- `ONES <= 5`. -/
  ones_le : s.ones.toNat ≤ 5
  /-- A stuffed zero is due exactly when the run counter is at 5. -/
  ones_stuff : s.ones = 5#3 ↔ s.encStuff = true
  /-- A stuffed zero is due only inside a job that sends line bits. -/
  stuff_job : s.encStuff = true → s.encJob.sendsBits = true
  /-- A byte whose bits update `CRC` is no flag byte (43_frame_encoder.md R254). -/
  crcEn_byte : s.encCrcEn = true → s.encByte ≠ Config.flagByte
  /-- `ENC_JOB = NONE` exactly when `BUSY = 0` (10_state.md R53). -/
  job_busy : s.encJob = .none ↔ s.busy = false
  /-- `BUSY = 0` implies `DLFLAG = 0` (10_state.md R59). -/
  dl_idle : s.busy = false → s.dlFlag = false
  /-- `TXACT = 0` implies an empty transmit ring (40_serial_link.md R147). -/
  tx_idle : s.txAct = false → s.tx.head = s.tx.tail
  /-- `FIX[f][L(f)] = 0x00`. -/
  fix_end : ∀ f : Field, (s.fix.get f)[f.len] = 0x00#8
  /-- `CTRL[7:6]` read as 0 (10_state.md R58). -/
  ctrl_reserved : s.ctrl.extractLsb' 6 2 = 0#2
  /-- No error recorded: both fields of the record are 0 (45_system.md R332). -/
  err_clear : s.err = false → s.errCause = 0x00#8 ∧ s.errOp = 0x00#8
  /-- Cause codes 0x04 to 0xFF are never recorded, nor 0x00 (60_exceptions.md R351). -/
  err_cause : s.err = true → s.errCause = 0x01#8 ∨ s.errCause = 0x02#8 ∨ s.errCause = 0x03#8

/-! ### Parameters and the environment's duties -/

/-- The nominal values of the timing parameters (00_scope.md R6, R7). The spec gives no rounding of the three quotients;
the model rounds none: the counts are EXACTLY the quotients, so that the tones are exactly 1200 and 2200 Hz
(44_bitclock.md R297), and a rate whose quotients are not all whole has no nominal values (DESIGN CHOICE, log 15). -/
def nominal (p : Config.Params) : Prop :=
  (p.reloadMark.toNat : Rat) = p.fTick / (1200 * 16) ∧ (p.reloadSpace.toNat : Rat) = p.fTick / (2200 * 16) ∧
    (p.bitTicks.toNat : Rat) = p.fTick / 1200

/-- The fundamental frequency of a tone, in Hz (44_bitclock.md R297). -/
def toneHz (p : Config.Params) (tone : Bool) : Rat := p.fTick / (16 * ((reload p tone).toNat : Rat))

/-- At least `gap` base ticks between two receive events of an agenda; `since` counts the ticks since the last one. -/
def receivesSpaced (gap : Nat) : Option Nat → List Move → Bool
  | _, [] => true
  | since, .rxByte _ :: ms =>
    (match since with
      | some n => decide (gap ≤ n)
      | none => true) && receivesSpaced gap (some 0) ms
  | since, .tick :: ms => receivesSpaced gap (since.map (· + 1)) ms
  | since, .controller :: ms => receivesSpaced gap since ms
  | since, .sequencer :: ms => receivesSpaced gap since ms
  | since, .feeder :: ms => receivesSpaced gap since ms
  | since, .txEmpty :: ms => receivesSpaced gap since ms
  | since, .reset :: ms => receivesSpaced gap since ms

/-- The agenda meets the optional parameter `RX_MIN_GAP` (70_reset_and_hazards.md R404). -/
def State.meetsRxMinGap (s : State) : Bool :=
  match s.cfg.rxMinGap with
  | some gap => receivesSpaced gap none s.agenda
  | none => true

/-- The wait-feeder's step is enabled (44_bitclock.md R301). -/
def State.feederEnabled (s : State) : Bool := s.busy && s.dlFlag && s.rxne

/-- Along the first `n` steps from `s` the wait-feeder keeps up: where its step is enabled during a period, every unread
byte is gone from the receive ring before the next byte arrives (70_reset_and_hazards.md R404). -/
def State.feederKeepsUp (s : State) (n : Nat) : Prop :=
  ∀ (j k : Nat) (u v : State), j ≤ k → k < n → steps j s = .next u → u.feederEnabled = true →
    steps k s = .next v → (∃ b, v.turn = .rxByte b) →
    ∃ (i : Nat) (w : State), j ≤ i ∧ i ≤ k ∧ steps i s = .next w ∧ w.rx.head = w.rx.tail

/-- What a claim about overflow may assume with `RX_MIN_GAP` (R404): the platform promises a gap, the receive events keep
it, and each period's feeder steps run before the next byte arrives. That "run before" means that the ring is empty by
then is the model's reading (DEDUCED, log 16). -/
def State.rxGapAssumption (s : State) (n : Nat) : Prop :=
  s.cfg.rxMinGap.isSome = true ∧ s.meetsRxMinGap = true ∧ s.feederKeepsUp n

/-- The hold of 44_bitclock.md R302 for one step: no tick while the sequencer's step is enabled. -/
def State.keepsTimingConvention (s : State) : Prop :=
  s.busy = true → s.dlFlag = false → s.encJob ≠ .none → s.turn ≠ .tick

/-! ### What a receiver makes of the line symbols -/

/-- NRZI decoding: a bit is 1 where the tone stays (43_frame_encoder.md R251); `tone` is the level before. -/
def nrziDecode : Bool → List Bool → List Bool
  | _, [] => []
  | tone, x :: xs => decide (x = tone) :: nrziDecode x xs

/-- Removal of stuffed zeros: the bit after five ones is dropped (R253); `run` is the number of ones just before. -/
def unstuff : Nat → List Bool → List Bool
  | _, [] => []
  | run, b :: bs =>
    if run = 5 then unstuff 0 bs
    else if b then true :: unstuff (run + 1) bs
    else false :: unstuff 0 bs

/-- The bits of a byte in line order, least significant first (20_memory.md R83). -/
def lineBits (d : Byte) : List Bool := [0, 1, 2, 3, 4, 5, 6, 7].map fun k => d.getLsbD k

/-- `send_byte` over a sequence of bytes whose non-flag bytes update `CRC`, as FRM_BYTE sends them (R271). -/
def Line.sendPayload (l : Line) (m : List Byte) : Line := m.foldl (fun l d => l.sendByte d (!isFlag d)) l

/-- `send_byte` over bytes that do not update `CRC`, as FRM_START and FRM_END send them (R254). -/
def Line.sendRaw (l : Line) (m : List Byte) : Line := m.foldl (fun l d => l.sendByte d false) l

/-- The line after a whole frame (R260): seed and mark, `w` flags, the payload, then the FCS low byte, high byte and
the trailing flag (R270 to R272). -/
def Line.frame (l : Line) (w : Nat) (m : List Byte) : Line :=
  let a := ({ l with crc := Config.crcInit, ones := 0#3, tone := false } : Line).sendRaw (List.replicate w Config.flagByte)
  let b := a.sendPayload m
  let c : Line := { b with crc := b.crc ^^^ Config.crcXorOut }
  c.sendRaw [c.crc.extractLsb' 0 8, c.crc.extractLsb' 8 8, Config.flagByte]

end Sys2Proof.Machine
end

