-- ==== Sys2Proof/Certificates/Slice0/Obligations.lean ====
section
/-! DEFINITION. The statements about the block for the provers, from the numbered rules of spec/. -/

namespace Sys2Proof.Claims

/-- Opcodes of the format N rows of 30_encoding.md R103. -/
def opcodesN : List Byte :=
  [0x00#8, 0x01#8, 0x02#8, 0x03#8, 0x10#8, 0x13#8, 0x14#8, 0x22#8, 0x32#8, 0x40#8, 0x41#8, 0x43#8, 0x44#8, 0x51#8, 0x54#8]
/-- Opcodes of the format B rows. -/
def opcodesB : List Byte := [0x11#8, 0x12#8, 0x21#8, 0x31#8, 0x42#8, 0x45#8, 0x50#8]
/-- Opcodes of the format W rows. -/
def opcodesW : List Byte := [0x15#8, 0x20#8, 0x30#8]
/-- Opcodes of the format F rows. -/
def opcodesF : List Byte := [0x52#8, 0x53#8]
/-- The 27 defined opcodes. -/
def opcodes : List Byte := opcodesN ++ opcodesB ++ opcodesW ++ opcodesF

/-- `s` after a command error with cause code `code` for opcode byte `op` (60_exceptions.md R352). -/
def recorded (s : Machine.State) (code op : Byte) : Machine.State :=
  if s.err = true then s else { s with err := true, errCause := code, errOp := op }

/-- Every word of a format N opcode with a nonzero operand field is rejected for its reserved bits (30_encoding.md R105). -/
def rejectsImm (op : Byte) : Prop :=
  ∀ (s : Machine.State) (imm : Half), imm ≠ 0 → Machine.takeCommand (cmdWord op imm) s = .next (recorded s 0x02#8 op)

/-- Every word of a format B opcode with `IMM[15:8]` not 0 is rejected for its reserved bits (R105). -/
def rejectsHigh (op : Byte) : Prop :=
  ∀ (s : Machine.State) (hi lo : Byte), hi ≠ 0 →
    Machine.takeCommand (cmdWord op (pair hi lo)) s = .next (recorded s 0x02#8 op)

/-- `crc_step(c, bit)` of 42_crc.md R220, written out: shift right, and fold in the polynomial where the bit shifted out
differs from `bit`. -/
def crcStepOf (c : Half) (bit : Bool) : Half := (c >>> 1) ^^^ (if c.getLsbD 0 = bit then 0#16 else 0x8408#16)

/-- The mnemonics of the format N rows of 30_encoding.md R103, each with its command. -/
def mnemonicsN : List (String × Instr) :=
  [("NOP", .nop), ("STAT_RD", .statRd), ("ERR_RD", .errRd), ("ERR_CLR", .errClr), ("CRC_INIT", .crcInit)] ++
  [("CRC_RD", .crcRd), ("CRC_FCS", .crcFcs), ("FRM_END", .frmEnd), ("CTRL_RD", .ctrlRd), ("RX_POLL", .rxPoll)] ++
  [("RX_POLL_FEED", .rxPollFeed), ("OVF_RD", .ovfRd), ("OVF_CLR", .ovfClr), ("NMEA_COMMIT", .nmeaCommit), ("CUR_RD", .curRd)]
/-- The mnemonics of the format B rows. -/
def mnemonicsB : List (String × (Byte → Instr)) :=
  [("CRC_BIT", .crcBit), ("CRC_BYTE", .crcByte), ("FRM_BYTE", .frmByte), ("CTRL_WR", .ctrlWr), ("TX_ENQ", .txEnq),
    ("RING_RD", .ringRd), ("NMEA_FEED", .nmeaFeed)]
/-- The mnemonics of the format W rows. -/
def mnemonicsW : List (String × (Half → Instr)) := [("CRC_WR", .crcWr), ("FRM_START", .frmStart), ("WAIT", .wait)]
/-- The mnemonics of the format F rows. -/
def mnemonicsF : List (String × (Byte → Byte → Instr)) := [("FIX_RD", .fixRd), ("TMP_RD", .tmpRd)]
/-- The names of the field codes (30_encoding.md R109). -/
def fieldNames : List (String × Byte) :=
  [("TIME", 0#8), ("LAT", 1#8), ("LON", 2#8), ("ALT", 3#8), ("SPD", 4#8), ("CRS", 5#8), ("SAT", 6#8)]

/-- The twelve read commands (10_state.md R65). -/
def isRead : Instr → Bool
  | .statRd | .errRd | .crcRd | .crcFcs | .ctrlRd | .rxPoll | .rxPollFeed | .ovfRd | .ringRd _ | .fixRd _ _
  | .tmpRd _ _ | .curRd => true
  | .nop | .errClr | .crcInit | .crcBit _ | .crcByte _ | .crcWr _ | .frmStart _ | .frmByte _ | .frmEnd | .wait _
  | .ctrlWr _ | .txEnq _ | .ovfClr | .nmeaFeed _ | .nmeaCommit => false

/-- The routing rows of 41_position_decoder.md R181. -/
def routing : List (Machine.SentenceType × Byte × Field) :=
  [(.gpgga, 1#8, .time), (.gpgga, 2#8, .latitude), (.gpgga, 4#8, .longitude), (.gpgga, 7#8, .satellites),
    (.gpgga, 9#8, .altitude), (.gprmc, 7#8, .speed), (.gprmc, 8#8, .course)]

/-- The bytes of an ASCII text. -/
def ascii (t : String) : List Byte := t.toList.map fun c => BitVec.ofNat 8 c.toNat

/-- `feed` of a sequence of bytes, in order (41_position_decoder.md R180). -/
def feedAll (s : Machine.State) (bs : List Byte) : Machine.State := bs.foldl Machine.State.feed s

/-- A ring filled by pushes in one mode, in order (40_serial_link.md R141). -/
def pushAll (r : Machine.Ring) (mode : Bool) (bs : List Byte) : Machine.Ring := bs.foldl (fun r b => r.push mode b) r

/-- A sequence of pushes (`some b`) and pops (`none`) on one ring such that no push finds 95 unread bytes and no pop an
empty ring: the bytes pushed and the bytes popped, in order; `none` if the premise fails (40_serial_link.md R156). -/
def ringRun (mode : Bool) : List (Option Byte) → Machine.Ring → Option (List Byte × List Byte × Machine.Ring)
  | [], r => some ([], [], r)
  | some b :: ops, r =>
    if r.count = 95 then none else (ringRun mode ops (r.push mode b)).map fun x => (b :: x.1, x.2.1, x.2.2)
  | none :: ops, r =>
    match r.pop with
    | some (b, r') => (ringRun mode ops r').map fun x => (x.1, b :: x.2.1, x.2.2)
    | none => none

end Sys2Proof.Claims

open Sys2Proof Sys2Proof.Machine

/-! ### Encoding and command errors -/

/-- Decoding the word of any command gives it back, with every operand at every value (30_encoding.md R100 to R103). -/
def Obligations.EncodedCommandDecodesToItself : Prop :=
  ∀ i : Instr, decode (encode i) = .ok i ∧ decodeTableWord 24 (encode i).toNat = some i

/-- A word the decoder accepts is the word of the command it gives: each command has one word (R100 to R105). -/
def Obligations.AcceptedWordEncodesItsCommand : Prop :=
  ∀ (w : Cmd) (i : Instr), decode w = .ok i → encode i = w

/-- The worked encodings of 30_encoding.md R111, word by word. -/
def Obligations.WorkedEncodingsRead : Prop :=
  decode 0x000000#24 = .ok .nop ∧ decode 0x210041#24 = .ok (.frmByte 0x41#8) ∧
  decode 0x200064#24 = .ok (.frmStart 100#16) ∧ decode 0x3003E8#24 = .ok (.wait 1000#16) ∧
  decode 0x520103#24 = .ok (.fixRd 1#8 3#8) ∧ fieldOfCode 1#8 = some .latitude ∧
  decode 0x310010#24 = .ok (.ctrlWr 0x10#8) ∧
  decode 0x110002#24 = .ok (.crcBit 2#8) ∧
  ∀ s : State, s.err = false →
    takeCommand 0x7F0000#24 s = .next { s with err := true, errCause := 0x01#8, errOp := 0x7F#8 } ∧
    takeCommand 0x100001#24 s = .next { s with err := true, errCause := 0x02#8, errOp := 0x10#8 } ∧
    takeCommand 0x110002#24 s = .next { s with err := true, errCause := 0x03#8, errOp := 0x11#8 }

/-- R104: exactly 27 opcodes are defined, and a word with any of the 229 others raises ILLEGAL_OPCODE and nothing else. -/
def Obligations.UndefinedOpcodeRaisesIllegalOpcode : Prop :=
  Claims.opcodes.Nodup ∧ Claims.opcodes.length = 27 ∧
  ∀ (w : Cmd) (s : State),
    (opField w ∉ Claims.opcodes → takeCommand w s = .next (Claims.recorded s 0x01#8 (opField w))) ∧
    (opField w ∈ Claims.opcodes → decode w ≠ .error .illegalOpcode)

/-- R105: nonzero reserved bits of formats N and B, and CTRL_WR's `d[7:6]`, raise RESERVED_BITS and nothing else;
formats W and F have no reserved bits. -/
def Obligations.ReservedBitsRaiseReservedBits : Prop :=
  (∀ op ∈ Claims.opcodesN, Claims.rejectsImm op) ∧
  (∀ op ∈ Claims.opcodesB, Claims.rejectsHigh op) ∧
  (∀ (s : State) (d : Byte), d.extractLsb' 6 2 ≠ 0#2 →
    takeCommand (cmdWord 0x31#8 (pair 0x00#8 d)) s = .next (Claims.recorded s 0x02#8 0x31#8)) ∧
  (∀ op ∈ Claims.opcodesW ++ Claims.opcodesF, ∀ imm : Half, ∃ i, decode (cmdWord op imm) = .ok i)

/-- R106: the four ranges, each word outside its range raising OPERAND_RANGE and nothing else, and every other operand
value of every command being in range (CTRL_WR's own check is R105's). -/
def Obligations.OperandOutOfRangeRaisesOperandRange : Prop :=
  (∀ (s : State) (d : Byte), 1 < d.toNat →
    takeCommand (cmdWord 0x11#8 (pair 0x00#8 d)) s = .next (Claims.recorded s 0x03#8 0x11#8) ∧
    takeCommand (cmdWord 0x45#8 (pair 0x00#8 d)) s = .next (Claims.recorded s 0x03#8 0x45#8)) ∧
  (∀ (s : State) (f i : Byte), (∀ fld : Field, fieldOfCode f = some fld → fld.len < i.toNat) →
    takeCommand (cmdWord 0x52#8 (pair f i)) s = .next (Claims.recorded s 0x03#8 0x52#8)) ∧
  (∀ (s : State) (f i : Byte), (∀ fld : Field, fieldOfCode f = some fld → fld.len - 1 < i.toNat) →
    takeCommand (cmdWord 0x53#8 (pair f i)) s = .next (Claims.recorded s 0x03#8 0x53#8)) ∧
  (∀ f : Byte, fieldOfCode f = none ↔ 6 < f.toNat) ∧
  (∀ (s t : State) (w : Cmd), s.err = false → takeCommand w s = .next t → t.errCause = 0x03#8 → t.err = true →
    (∃ d : Byte, 1 < d.toNat ∧ (decode w = .ok (.crcBit d) ∨ decode w = .ok (.ringRd d))) ∨
    (∃ f i : Byte, (∀ fld : Field, fieldOfCode f = some fld → fld.len < i.toNat) ∧ decode w = .ok (.fixRd f i)) ∨
    (∃ f i : Byte, (∀ fld : Field, fieldOfCode f = some fld → fld.len - 1 < i.toNat) ∧ decode w = .ok (.tmpRd f i)))

/-- R352 with the order of R107: a word that fails a check changes the error record and nothing else, and the record only if
no error is recorded yet; `ERROP` is the word's opcode byte and the cause the code of the first check that fails. -/
def Obligations.RejectedWordChangesOnlyTheErrorRecord : Prop :=
  ∀ (w : Cmd) (s : State),
    (∀ i, decode w = .ok i → i.wellFormed = false) →
    ∃ code : Byte,
      (code = 0x01#8 ↔ opField w ∉ Claims.opcodes) ∧
      (code = 0x02#8 ↔ (opField w ∈ Claims.opcodesN ∧ immField w ≠ 0) ∨ (opField w ∈ Claims.opcodesB ∧ immHigh w ≠ 0) ∨
        (opField w = 0x31#8 ∧ (immLow w).extractLsb' 6 2 ≠ 0#2)) ∧
      (code = 0x01#8 ∨ code = 0x02#8 ∨ code = 0x03#8) ∧
      takeCommand w s =
        .next (if s.err = true then s else { s with err := true, errCause := code, errOp := w.extractLsb' 16 8 })

/-- R107: a command that passes every check executes: it answers a next state and records no error. -/
def Obligations.WellFormedCommandCompletesWithoutError : Prop :=
  ∀ (i : Instr) (s : State), i.wellFormed = true →
    ∃ t, exec i s = .next t ∧
      (i ≠ .errClr → t.err = s.err ∧ t.errCause = s.errCause ∧ t.errOp = s.errOp)

/-! ### The step and the command port -/

/-- A step is the turn of the agenda's next agent; when that is the controller and `BUSY = 0`, the step takes the word on the
port, whatever the word (R107, R108, R352), with the word and the turn consumed, and where the word decodes to `i` it is
`exec i`; the same in the model's default order, and for a word placed by `withFetchWord`. The agenda, the default order and
the placing of a word are the model's choices (logs 3, 4, 6). -/
def Obligations.StepRunsTheDecodedCommand : Prop :=
  (∀ (s : State) (m : Move) (ms : List Move), s.agenda = m :: ms → step s = runMove m { s with agenda := ms }) ∧
  (∀ (s : State) (w : Cmd) (ws : List Cmd), s.busy = false → s.cmds = w :: ws →
    (∀ ms, s.agenda = .controller :: ms → step s = takeCommand w { s with cmds := ws, agenda := ms }) ∧
    (s.agenda = [] → step s = takeCommand w { s with cmds := ws })) ∧
  (∀ (s : State) (w : Cmd) (ws : List Cmd) (i : Instr), s.busy = false → s.cmds = w :: ws → decode w = .ok i →
    (∀ ms, s.agenda = .controller :: ms → step s = exec i { s with cmds := ws, agenda := ms }) ∧
    (s.agenda = [] → step s = exec i { s with cmds := ws })) ∧
  (∀ (s : State) (i : Instr),
    step (s.withFetchWord 24 (encode i).toNat) = exec i { s with busy := false, encJob := .none, dlFlag := false })

/-- R108: a word leaves the port only in a step of the controller's with `BUSY = 0`, one at a time and in order, whatever the
other agents do (the port is the model's list `cmds`, log 6). -/
def Obligations.WordTakenOnlyWhileReady : Prop :=
  ∀ s t : State, step s = .next t →
    t.cmds = s.cmds ∨ (s.busy = false ∧ s.turn = .controller ∧ ∃ w, s.cmds = w :: t.cmds)

/-- The turn of an agent whose step is not enabled (10_state.md R30) changes nothing (the model's choice, log 5): the controller
while `BUSY = 1`, whatever the word on the port; the sequencer while `BUSY = 0` or `DLFLAG = 1`; the feeder while `BUSY = 0`,
`DLFLAG = 0` or nothing is unread; the transmit-empty event while `TXACT = 0`. -/
def Obligations.DisabledTurnsChangeNothing : Prop :=
  ∀ s : State,
    (s.busy = true → runMove .controller s = .next s) ∧
    (s.busy = false ∨ s.dlFlag = true → runMove .sequencer s = .next s) ∧
    (s.busy = false ∨ s.dlFlag = false ∨ s.rx.contents = [] → runMove .feeder s = .next s) ∧
    (s.txAct = false → runMove .txEmpty s = .next s)

/-! ### Reset and the invariant -/

/-- R391, and the outputs of R392, which the spec derives from R390 and R31: the state after reset, register by register; the spec gives the ring storage no value, so
nothing is said of it. -/
def Obligations.ResetStateHoldsTheSpecValues : Prop :=
  ∀ s : State, s = State.reset →
    s.rx.head = 0 ∧ s.rx.tail = 0 ∧ s.tx.head = 0 ∧ s.tx.tail = 0 ∧ s.rx.ovf = 0 ∧ s.tx.ovf = 0 ∧ s.txAct = false ∧
    s.stype = .none ∧ s.comma = 0xFF#8 ∧ s.cidx = 0 ∧
    (∀ (f : Field) (k : Nat) (h : k < f.len), (s.tmp.get f)[k] = 0) ∧
    (∀ (f : Field) (k : Nat) (h : k < f.len + 1), (s.fix.get f)[k] = 0) ∧
    s.crc = 0xFFFF#16 ∧ s.ones = 0 ∧ s.frmAct = false ∧ s.busy = false ∧ s.encJob = .none ∧ s.encByte = 0 ∧
    s.encCrcEn = false ∧ s.encBit = 8 ∧ s.encStuff = false ∧ s.encFlagsLeft = 0 ∧ s.encEndStage = 0 ∧
    s.ctrl = 0 ∧ s.dlFlag = false ∧ s.dlCount = s.cfg.idleTimeout ∧ s.smpCount = s.cfg.reloadMark ∧
    s.waveIdx = 0 ∧ s.dac = 0 ∧ s.res = 0 ∧ s.err = false ∧ s.errCause = 0 ∧ s.errOp = 0 ∧
    s.outputs = { cmdReady := true, busy := false, res := 0, dac := 0, ptt := false, led := false }

/-- R390: the reset event gives every register its reset value and does not write the ring storage. -/
def Obligations.ResetEventRestoresTheResetValues : Prop :=
  ∀ s : State,
    ∃ t, runMove .reset s = .next t ∧ t.rx.buf = s.rx.buf ∧ t.tx.buf = s.tx.buf ∧
      t.rx.head = 0 ∧ t.rx.tail = 0 ∧ t.tx.head = 0 ∧ t.tx.tail = 0 ∧ t.rx.ovf = 0 ∧ t.tx.ovf = 0 ∧ t.txAct = false ∧
      t.stype = .none ∧ t.comma = 0xFF#8 ∧ t.cidx = 0 ∧
      (∀ (f : Field) (k : Nat) (h : k < f.len), (t.tmp.get f)[k] = 0) ∧
      (∀ (f : Field) (k : Nat) (h : k < f.len + 1), (t.fix.get f)[k] = 0) ∧
      t.crc = 0xFFFF#16 ∧ t.ones = 0 ∧ t.frmAct = false ∧ t.busy = false ∧ t.encJob = .none ∧ t.encByte = 0 ∧
      t.encCrcEn = false ∧ t.encBit = 8 ∧ t.encStuff = false ∧ t.encFlagsLeft = 0 ∧ t.encEndStage = 0 ∧
      t.ctrl = 0 ∧ t.dlFlag = false ∧ t.dlCount = s.cfg.idleTimeout ∧ t.smpCount = s.cfg.reloadMark ∧
      t.waveIdx = 0 ∧ t.dac = 0 ∧ t.res = 0 ∧ t.err = false ∧ t.errCause = 0 ∧ t.errOp = 0

/-- The invariant holds after reset, for the block's own parameters and for any legal ones. -/
def Obligations.ResetMeetsTheInvariant : Prop :=
  State.reset.Inv ∧ ∀ p : Config.Params, p.legal = true → (State.powerOn p).Inv

/-- Every step of every agent keeps the invariant. -/
def Obligations.EveryStepKeepsTheInvariant : Prop :=
  ∀ s t : State, s.Inv → step s = .next t → t.Inv

/-- R69: the derived invariants hold in every reachable state, for any words and any order of the agents. -/
def Obligations.ReachableStatesMeetTheDerivedInvariants : Prop :=
  ∀ s : State, s.Reachable →
    s.ones.toNat ≤ 5 ∧ s.encBit.val ≤ 8 ∧
    s.rx.head.val ≤ 95 ∧ s.rx.tail.val ≤ 95 ∧ s.tx.head.val ≤ 95 ∧ s.tx.tail.val ≤ 95 ∧
    (s.busy = false → s.dlFlag = false ∧ s.encJob = .none) ∧
    (s.txAct = false → s.tx.head = s.tx.tail) ∧
    (∀ f : Field, (s.fix.get f)[f.len] = 0x00#8)

/-- R363: in a state that meets the invariant every step has a defined outcome; and the only stop there is, from any
state, is the encoder step that meets `ONES > 5`: a fault by the model's choice, which R363 allows (log 8). -/
def Obligations.InvariantStatesNeverStop : Prop :=
  (∀ s : State, s.Inv → ∃ t, step s = .next t) ∧
  (∀ s : State, (∀ t, step s ≠ .next t) →
    s.turn = .sequencer ∧ 5 < s.ones.toNat ∧ step s = .fault .onesOutOfRange)

/-! ### System commands -/

/-- R330 to R333 (with the STATUS layout of R70): effect, frame and reserved bits of the four system commands. -/
def Obligations.SystemCommandsFollowTheirRules : Prop :=
  (∀ s : State,
    exec .nop s = .next s ∧
    (∃ v : Half, exec .statRd s = .next { s with res := v } ∧
      v.getLsbD 0 = decide (s.rx.head ≠ s.rx.tail) ∧ v.getLsbD 1 = s.txAct ∧ v.getLsbD 2 = s.frmAct ∧
      v.getLsbD 3 = s.err ∧
      v.extractLsb' 4 2 = (match s.stype with | .none => 0#2 | .gprmc => 1#2 | .gpgga => 2#2 | .ignored => 3#2) ∧
      v.getLsbD 6 = decide (s.tx.head ≠ s.tx.tail) ∧ v.extractLsb' 7 9 = 0#9) ∧
    (∃ v : Half, exec .errRd s = .next { s with res := v } ∧ v.extractLsb' 8 8 = s.errOp ∧
      v.extractLsb' 0 8 = s.errCause ∧ (s.Inv → s.err = false → v = 0)) ∧
    exec .errClr s = .next { s with err := false, errCause := 0x00#8, errOp := 0x00#8 }) ∧
  decode 0x000000#24 = .ok .nop ∧ Claims.rejectsImm 0x00#8 ∧ Claims.rejectsImm 0x01#8 ∧ Claims.rejectsImm 0x02#8 ∧ Claims.rejectsImm 0x03#8

/-! ### CRC-16 generator -/

/-- R230 to R235: effect, frame and errors of the six CRC commands; the byte command as the eight steps of R221, the least
significant bit first. -/
def Obligations.CrcCommandsFollowTheirRules : Prop :=
  (∀ s : State,
    exec .crcInit s = .next { s with crc := 0xFFFF#16 } ∧
    (∀ bit : Bool, exec (.crcBit (if bit then 1#8 else 0#8)) s =
      .next { s with crc := Claims.crcStepOf s.crc bit }) ∧
    (∀ (d : Byte) (c : Nat → Half), c 0 = s.crc → (∀ k, k < 8 → c (k + 1) = Claims.crcStepOf (c k) (d.getLsbD k)) →
      exec (.crcByte d) s = .next { s with crc := c 8 }) ∧
    exec .crcRd s = .next { s with res := s.crc } ∧
    exec .crcFcs s = .next { s with res := ~~~s.crc } ∧
    (∀ w : Half, exec (.crcWr w) s = .next { s with crc := w }) ∧
    (∀ d : Byte, 1 < d.toNat → exec (.crcBit d) s = .next (Claims.recorded s 0x03#8 0x11#8))) ∧
  Claims.rejectsImm 0x10#8 ∧ Claims.rejectsHigh 0x11#8 ∧ Claims.rejectsHigh 0x12#8 ∧ Claims.rejectsImm 0x13#8 ∧
  Claims.rejectsImm 0x14#8

/-- R222: the bit-serial recurrence equals its table form, for every accumulator and byte, with the listed entries. -/
def Obligations.CrcByteEqualsTableForm : Prop :=
  (∀ (c : Half) (d : Byte),
    crcByte c d = (c >>> 8) ^^^ crcByte 0x0000#16 (((c ^^^ d.zeroExtend 16) &&& 0xFF#16).truncate 8)) ∧
  crcTable 0x00#8 = 0x0000#16 ∧ crcTable 0x01#8 = 0x1189#16 ∧ crcTable 0x02#8 = 0x2312#16 ∧
  crcTable 0x7E#8 = 0x9AF9#16 ∧ crcTable 0x80#8 = 0x8408#16 ∧ crcTable 0xFF#8 = 0x0F78#16

/-- R224: a message followed by its FCS, low byte first, leaves the residue 0xF0B8. -/
def Obligations.FcsResidueIsConstant : Prop :=
  ∀ m : List Byte, crcBytes 0xFFFF#16 (m ++ [(fcs m).extractLsb' 0 8, (fcs m).extractLsb' 8 8]) = 0xF0B8#16

/-- R223: CRC_INIT, CRC_BYTE of each byte, CRC_FCS leave the folded CRC in `CRC` and its complement in `RES`, and
nothing else changed; the check string gives 0x6F91 and 0x906E. -/
def Obligations.CrcCommandSequenceComputesTheFcs : Prop :=
  (∀ (m : List Byte) (s : State),
    execAll (.crcInit :: crcStr m ++ [.crcFcs]) s =
      .next { s with crc := crcBytes 0xFFFF#16 m, res := crcBytes 0xFFFF#16 m ^^^ 0xFFFF#16 }) ∧
  (∀ m : List Byte, fcs m = crcBytes 0xFFFF#16 m ^^^ 0xFFFF#16) ∧
  crcBytes 0xFFFF#16 (Claims.ascii "123456789") = 0x6F91#16 ∧ fcs (Claims.ascii "123456789") = 0x906E#16

/-! ### Frame encoder -/

/-- The steps that take FRM_START, FRM_BYTE and FRM_END (R270 to R272): what each sets, and nothing else. -/
def Obligations.FrameCommandsStartTheirJobs : Prop :=
  (∀ (s : State) (w : Half), ∃ t, exec (.frmStart w) s = .next t ∧
    t = { s with crc := 0xFFFF#16, ones := 0, ctrl := t.ctrl,
                 smpCount := (if s.txen = true then s.smpCount else s.cfg.reloadMark),
                 frmAct := true, encJob := .flags, encFlagsLeft := w, encBit := 8, encStuff := false, busy := true } ∧
    t.txen = true ∧ t.tone = false ∧ t.ptt = true ∧ t.ctrl.extractLsb' 3 5 = s.ctrl.extractLsb' 3 5) ∧
  (∀ (s : State) (d : Byte), exec (.frmByte d) s =
    .next { s with encJob := .byte, encByte := d, encCrcEn := decide (d ≠ 0x7E#8), encBit := 0, encStuff := false,
                   busy := true }) ∧
  (∀ s : State, exec .frmEnd s =
    .next { s with crc := ~~~s.crc, encJob := .frameEnd, encEndStage := 0, encBit := 8, encStuff := false, busy := true }) ∧
  Claims.rejectsHigh 0x21#8 ∧ Claims.rejectsImm 0x22#8

/-- R258: the encoder steps of one byte are `send_byte` of that byte (R256): same `CRC`, `TONE`, `ONES` and symbols, in 8
periods and one more for each stuffed zero (at most two, none for a flag), nothing else of the block changed. -/
def Obligations.EncoderStepsCarryOutTheByteProcedure : Prop :=
  ∀ s : State, s.ones.toNat ≤ 4 → s.encBit = 0 → s.encStuff = false →
    ∃ (n : Nat) (t : State), bitPeriods n s = .next t ∧ 8 ≤ n ∧ n ≤ 10 ∧ (s.encByte = 0x7E#8 → n = 8) ∧
      t.line = s.line.sendByte s.encByte s.encCrcEn ∧ t.lineTrace.length = s.lineTrace.length + n ∧
      t = { s with crc := t.crc, ctrl := t.ctrl, ones := t.ones, encBit := 8, dlFlag := false,
                   dlCount := s.cfg.bitTicks, lineTrace := t.lineTrace } ∧
      t.ctrl.getLsbD 0 = s.ctrl.getLsbD 0 ∧ t.ctrl.extractLsb' 2 6 = s.ctrl.extractLsb' 2 6 ∧ t.ones.toNat ≤ 4

/-- R257, R259 with R84, and R300. The sequencer's enabled turn, in every state: an encoder step in the jobs FLAGS, BYTE and
END (R258), the end of the wait in the job WAIT. Then what the encoder step loads when a byte is done. A FLAGS job sends its count of flags, a BYTE job its
one byte, an END job the FCS low byte, the FCS high byte and a flag, none of them updating `CRC`; then the job ends, and
after END the transmitter, PTT and `FRMACT` are off. -/
def Obligations.EncoderLoadsTheBytesOfItsJob : Prop :=
  (∀ s : State, s.busy = true → s.dlFlag = false →
    (s.encJob = .flags ∨ s.encJob = .byte ∨ s.encJob = .frameEnd → runMove .sequencer s = encStep s) ∧
    (s.encJob = .wait → runMove .sequencer s = .next { s with encJob := .none, busy := false })) ∧
  ∀ s : State, s.ones.toNat ≤ 4 → s.encBit = 8 → s.encStuff = false →
    (s.encJob = .flags → s.encFlagsLeft ≠ 0 →
      encStep s = encStep { s with encFlagsLeft := s.encFlagsLeft - 1, encByte := 0x7E#8, encCrcEn := false, encBit := 0 }) ∧
    (s.encJob = .frameEnd → s.encEndStage = 0 →
      encStep s = encStep { s with encEndStage := 1, encByte := s.crc.extractLsb' 0 8, encCrcEn := false, encBit := 0 }) ∧
    (s.encJob = .frameEnd → s.encEndStage = 1 →
      encStep s = encStep { s with encEndStage := 2, encByte := s.crc.extractLsb' 8 8, encCrcEn := false, encBit := 0 }) ∧
    (s.encJob = .frameEnd → s.encEndStage = 2 →
      encStep s = encStep { s with encEndStage := 3, encByte := 0x7E#8, encCrcEn := false, encBit := 0 }) ∧
    (s.encJob = .byte ∨ (s.encJob = .flags ∧ s.encFlagsLeft = 0) →
      encStep s = .next { s with encJob := .none, busy := false }) ∧
    (s.encJob = .frameEnd → s.encEndStage = 3 → ∃ t, encStep s = .next t ∧
      t = { s with encJob := .none, busy := false, frmAct := false, ctrl := t.ctrl } ∧
      t.txen = false ∧ t.ptt = false ∧ t.tone = s.tone ∧ t.ctrl.extractLsb' 3 5 = s.ctrl.extractLsb' 3 5)

/-- R274: a flag byte sent with `TONE = t` produces seven periods of `~t` and one of `t`, leaves `TONE = t` and `ONES = 0`
whatever `ONES` was, and, sent as FRM_START, FRM_BYTE or FRM_END send it, does not touch `CRC`. -/
def Obligations.FlagByteSymbols : Prop :=
  ∀ l : Line, l.sendByte 0x7E#8 false =
    { l with ones := 0, symbols := l.symbols ++ [!l.tone, !l.tone, !l.tone, !l.tone, !l.tone, !l.tone, !l.tone, l.tone] } ∧
    l.sendPayload [0x7E#8] = l.sendByte 0x7E#8 false

/-- R273: in the line bits of non-flag bytes no more than six periods in a row keep the same tone. -/
def Obligations.StuffedLineKeepsNoToneSevenPeriods : Prop :=
  ∀ (l : Line) (m : List Byte) (crcEn : Bool), l.ones.toNat ≤ 4 → (∀ d ∈ m, d ≠ 0x7E#8) →
    ∃ new : List Bool, (m.foldl (fun l d => l.sendByte d crcEn) l).symbols = l.symbols ++ new ∧
      ∀ (pre post : List Bool) (x : Bool), new ≠ pre ++ List.replicate 7 x ++ post

/-- R251, R253: NRZI decoding and removal of the stuffed zeros give back exactly the bits of the bytes sent, least
significant bit first, from any tone and any run the line starts with. -/
def Obligations.ReceiverRecoversTheBytesSent : Prop :=
  ∀ (l : Line) (m : List Byte) (crcEn : Bool), l.ones.toNat ≤ 4 → (∀ d ∈ m, d ≠ 0x7E#8) →
    ∃ new : List Bool, (m.foldl (fun l d => l.sendByte d crcEn) l).symbols = l.symbols ++ new ∧
      unstuff l.ones.toNat (nrziDecode l.tone new) = m.flatMap lineBits

/-- R254 and R275 on the line coder: over a frame's payload `CRC` is folded over exactly the bytes whose value is not 0x7E, so
the FCS FRM_END forms from the seed is `fcs` of those bytes. -/
def Obligations.FrameFcsCoversTheNonFlagBytes : Prop :=
  ∀ (l : Line) (m : List Byte),
    (l.sendPayload m).crc = crcBytes l.crc (m.filter fun d => decide (d ≠ 0x7E#8)) ∧
    ∀ w : Nat, (l.frame w m).crc = fcs (m.filter fun d => decide (d ≠ 0x7E#8))

/-- A byte command runs to its end: in the model's default order (log 4) FRM_BYTE d, taken from any ready state that meets
the invariant, ends (R415: in the first state with no word left and `BUSY = 0`) with the line coder where `send_byte` (R256)
leaves it. -/
def Obligations.ByteCommandRunsToCompletion : Prop :=
  ∀ (s : State) (d : Byte), s.Inv → s.busy = false → s.agenda = [] → s.cmds = [encode (.frmByte d)] →
    ∃ (n : Nat) (t : State), s.RunEndsAt n t ∧ t.line = s.line.sendByte d (!isFlag d) ∧
      t.frmAct = s.frmAct ∧ t.res = s.res ∧ t.txTrace = s.txTrace ∧ t.fix = s.fix ∧ t.err = s.err

/-- The whole frame (R260): in the model's default order (log 4), FRM_START w, FRM_BYTE of each payload byte and FRM_END,
presented from any ready state that meets the invariant, end with `CRC` holding `fcs` of the payload's non-flag bytes, the line
symbols of `w` flags, the payload, the FCS low byte first and the trailing flag sent, and TXEN, PTT and FRMACT off. -/
def Obligations.WholeFrameIsSent : Prop :=
  ∀ (s : State) (w : Half) (m : List Byte), s.Inv → s.busy = false → s.agenda = [] →
    s.cmds = (Instr.frmStart w :: frmStr m ++ [Instr.frmEnd]).map encode →
    ∃ (n : Nat) (t : State), s.RunEndsAt n t ∧
      t.line = s.line.frame w.toNat m ∧ t.crc = fcs (m.filter fun d => decide (d ≠ 0x7E#8)) ∧
      t.txen = false ∧ t.ptt = false ∧ t.frmAct = false

/-- Every busy command ends: in the model's default order (log 4) a state that meets the invariant reaches `BUSY = 0`. -/
def Obligations.BusyCommandsEnd : Prop :=
  ∀ s : State, s.Inv → s.agenda = [] → ∃ (n : Nat) (t : State), steps n s = .next t ∧ t.busy = false ∧ t.cmds = s.cmds

/-! ### Bit clock -/

/-- R310, R311 and the taking step of R299: WAIT, CTRL_WR and CTRL_RD, with the reload of R296 and both reserved-bit errors. -/
def Obligations.ClockCommandsFollowTheirRules : Prop :=
  (∀ (s : State) (w : Half), exec (.wait w) s = .next { s with busy := true, encJob := .wait, dlFlag := true, dlCount := w }) ∧
  (∀ (s : State) (d : Byte), d.extractLsb' 6 2 = 0#2 →
    exec (.ctrlWr d) s = .next { s with ctrl := d, smpCount :=
      (if s.ctrl.getLsbD 0 = false ∧ d.getLsbD 0 = true then
        (if d.getLsbD 1 = true then s.cfg.reloadSpace else s.cfg.reloadMark) else s.smpCount) }) ∧
  (∀ (s : State) (d : Byte), d.extractLsb' 6 2 ≠ 0#2 →
    exec (.ctrlWr d) s = .next (Claims.recorded s 0x02#8 0x31#8)) ∧
  (∀ s : State, ∃ v : Half, exec .ctrlRd s = .next { s with res := v } ∧ v.extractLsb' 0 8 = s.ctrl ∧
    v.extractLsb' 8 8 = 0#8 ∧ (s.Inv → v.extractLsb' 6 2 = 0#2)) ∧
  Claims.rejectsHigh 0x31#8 ∧ Claims.rejectsImm 0x32#8

/-- R295: the base tick, both counters, and nothing else changed. -/
def Obligations.TickFollowsItsRule : Prop :=
  ∀ s : State, ∃ t, runMove .tick s = .next t ∧
    t = { s with dlFlag := t.dlFlag, dlCount := t.dlCount, smpCount := t.smpCount, waveIdx := t.waveIdx,
                 dac := t.dac, dacTrace := t.dacTrace } ∧
    (s.dlCount.toNat ≤ 1 → t.dlFlag = false ∧ t.dlCount = s.cfg.idleTimeout) ∧
    (1 < s.dlCount.toNat → t.dlFlag = s.dlFlag ∧ t.dlCount.toNat = s.dlCount.toNat - 1) ∧
    (s.txen = true → s.smpCount.toNat ≤ 1 →
      t.waveIdx.toNat = (s.waveIdx.toNat + 1) % 16 ∧ some t.dac = s.cfg.wave[t.waveIdx.toNat]? ∧
      t.smpCount = (if s.tone = true then s.cfg.reloadSpace else s.cfg.reloadMark) ∧ t.dacTrace = s.dacTrace ++ [t.dac]) ∧
    (s.txen = true → 1 < s.smpCount.toNat →
      t.smpCount.toNat = s.smpCount.toNat - 1 ∧ t.waveIdx = s.waveIdx ∧ t.dac = s.dac ∧ t.dacTrace = s.dacTrace) ∧
    (s.txen = false →
      t.smpCount = s.smpCount ∧ t.waveIdx = s.waveIdx ∧ t.dac = s.dac ∧ t.dacTrace = s.dacTrace)

/-- R292: each timer counter, loaded with `n`, expires on the `n`-th base tick, and on the first if `n = 0`: the deadline
counter clears `DLFLAG` then and not before, the sample counter (while `TXEN = 1`) brings the next sample then and not
before. -/
def Obligations.CountersExpireOnTheirTick : Prop :=
  ∀ s : State,
    (∀ k : Nat, k < max s.dlCount.toNat 1 → (ticks k s).dlFlag = s.dlFlag ∧
      (ticks k s).dlCount.toNat = s.dlCount.toNat - k) ∧
    (ticks (max s.dlCount.toNat 1) s).dlFlag = false ∧
    (ticks (max s.dlCount.toNat 1) s).dlCount = s.cfg.idleTimeout ∧
    (s.txen = true →
      (∀ k : Nat, k < max s.smpCount.toNat 1 → (ticks k s).dacTrace = s.dacTrace ∧
        (ticks k s).smpCount.toNat = s.smpCount.toNat - k) ∧
      (ticks (max s.smpCount.toNat 1) s).dacTrace =
        s.dacTrace ++ [s.cfg.wave[(s.waveIdx.toNat + 1) % 16]'(Nat.mod_lt _ (by decide))] ∧
      (ticks (max s.smpCount.toNat 1) s).smpCount = reload s.cfg s.tone)

/-- R299, R300 with R292: WAIT w holds the block busy through `max w 1` base ticks and is over with the end-of-wait step after
them; it changes none of `CTRL`, the CRC, the rings, the fields, `RES` and the line. -/
def Obligations.WaitTakesItsTicks : Prop :=
  ∀ (s : State) (w : Half) (ws : List Cmd) (ms : List Move), s.busy = false → s.cmds = encode (.wait w) :: ws →
    s.agenda = .controller :: List.replicate (max w.toNat 1) .tick ++ .sequencer :: ms →
    (∀ k : Nat, k < max w.toNat 1 → ∃ t, steps (1 + k) s = .next t ∧ t.busy = true ∧ t.dlFlag = true ∧ t.encJob = .wait) ∧
    ∃ t, steps (max w.toNat 1 + 2) s = .next t ∧ t.cmds = ws ∧ t.agenda = ms ∧ t.busy = false ∧ t.encJob = .none ∧
      t.dlFlag = false ∧ t.dlCount = s.cfg.idleTimeout ∧ t.ctrl = s.ctrl ∧ t.crc = s.crc ∧ t.rx = s.rx ∧ t.tx = s.tx ∧
      t.txAct = s.txAct ∧ t.tmp = s.tmp ∧ t.fix = s.fix ∧ t.stype = s.stype ∧ t.comma = s.comma ∧ t.cidx = s.cidx ∧
      t.ones = s.ones ∧ t.frmAct = s.frmAct ∧ t.res = s.res ∧ t.err = s.err ∧ t.lineTrace = s.lineTrace ∧
      t.txTrace = s.txTrace

/-- R297: while `TXEN = 1` and `TONE` stays `t`, `DAC` takes the next entry of `WAVE` once every `reload(t)` base ticks,
cycling through all 16 entries. -/
def Obligations.SamplesCycleThroughTheWaveform : Prop :=
  ∀ (s : State) (n : Nat), s.txen = true → s.cfg.legal = true → s.smpCount = reload s.cfg s.tone →
    (ticks (n * (reload s.cfg s.tone).toNat) s).dacTrace =
      s.dacTrace ++ (List.range n).map (fun k => s.cfg.wave[(s.waveIdx.toNat + 1 + k) % 16]'(Nat.mod_lt _ (by decide))) ∧
    (ticks (n * (reload s.cfg s.tone).toNat) s).waveIdx.toNat = (s.waveIdx.toNat + n) % 16 ∧
    (ticks (n * (reload s.cfg s.tone).toNat) s).smpCount = reload s.cfg s.tone ∧
    ∀ j : Nat, j < (reload s.cfg s.tone).toNat →
      (ticks (n * (reload s.cfg s.tone).toNat + j) s).dacTrace = (ticks (n * (reload s.cfg s.tone).toNat) s).dacTrace

/-- R296: any step that changes `TXEN` from 0 to 1 also sets `SMP_COUNT` to `reload(TONE)`, with `TONE` as the step leaves it; a
command that leaves `TXEN = 1` where it was 1 does not touch `SMP_COUNT`; the first sample after an enable comes `reload(TONE)`
base ticks later (`TONE` staying as it is). -/
def Obligations.TransmitterEnableReloadsTheSampleCounter : Prop :=
  (∀ s t : State, step s = .next t → s.txen = false → t.txen = true → t.smpCount = reload t.cfg t.tone) ∧
  (∀ (i : Instr) (s t : State), exec i s = .next t → s.txen = true → t.smpCount = s.smpCount) ∧
  (∀ s t : State, step s = .next t → s.txen = false → t.txen = true → t.cfg.legal = true →
    ∀ k : Nat, k ≤ (reload t.cfg t.tone).toNat →
      (ticks k t).dacTrace.length = t.dacTrace.length + (if k = (reload t.cfg t.tone).toNat then 1 else 0))

/-! ### Serial link -/

/-- R150, R151: the two polls, on an empty ring and on a ring with unread bytes, everything else unchanged. -/
def Obligations.PollsFollowTheirRules : Prop :=
  (∀ s : State,
    (s.rx.contents = [] → exec .rxPoll s = .next { s with res := 0x0000#16 } ∧
      exec .rxPollFeed s = .next { s with res := 0x0000#16 }) ∧
    (∀ (b : Byte) (bs : List Byte), s.rx.contents = b :: bs → ∃ r : Ring,
      r.contents = bs ∧ r.head = s.rx.head ∧ r.buf = s.rx.buf ∧ r.ovf = s.rx.ovf ∧
      r.tail.val = (s.rx.tail.val + 1) % 96 ∧
      exec .rxPoll s = .next { s with res := 0x0100#16 ||| b.zeroExtend 16, rx := r } ∧
      exec .rxPollFeed s = .next (({ s with res := 0x0100#16 ||| b.zeroExtend 16, rx := r } : State).feed b))) ∧
  Claims.rejectsImm 0x40#8 ∧ Claims.rejectsImm 0x41#8

/-- R152: TX_ENQ on an idle transmitter outputs its byte at once and leaves the ring empty; on a busy one the byte waits, or the
ring overflows as its mode says; everything else unchanged. The premise on an idle transmitter is R147. -/
def Obligations.EnqueueFollowsItsRule : Prop :=
  (∀ (s : State) (d : Byte), (s.txAct = false → s.tx.head = s.tx.tail) → ∃ t, exec (.txEnq d) s = .next t ∧
    t = { s with tx := t.tx, txAct := true, txTrace := t.txTrace } ∧
    (s.tx.count < 95 ∨ s.txovm = false → t.tx.buf = s.tx.buf.set s.tx.head.val d s.tx.head.isLt) ∧
    (s.txAct = false → t.txTrace = s.txTrace ++ [d] ∧ t.tx.contents = [] ∧ t.tx.ovf = s.tx.ovf ∧
      t.tx.head.val = (s.tx.head.val + 1) % 96) ∧
    (s.txAct = true → t.txTrace = s.txTrace ∧ t.tx.tail = s.tx.tail ∧
      (s.tx.count < 95 → t.tx.contents = s.tx.contents ++ [d] ∧ t.tx.ovf = s.tx.ovf) ∧
      (s.tx.count = 95 → s.txovm = false → t.tx.contents = [] ∧ t.tx.ovf = s.tx.ovf) ∧
      (s.tx.count = 95 → s.txovm = true → t.tx = { s.tx with ovf := t.tx.ovf } ∧
        t.tx.ovf.toNat = min (s.tx.ovf.toNat + 1) 255))) ∧
  Claims.rejectsHigh 0x42#8

/-- R153 to R155: OVF_RD, OVF_CLR and RING_RD, everything else unchanged; a push while the overflow mode is 0 counts nothing. -/
def Obligations.RingReadbackFollowsItsRules : Prop :=
  (∀ s : State,
    (∃ v : Half, exec .ovfRd s = .next { s with res := v } ∧ v.extractLsb' 8 8 = s.tx.ovf ∧ v.extractLsb' 0 8 = s.rx.ovf) ∧
    exec .ovfClr s = .next { s with rx := { s.rx with ovf := 0 }, tx := { s.tx with ovf := 0 } } ∧
    (∃ v : Half, exec (.ringRd 0#8) s = .next { s with res := v } ∧
      (v.extractLsb' 8 8).toNat = s.rx.head.val ∧ (v.extractLsb' 0 8).toNat = s.rx.tail.val ∧
      s.rx.count = ((v.extractLsb' 8 8).toNat + 96 - (v.extractLsb' 0 8).toNat) % 96) ∧
    (∃ v : Half, exec (.ringRd 1#8) s = .next { s with res := v } ∧
      (v.extractLsb' 8 8).toNat = s.tx.head.val ∧ (v.extractLsb' 0 8).toNat = s.tx.tail.val ∧
      s.tx.count = ((v.extractLsb' 8 8).toNat + 96 - (v.extractLsb' 0 8).toNat) % 96) ∧
    (∀ d : Byte, 1 < d.toNat → exec (.ringRd d) s = .next (Claims.recorded s 0x03#8 0x45#8))) ∧
  (∀ (r : Ring) (b : Byte), (r.push false b).ovf = r.ovf) ∧
  Claims.rejectsImm 0x43#8 ∧ Claims.rejectsImm 0x44#8 ∧ Claims.rejectsHigh 0x45#8

/-- R144: a received byte is appended to the receive ring, or the ring overflows as its mode says; nothing else changes. -/
def Obligations.ReceiveEventAppends : Prop :=
  ∀ (s : State) (b : Byte), ∃ t, runMove (.rxByte b) s = .next t ∧
    t = { s with rx := t.rx } ∧ t.rx.tail = s.rx.tail ∧
    (s.rx.count < 95 ∨ s.rxovm = false → t.rx.buf = s.rx.buf.set s.rx.head.val b s.rx.head.isLt) ∧
    (s.rx.count < 95 → t.rx.contents = s.rx.contents ++ [b] ∧ t.rx.ovf = s.rx.ovf ∧
      t.rx.head.val = (s.rx.head.val + 1) % 96) ∧
    (s.rx.count = 95 → s.rxovm = false → t.rx.contents = [] ∧ t.rx.ovf = s.rx.ovf ∧
      t.rx.head.val = (s.rx.head.val + 1) % 96) ∧
    (s.rx.count = 95 → s.rxovm = true → t.rx = { s.rx with ovf := t.rx.ovf } ∧
      t.rx.ovf.toNat = min (s.rx.ovf.toNat + 1) 255)

/-- R145: a transmit-empty event, while `TXACT = 1`, sends the oldest queued byte if there is one, else clears `TXACT`; nothing
else changes. -/
def Obligations.TransmitEmptyEventSendsTheOldest : Prop :=
  ∀ s : State, s.txAct = true →
    (s.tx.contents = [] → runMove .txEmpty s = .next { s with txAct := false }) ∧
    (∀ (v : Byte) (vs : List Byte), s.tx.contents = v :: vs → ∃ r : Ring,
      r.contents = vs ∧ r.head = s.tx.head ∧ r.buf = s.tx.buf ∧ r.ovf = s.tx.ovf ∧
      r.tail.val = (s.tx.tail.val + 1) % 96 ∧
      runMove .txEmpty s = .next { s with tx := r, txTrace := s.txTrace ++ [v] })

/-- R301: the wait-feeder, during a period or a wait, pops the oldest received byte and feeds it to the parser; it does not write
`RES`. (Its fairness is no property of one step, log 11.) -/
def Obligations.FeederFeedsTheOldestByte : Prop :=
  ∀ (s : State) (b : Byte) (bs : List Byte), s.busy = true → s.dlFlag = true → s.rx.contents = b :: bs →
    ∃ (r : Ring) (t : State), r.contents = bs ∧ r.head = s.rx.head ∧ r.buf = s.rx.buf ∧ r.ovf = s.rx.ovf ∧
      r.tail.val = (s.rx.tail.val + 1) % 96 ∧
      runMove .feeder s = .next t ∧ t = ({ s with rx := r } : State).feed b ∧ t.res = s.res

/-- R156: for any sequence of pushes and pops on one ring, from any ring, such that no push finds 95 unread bytes and no pop an
empty ring, the bytes popped and then those left are the bytes there were and then those pushed, in order; both modes alike. -/
def Obligations.RingIsFirstInFirstOut : Prop :=
  ∀ (mode : Bool) (ops : List (Option Byte)) (r r' : Ring) (pushed popped : List Byte),
    Claims.ringRun mode ops r = some (pushed, popped, r') →
    r.contents ++ pushed = popped ++ r'.contents ∧ Claims.ringRun (!mode) ops r = some (pushed, popped, r')

/-- R143 (the spec's own derivation from R140 to R142): a push in silent mode into a ring holding 95 unread bytes makes it
read as empty; after `95 + k` pushes in silent mode into an empty ring (`1 <= k <= 96`), `count` is `k - 1` and the visible
bytes are pushes number 97 to `95 + k`. -/
def Obligations.SilentOverflowKeepsTheNewest : Prop :=
  (∀ (r : Ring) (b : Byte), r.count = 95 →
    (r.push false b).head = (r.push false b).tail ∧ (r.push false b).contents = []) ∧
  ∀ (r : Ring) (bs : List Byte) (k : Nat), r.head = r.tail → 1 ≤ k → k ≤ 96 → bs.length = 95 + k →
    (Claims.pushAll r false bs).count = k - 1 ∧ (Claims.pushAll r false bs).contents = bs.drop 96

/-- R141, drop mode: pushes into a ring keep its unread bytes and append new ones only up to 95; the rest are dropped and
counted, the counter sticking at 255. -/
def Obligations.DropModeKeepsTheOldest : Prop :=
  ∀ (r : Ring) (bs : List Byte),
    (Claims.pushAll r true bs).contents = (r.contents ++ bs).take 95 ∧
    (Claims.pushAll r true bs).ovf.toNat = min (r.ovf.toNat + (r.count + bs.length - 95)) 255 ∧
    (Claims.pushAll r false bs).ovf = r.ovf

/-! ### Position decoder -/

/-- R182 with R181 and R189: one character, case by case, everything else unchanged. -/
def Obligations.FeedFollowsItsCases : Prop :=
  ∀ (s : State) (b : Byte),
    (b = 0x00#8 → s.feed b = { s with stype := .none, comma := 0xFF#8, cidx := 0#8 }) ∧
    (b = 0x24#8 → s.feed b = { s with stype := .none, comma := 0#8, cidx := 0#8 }) ∧
    (b = 0x2C#8 → ∃ c : Byte, s.feed b = { s with comma := c, cidx := 0#8 } ∧ c.toNat = min (s.comma.toNat + 1) 255) ∧
    (b ≠ 0x00#8 → b ≠ 0x24#8 → b ≠ 0x2C#8 → s.comma = 0#8 → ∃ ty : SentenceType, s.feed b = { s with stype := ty } ∧
      (b = 0x53#8 → ty = .ignored) ∧ (b = 0x43#8 → ty = .gprmc) ∧
      (b = 0x41#8 → s.stype = .ignored → ty = .ignored) ∧ (b = 0x41#8 → s.stype ≠ .ignored → ty = .gpgga) ∧
      (b ≠ 0x53#8 → b ≠ 0x43#8 → b ≠ 0x41#8 → ty = s.stype)) ∧
    (b ≠ 0x00#8 → b ≠ 0x24#8 → b ≠ 0x2C#8 → s.comma ≠ 0#8 →
      ((∀ fld : Field, (s.stype, s.comma, fld) ∉ Claims.routing) → s.feed b = s) ∧
      (∀ fld : Field, (s.stype, s.comma, fld) ∈ Claims.routing → ∃ (tmp : TempSet) (i : Byte),
        s.feed b = { s with tmp := tmp, cidx := i } ∧ i.toNat = min (s.cidx.toNat + 1) 255 ∧
        ∀ (g : Field) (k : Nat) (h : k < g.len),
          (tmp.get g)[k] = if g = fld ∧ k = s.cidx.toNat then b else (s.tmp.get g)[k]))

/-- R186: in the identity section the last `'S'` not followed by a `'C'` makes the sentence Ignored, the last `'C'` followed by no
`'S'` and no `'A'` makes it GPRMC, and the named identities have the types the rule gives them, from any
state; character by character, each sets the type as the rule says. -/
def Obligations.IdentitySectionSetsTheType : Prop :=
  (∀ (s : State) (pre post : List Byte), s.comma = 0#8 → (∀ b ∈ pre ++ post, b ≠ 0x00#8 ∧ b ≠ 0x24#8 ∧ b ≠ 0x2C#8) →
    ((∀ b ∈ post, b ≠ 0x43#8) → (Claims.feedAll s (pre ++ 0x53#8 :: post)).stype = .ignored) ∧
    ((∀ b ∈ post, b ≠ 0x53#8 ∧ b ≠ 0x41#8) → (Claims.feedAll s (pre ++ 0x43#8 :: post)).stype = .gprmc)) ∧
  (∀ s : State,
    (Claims.feedAll s (Claims.ascii "$GPGGA")).stype = .gpgga ∧ (Claims.feedAll s (Claims.ascii "$GPRMC")).stype = .gprmc ∧
    (Claims.feedAll s (Claims.ascii "$GPGSA")).stype = .ignored ∧ (Claims.feedAll s (Claims.ascii "$GPGSV")).stype = .ignored ∧
    (Claims.feedAll s (Claims.ascii "$GPVTG")).stype = .none ∧ (Claims.feedAll s (Claims.ascii "$GPGLL")).stype = .none ∧
    (Claims.feedAll s (Claims.ascii "$GPZDA")).stype = .gpgga) ∧
  (∀ (s : State) (b : Byte), s.comma = 0#8 → b ≠ 0x00#8 → b ≠ 0x24#8 → b ≠ 0x2C#8 →
    (s.feed b).stype =
      (if b = 0x53#8 then .ignored else if b = 0x43#8 then .gprmc
        else if b = 0x41#8 ∧ s.stype ≠ .ignored then .gpgga else s.stype))

/-- R183: after a NUL no byte is routed and no sniffing happens until the next `'$'`: whatever else arrives, the temp fields
stay, the comma count stays at the sentinel and the type stays None. -/
def Obligations.NulSilencesTheParserUntilTheNextStart : Prop :=
  ∀ (s : State) (bs : List Byte), (∀ b ∈ bs, b ≠ 0x24#8) →
    Claims.feedAll s (0x00#8 :: bs) = { s with stype := .none, comma := 0xFF#8, cidx := 0#8 }

/-- R187 to R189: the text of a routed section is stored from the field's first character on, as much of it as the field holds,
the rest of the field and every other field keeping their old characters. -/
def Obligations.RoutedTextIsStored : Prop :=
  ∀ (s : State) (fld : Field) (text : List Byte), (s.stype, s.comma, fld) ∈ Claims.routing → s.cidx = 0#8 →
    (∀ b ∈ text, b ≠ 0x00#8 ∧ b ≠ 0x24#8 ∧ b ≠ 0x2C#8) →
    ∃ (tmp : TempSet) (i : Byte), Claims.feedAll s text = { s with tmp := tmp, cidx := i } ∧
      i.toNat = min text.length 255 ∧
      ∀ (g : Field) (k : Nat) (h : k < g.len),
        (tmp.get g)[k] = if g = fld then (text[k]?).getD ((s.tmp.get g)[k]) else (s.tmp.get g)[k]

/-- R200 to R204: the five decoder commands, their frames and their errors; NMEA_COMMIT by R190. -/
def Obligations.PositionCommandsFollowTheirRules : Prop :=
  (∀ (s : State) (d : Byte), exec (.nmeaFeed d) s = .next (s.feed d)) ∧
  (∀ s : State, ∃ t, exec .nmeaCommit s = .next t ∧ t = { s with fix := t.fix } ∧
    ∀ f : Field, (t.fix.get f)[f.len] = 0x00#8 ∧
      ∀ (k : Nat) (h : k < f.len), (t.fix.get f)[k] = (s.tmp.get f)[k]) ∧
  (∀ (s : State) (f i : Byte) (fld : Field) (h : i.toNat ≤ fld.len), fieldOfCode f = some fld →
    exec (.fixRd f i) s = .next { s with res := ((s.fix.get fld)[i.toNat]'(by omega)).zeroExtend 16 }) ∧
  (∀ (s : State) (f i : Byte) (fld : Field) (h : i.toNat < fld.len), fieldOfCode f = some fld →
    exec (.tmpRd f i) s = .next { s with res := ((s.tmp.get fld)[i.toNat]'h).zeroExtend 16 }) ∧
  (∀ (s : State) (f i : Byte), (∀ fld : Field, fieldOfCode f = some fld → fld.len < i.toNat) →
    exec (.fixRd f i) s = .next (Claims.recorded s 0x03#8 0x52#8)) ∧
  (∀ (s : State) (f i : Byte), (∀ fld : Field, fieldOfCode f = some fld → fld.len - 1 < i.toNat) →
    exec (.tmpRd f i) s = .next (Claims.recorded s 0x03#8 0x53#8)) ∧
  (∀ (s : State) (fld : Field), s.Inv →
    exec (.fixRd (codeOfField fld) (BitVec.ofNat 8 fld.len)) s = .next { s with res := 0x0000#16 }) ∧
  (∀ s : State, ∃ v : Half, exec .curRd s = .next { s with res := v } ∧ v.extractLsb' 8 8 = s.comma ∧
    v.extractLsb' 0 8 = s.cidx) ∧
  Claims.rejectsHigh 0x50#8 ∧ Claims.rejectsImm 0x51#8 ∧ Claims.rejectsImm 0x54#8

/-- R193: two commits with no feed between them leave `FIX` the same, whatever other commands that touch neither set of fields come
between them, so every FIX_RD in range gives the same `RES` after either, whatever `RES` was, and one out of range
leaves `RES`. -/
def Obligations.CommitIsIdempotent : Prop :=
  ∀ s t u : State, exec .nmeaCommit s = .next t → u.tmp = t.tmp → u.fix = t.fix →
    exec .nmeaCommit u = .next u ∧
    ∀ f i : Byte, ∃ v w : State, exec (.fixRd f i) t = .next v ∧ exec (.fixRd f i) u = .next w ∧
      ((Instr.fixRd f i).wellFormed = true → v.res = w.res) ∧
      ((Instr.fixRd f i).wellFormed = false → v.res = t.res ∧ w.res = u.res)

/-! ### Rules of the whole machine -/

/-- R65: `RES` is written only by the twelve read commands, and by reset; every other command and every event leaves it. -/
def Obligations.ResultWrittenOnlyByReadCommands : Prop :=
  ∀ s t : State, step s = .next t →
    t.res = s.res ∨ (s.turn = .reset ∧ t.res = 0x0000#16) ∨ ∃ i, s.taken = some i ∧ Claims.isRead i = true

/-- R89: every read command but the two polls changes only `RES` and is idempotent, for every operand in range; the two polls
advance `RX_TAIL` when the ring is not empty. -/
def Obligations.ReadsAreIdempotent : Prop :=
  (∀ (s : State) (i : Instr), s.rx.head ≠ s.rx.tail → i = .rxPoll ∨ i = .rxPollFeed →
    ∃ t, exec i s = .next t ∧ t.rx.tail.val = (s.rx.tail.val + 1) % 96) ∧
  ∀ (i : Instr) (s : State), Claims.isRead i = true → i ≠ .rxPoll → i ≠ .rxPollFeed → i.wellFormed = true →
    ∃ v : Half, exec i s = .next { s with res := v } ∧ exec i { s with res := v } = .next { s with res := v }

/-- R191: the committed set changes only at a commit, and at reset. -/
def Obligations.CommittedSetChangesOnlyAtCommit : Prop :=
  ∀ s t : State, step s = .next t →
    t.fix = s.fix ∨ (s.turn = .reset ∧ t.fix = FixSet.zero) ∨ (s.taken = some .nmeaCommit ∧ t.fix = s.tmp.commit)

/-- R68: each cell that crosses the foreground/interrupt boundary is written by one side only, reset apart. -/
def Obligations.SharedCellsHaveOneWriter : Prop :=
  ∀ s t : State, step s = .next t → s.turn ≠ .reset →
    (s.dlFlag = true → t.dlFlag = false → s.turn = .tick) ∧
    (s.dlFlag = false → t.dlFlag = true → s.turn = .sequencer ∨ ∃ w, s.taken = some (.wait w)) ∧
    (t.txen ≠ s.txen ∨ t.tone ≠ s.tone → s.turn = .controller ∨ s.turn = .sequencer) ∧
    (t.rx.head ≠ s.rx.head → ∃ b, s.turn = .rxByte b) ∧
    (t.rx.tail ≠ s.rx.tail → s.turn = .feeder ∨ s.taken = some .rxPoll ∨ s.taken = some .rxPollFeed) ∧
    (t.tx.head ≠ s.tx.head → ∃ d, s.taken = some (.txEnq d)) ∧
    (t.tx.tail ≠ s.tx.tail → s.turn = .txEmpty ∨ ∃ d, s.taken = some (.txEnq d))

/-- R49: `CRC` is confined to the controller's side: only the named commands, an encoder step whose byte has CRC update enabled,
and reset write it; no UART, timer or feeder step does. -/
def Obligations.CrcConfinedToTheControllersSide : Prop :=
  ∀ s t : State, step s = .next t → t.crc ≠ s.crc →
    s.turn = .reset ∨ (s.turn = .sequencer ∧ s.encCrcEn = true ∧ t.crc = crcStep s.crc (s.encByte.getLsbD s.encBit.val)) ∨
    s.taken = some .crcInit ∨ (∃ d, s.taken = some (.crcBit d)) ∨ (∃ d, s.taken = some (.crcByte d)) ∨
    (∃ w, s.taken = some (.crcWr w)) ∨ (∃ w, s.taken = some (.frmStart w)) ∨ s.taken = some .frmEnd

/-- R32: the observable traces only grow, one entry a step: a `tx_load` by TX_ENQ or a transmit-empty event while `TXACT = 1`, a
line symbol (the new `TONE`) by the sequencer, a sample (the new `DAC`) by a tick while `TXEN = 1`; and PTT and LED change
only by the frame encoder, CTRL_WR and reset, LED not by the frame encoder (R58, R145, R146, R152, R259, R270, R295, R298,
R310, R311). That the traces are in State is log 7, and that no step writes the parameters log 2. -/
def Obligations.OutputsChangeOnlyByTheirAgents : Prop :=
  ∀ s t : State, step s = .next t →
    (t.txTrace = s.txTrace ∨ ∃ b, t.txTrace = s.txTrace ++ [b] ∧
      ((s.turn = .txEmpty ∧ s.txAct = true) ∨ ∃ d, s.taken = some (.txEnq d))) ∧
    (t.lineTrace = s.lineTrace ∨ (s.turn = .sequencer ∧ t.lineTrace = s.lineTrace ++ [t.tone] ∧ t.dlFlag = true)) ∧
    (t.dacTrace = s.dacTrace ∨ (s.turn = .tick ∧ s.txen = true ∧ t.dacTrace = s.dacTrace ++ [t.dac])) ∧
    (t.led = s.led ∨ s.turn = .reset ∨ ∃ d, s.taken = some (.ctrlWr d)) ∧
    (t.ptt = s.ptt ∨ s.turn = .reset ∨ (s.turn = .sequencer ∧ s.encJob = .frameEnd ∧ t.ptt = false) ∨
      (∃ w, s.taken = some (.frmStart w)) ∨ ∃ d, s.taken = some (.ctrlWr d)) ∧
    t.cfg = s.cfg

/-! ### Assembler -/

/-- R109, R110: for every mnemonic, by format, the assembler makes the command of operands that fit, a field code by number or
by name, refuses an operand that does not fit its field rather than truncating it, and leaves the block's range checks to the
block; FRM_ADDR expands to seven FRM_BYTE. Operands are the model's tokens (log 12). The byte layout of FRM_ADDR is presumed
(R110 marks it as from general knowledge) and the refusals of its operands are the model's choice (log 13). -/
def Obligations.AssemblerRefusesWhatDoesNotFit : Prop :=
  (∀ x ∈ Claims.mnemonicsN, assembleCore x.1 [] = some x.2) ∧
  (∀ x ∈ Claims.mnemonicsB, ∀ n : Nat, assembleCore x.1 [.num n] = if n < 256 then some (x.2 (BitVec.ofNat 8 n)) else none) ∧
  (∀ x ∈ Claims.mnemonicsW, ∀ n : Nat,
    assembleCore x.1 [.num n] = if n < 65536 then some (x.2 (BitVec.ofNat 16 n)) else none) ∧
  (∀ x ∈ Claims.mnemonicsF, ∀ i : Nat,
    (∀ f : Nat, assembleCore x.1 [.num f, .num i] =
      if f < 256 ∧ i < 256 then some (x.2 (BitVec.ofNat 8 f) (BitVec.ofNat 8 i)) else none) ∧
    (∀ nm ∈ Claims.fieldNames, assembleCore x.1 [.name nm.1, .num i] =
      if i < 256 then some (x.2 nm.2 (BitVec.ofNat 8 i)) else none) ∧
    (∀ nm : String, (∀ c, (nm, c) ∉ Claims.fieldNames) → assembleCore x.1 [.name nm, .num i] = none)) ∧
  (∀ (call : List Byte) (ssid last : Nat),
    (call.length ≤ 6 → ssid ≤ 15 → last ≤ 1 → ∃ l, frmAddr call ssid last = some l ∧ l.length = 7 ∧
      (∀ k, k < call.length → l[k]? = (call[k]?).map fun c => .frmByte (c <<< 1)) ∧
      (∀ k, call.length ≤ k → k < 6 → l[k]? = some (.frmByte 0x40#8)) ∧
      ∃ b : Byte, l[6]? = some (.frmByte b) ∧ b.toNat = 96 + 2 * ssid + last) ∧
    (6 < call.length ∨ 15 < ssid ∨ 1 < last → frmAddr call ssid last = none))
end

