-- ==== Sys2Proof/Laws/Encoding.lean ====
section
/-! SUPPORT. The fields of a command word put together and taken apart (30_encoding.md R100 to R102). -/

namespace Sys2Proof

theorem getLsbD_word (op : Byte) (imm : Half) (i : Nat) :
    (cmdWord op imm).getLsbD i = if i < 16 then imm.getLsbD i else op.getLsbD (i - 16) :=
  BitVec.getLsbD_append

theorem getLsbD_pair (hi lo : Byte) (i : Nat) :
    (pair hi lo).getLsbD i = if i < 8 then lo.getLsbD i else hi.getLsbD (i - 8) :=
  BitVec.getLsbD_append

@[simp] theorem opField_word (op : Byte) (imm : Half) : opField (cmdWord op imm) = op := by
  apply BitVec.eq_of_getLsbD_eq
  intro i hi
  simp only [opField, BitVec.getLsbD_extractLsb', getLsbD_word]
  simp [hi]

@[simp] theorem immField_word (op : Byte) (imm : Half) : immField (cmdWord op imm) = imm := by
  apply BitVec.eq_of_getLsbD_eq
  intro i hi
  simp only [immField, BitVec.getLsbD_extractLsb', getLsbD_word]
  simp [hi]

@[simp] theorem immHigh_word (op hi lo : Byte) : immHigh (cmdWord op (pair hi lo)) = hi := by
  apply BitVec.eq_of_getLsbD_eq
  intro i h
  simp only [immHigh, BitVec.getLsbD_extractLsb', getLsbD_word, getLsbD_pair]
  simp [h, show 8 + i < 16 by omega]

@[simp] theorem immLow_word (op hi lo : Byte) : immLow (cmdWord op (pair hi lo)) = lo := by
  apply BitVec.eq_of_getLsbD_eq
  intro i h
  simp only [immLow, BitVec.getLsbD_extractLsb', getLsbD_word, getLsbD_pair]
  simp [h, show i < 16 by omega]

@[simp] theorem high_pair (hi lo : Byte) : (pair hi lo).extractLsb' 8 8 = hi := by
  apply BitVec.eq_of_getLsbD_eq
  intro i h
  simp only [BitVec.getLsbD_extractLsb', getLsbD_pair]
  simp [h]

@[simp] theorem low_pair (hi lo : Byte) : (pair hi lo).extractLsb' 0 8 = lo := by
  apply BitVec.eq_of_getLsbD_eq
  intro i h
  simp only [BitVec.getLsbD_extractLsb', getLsbD_pair]
  simp [h]

/-- A word is its opcode byte followed by its operand field. -/
theorem word_parts (w : Cmd) : cmdWord (opField w) (immField w) = w := by
  apply BitVec.eq_of_getLsbD_eq
  intro i hi
  rw [getLsbD_word]
  simp only [opField, immField, BitVec.getLsbD_extractLsb']
  by_cases h : i < 16
  · simp [h]
  · have h1 : i - 16 < 8 := by omega
    have h2 : 16 + (i - 16) = i := by omega
    simp [h, h1, h2]

/-- An operand field is its two bytes. -/
theorem imm_parts (w : Cmd) : pair (immHigh w) (immLow w) = immField w := by
  apply BitVec.eq_of_getLsbD_eq
  intro i hi
  rw [getLsbD_pair]
  simp only [immField, immHigh, immLow, BitVec.getLsbD_extractLsb']
  by_cases h : i < 8
  · simp [h, hi]
  · have h1 : i - 8 < 8 := by omega
    have h2 : 8 + (i - 8) = i := by omega
    simp [h, h1, h2, hi]

end Sys2Proof
end

