-- ==== Sys2Proof/Laws/State.lean ====
section
/-! SUPPORT. One lemma per field per update of the state, so that no later proof unfolds a record update. Each says
what the update makes of that field; a field an update leaves alone reads as before. -/

namespace Sys2Proof.Machine

/-! `State.setRes` -/

@[simp] theorem State.setRes_cfg (s : State) (v : Half) : (s.setRes v).cfg = s.cfg := rfl
@[simp] theorem State.setRes_rx (s : State) (v : Half) : (s.setRes v).rx = s.rx := rfl
@[simp] theorem State.setRes_tx (s : State) (v : Half) : (s.setRes v).tx = s.tx := rfl
@[simp] theorem State.setRes_txAct (s : State) (v : Half) : (s.setRes v).txAct = s.txAct := rfl
@[simp] theorem State.setRes_stype (s : State) (v : Half) : (s.setRes v).stype = s.stype := rfl
@[simp] theorem State.setRes_comma (s : State) (v : Half) : (s.setRes v).comma = s.comma := rfl
@[simp] theorem State.setRes_cidx (s : State) (v : Half) : (s.setRes v).cidx = s.cidx := rfl
@[simp] theorem State.setRes_tmp (s : State) (v : Half) : (s.setRes v).tmp = s.tmp := rfl
@[simp] theorem State.setRes_fix (s : State) (v : Half) : (s.setRes v).fix = s.fix := rfl
@[simp] theorem State.setRes_crc (s : State) (v : Half) : (s.setRes v).crc = s.crc := rfl
@[simp] theorem State.setRes_ones (s : State) (v : Half) : (s.setRes v).ones = s.ones := rfl
@[simp] theorem State.setRes_frmAct (s : State) (v : Half) : (s.setRes v).frmAct = s.frmAct := rfl
@[simp] theorem State.setRes_busy (s : State) (v : Half) : (s.setRes v).busy = s.busy := rfl
@[simp] theorem State.setRes_encJob (s : State) (v : Half) : (s.setRes v).encJob = s.encJob := rfl
@[simp] theorem State.setRes_encByte (s : State) (v : Half) : (s.setRes v).encByte = s.encByte := rfl
@[simp] theorem State.setRes_encCrcEn (s : State) (v : Half) : (s.setRes v).encCrcEn = s.encCrcEn := rfl
@[simp] theorem State.setRes_encBit (s : State) (v : Half) : (s.setRes v).encBit = s.encBit := rfl
@[simp] theorem State.setRes_encStuff (s : State) (v : Half) : (s.setRes v).encStuff = s.encStuff := rfl
@[simp] theorem State.setRes_encFlagsLeft (s : State) (v : Half) : (s.setRes v).encFlagsLeft = s.encFlagsLeft := rfl
@[simp] theorem State.setRes_encEndStage (s : State) (v : Half) : (s.setRes v).encEndStage = s.encEndStage := rfl
@[simp] theorem State.setRes_ctrl (s : State) (v : Half) : (s.setRes v).ctrl = s.ctrl := rfl
@[simp] theorem State.setRes_dlFlag (s : State) (v : Half) : (s.setRes v).dlFlag = s.dlFlag := rfl
@[simp] theorem State.setRes_dlCount (s : State) (v : Half) : (s.setRes v).dlCount = s.dlCount := rfl
@[simp] theorem State.setRes_smpCount (s : State) (v : Half) : (s.setRes v).smpCount = s.smpCount := rfl
@[simp] theorem State.setRes_waveIdx (s : State) (v : Half) : (s.setRes v).waveIdx = s.waveIdx := rfl
@[simp] theorem State.setRes_dac (s : State) (v : Half) : (s.setRes v).dac = s.dac := rfl
@[simp] theorem State.setRes_res (s : State) (v : Half) : (s.setRes v).res = v := rfl
@[simp] theorem State.setRes_err (s : State) (v : Half) : (s.setRes v).err = s.err := rfl
@[simp] theorem State.setRes_errCause (s : State) (v : Half) : (s.setRes v).errCause = s.errCause := rfl
@[simp] theorem State.setRes_errOp (s : State) (v : Half) : (s.setRes v).errOp = s.errOp := rfl
@[simp] theorem State.setRes_txTrace (s : State) (v : Half) : (s.setRes v).txTrace = s.txTrace := rfl
@[simp] theorem State.setRes_lineTrace (s : State) (v : Half) : (s.setRes v).lineTrace = s.lineTrace := rfl
@[simp] theorem State.setRes_dacTrace (s : State) (v : Half) : (s.setRes v).dacTrace = s.dacTrace := rfl
@[simp] theorem State.setRes_cmds (s : State) (v : Half) : (s.setRes v).cmds = s.cmds := rfl
@[simp] theorem State.setRes_agenda (s : State) (v : Half) : (s.setRes v).agenda = s.agenda := rfl

/-! `State.setTxen` -/

@[simp] theorem State.setTxen_cfg (s : State) (v : Bool) : (s.setTxen v).cfg = s.cfg := rfl
@[simp] theorem State.setTxen_rx (s : State) (v : Bool) : (s.setTxen v).rx = s.rx := rfl
@[simp] theorem State.setTxen_tx (s : State) (v : Bool) : (s.setTxen v).tx = s.tx := rfl
@[simp] theorem State.setTxen_txAct (s : State) (v : Bool) : (s.setTxen v).txAct = s.txAct := rfl
@[simp] theorem State.setTxen_stype (s : State) (v : Bool) : (s.setTxen v).stype = s.stype := rfl
@[simp] theorem State.setTxen_comma (s : State) (v : Bool) : (s.setTxen v).comma = s.comma := rfl
@[simp] theorem State.setTxen_cidx (s : State) (v : Bool) : (s.setTxen v).cidx = s.cidx := rfl
@[simp] theorem State.setTxen_tmp (s : State) (v : Bool) : (s.setTxen v).tmp = s.tmp := rfl
@[simp] theorem State.setTxen_fix (s : State) (v : Bool) : (s.setTxen v).fix = s.fix := rfl
@[simp] theorem State.setTxen_crc (s : State) (v : Bool) : (s.setTxen v).crc = s.crc := rfl
@[simp] theorem State.setTxen_ones (s : State) (v : Bool) : (s.setTxen v).ones = s.ones := rfl
@[simp] theorem State.setTxen_frmAct (s : State) (v : Bool) : (s.setTxen v).frmAct = s.frmAct := rfl
@[simp] theorem State.setTxen_busy (s : State) (v : Bool) : (s.setTxen v).busy = s.busy := rfl
@[simp] theorem State.setTxen_encJob (s : State) (v : Bool) : (s.setTxen v).encJob = s.encJob := rfl
@[simp] theorem State.setTxen_encByte (s : State) (v : Bool) : (s.setTxen v).encByte = s.encByte := rfl
@[simp] theorem State.setTxen_encCrcEn (s : State) (v : Bool) : (s.setTxen v).encCrcEn = s.encCrcEn := rfl
@[simp] theorem State.setTxen_encBit (s : State) (v : Bool) : (s.setTxen v).encBit = s.encBit := rfl
@[simp] theorem State.setTxen_encStuff (s : State) (v : Bool) : (s.setTxen v).encStuff = s.encStuff := rfl
@[simp] theorem State.setTxen_encFlagsLeft (s : State) (v : Bool) : (s.setTxen v).encFlagsLeft = s.encFlagsLeft := rfl
@[simp] theorem State.setTxen_encEndStage (s : State) (v : Bool) : (s.setTxen v).encEndStage = s.encEndStage := rfl
@[simp] theorem State.setTxen_ctrl (s : State) (v : Bool) : (s.setTxen v).ctrl = setBit s.ctrl 0 v := rfl
@[simp] theorem State.setTxen_dlFlag (s : State) (v : Bool) : (s.setTxen v).dlFlag = s.dlFlag := rfl
@[simp] theorem State.setTxen_dlCount (s : State) (v : Bool) : (s.setTxen v).dlCount = s.dlCount := rfl
@[simp] theorem State.setTxen_smpCount (s : State) (v : Bool) : (s.setTxen v).smpCount = s.smpCount := rfl
@[simp] theorem State.setTxen_waveIdx (s : State) (v : Bool) : (s.setTxen v).waveIdx = s.waveIdx := rfl
@[simp] theorem State.setTxen_dac (s : State) (v : Bool) : (s.setTxen v).dac = s.dac := rfl
@[simp] theorem State.setTxen_res (s : State) (v : Bool) : (s.setTxen v).res = s.res := rfl
@[simp] theorem State.setTxen_err (s : State) (v : Bool) : (s.setTxen v).err = s.err := rfl
@[simp] theorem State.setTxen_errCause (s : State) (v : Bool) : (s.setTxen v).errCause = s.errCause := rfl
@[simp] theorem State.setTxen_errOp (s : State) (v : Bool) : (s.setTxen v).errOp = s.errOp := rfl
@[simp] theorem State.setTxen_txTrace (s : State) (v : Bool) : (s.setTxen v).txTrace = s.txTrace := rfl
@[simp] theorem State.setTxen_lineTrace (s : State) (v : Bool) : (s.setTxen v).lineTrace = s.lineTrace := rfl
@[simp] theorem State.setTxen_dacTrace (s : State) (v : Bool) : (s.setTxen v).dacTrace = s.dacTrace := rfl
@[simp] theorem State.setTxen_cmds (s : State) (v : Bool) : (s.setTxen v).cmds = s.cmds := rfl
@[simp] theorem State.setTxen_agenda (s : State) (v : Bool) : (s.setTxen v).agenda = s.agenda := rfl

/-! `State.setTone` -/

@[simp] theorem State.setTone_cfg (s : State) (v : Bool) : (s.setTone v).cfg = s.cfg := rfl
@[simp] theorem State.setTone_rx (s : State) (v : Bool) : (s.setTone v).rx = s.rx := rfl
@[simp] theorem State.setTone_tx (s : State) (v : Bool) : (s.setTone v).tx = s.tx := rfl
@[simp] theorem State.setTone_txAct (s : State) (v : Bool) : (s.setTone v).txAct = s.txAct := rfl
@[simp] theorem State.setTone_stype (s : State) (v : Bool) : (s.setTone v).stype = s.stype := rfl
@[simp] theorem State.setTone_comma (s : State) (v : Bool) : (s.setTone v).comma = s.comma := rfl
@[simp] theorem State.setTone_cidx (s : State) (v : Bool) : (s.setTone v).cidx = s.cidx := rfl
@[simp] theorem State.setTone_tmp (s : State) (v : Bool) : (s.setTone v).tmp = s.tmp := rfl
@[simp] theorem State.setTone_fix (s : State) (v : Bool) : (s.setTone v).fix = s.fix := rfl
@[simp] theorem State.setTone_crc (s : State) (v : Bool) : (s.setTone v).crc = s.crc := rfl
@[simp] theorem State.setTone_ones (s : State) (v : Bool) : (s.setTone v).ones = s.ones := rfl
@[simp] theorem State.setTone_frmAct (s : State) (v : Bool) : (s.setTone v).frmAct = s.frmAct := rfl
@[simp] theorem State.setTone_busy (s : State) (v : Bool) : (s.setTone v).busy = s.busy := rfl
@[simp] theorem State.setTone_encJob (s : State) (v : Bool) : (s.setTone v).encJob = s.encJob := rfl
@[simp] theorem State.setTone_encByte (s : State) (v : Bool) : (s.setTone v).encByte = s.encByte := rfl
@[simp] theorem State.setTone_encCrcEn (s : State) (v : Bool) : (s.setTone v).encCrcEn = s.encCrcEn := rfl
@[simp] theorem State.setTone_encBit (s : State) (v : Bool) : (s.setTone v).encBit = s.encBit := rfl
@[simp] theorem State.setTone_encStuff (s : State) (v : Bool) : (s.setTone v).encStuff = s.encStuff := rfl
@[simp] theorem State.setTone_encFlagsLeft (s : State) (v : Bool) : (s.setTone v).encFlagsLeft = s.encFlagsLeft := rfl
@[simp] theorem State.setTone_encEndStage (s : State) (v : Bool) : (s.setTone v).encEndStage = s.encEndStage := rfl
@[simp] theorem State.setTone_ctrl (s : State) (v : Bool) : (s.setTone v).ctrl = setBit s.ctrl 1 v := rfl
@[simp] theorem State.setTone_dlFlag (s : State) (v : Bool) : (s.setTone v).dlFlag = s.dlFlag := rfl
@[simp] theorem State.setTone_dlCount (s : State) (v : Bool) : (s.setTone v).dlCount = s.dlCount := rfl
@[simp] theorem State.setTone_smpCount (s : State) (v : Bool) : (s.setTone v).smpCount = s.smpCount := rfl
@[simp] theorem State.setTone_waveIdx (s : State) (v : Bool) : (s.setTone v).waveIdx = s.waveIdx := rfl
@[simp] theorem State.setTone_dac (s : State) (v : Bool) : (s.setTone v).dac = s.dac := rfl
@[simp] theorem State.setTone_res (s : State) (v : Bool) : (s.setTone v).res = s.res := rfl
@[simp] theorem State.setTone_err (s : State) (v : Bool) : (s.setTone v).err = s.err := rfl
@[simp] theorem State.setTone_errCause (s : State) (v : Bool) : (s.setTone v).errCause = s.errCause := rfl
@[simp] theorem State.setTone_errOp (s : State) (v : Bool) : (s.setTone v).errOp = s.errOp := rfl
@[simp] theorem State.setTone_txTrace (s : State) (v : Bool) : (s.setTone v).txTrace = s.txTrace := rfl
@[simp] theorem State.setTone_lineTrace (s : State) (v : Bool) : (s.setTone v).lineTrace = s.lineTrace := rfl
@[simp] theorem State.setTone_dacTrace (s : State) (v : Bool) : (s.setTone v).dacTrace = s.dacTrace := rfl
@[simp] theorem State.setTone_cmds (s : State) (v : Bool) : (s.setTone v).cmds = s.cmds := rfl
@[simp] theorem State.setTone_agenda (s : State) (v : Bool) : (s.setTone v).agenda = s.agenda := rfl

/-! `State.setPtt` -/

@[simp] theorem State.setPtt_cfg (s : State) (v : Bool) : (s.setPtt v).cfg = s.cfg := rfl
@[simp] theorem State.setPtt_rx (s : State) (v : Bool) : (s.setPtt v).rx = s.rx := rfl
@[simp] theorem State.setPtt_tx (s : State) (v : Bool) : (s.setPtt v).tx = s.tx := rfl
@[simp] theorem State.setPtt_txAct (s : State) (v : Bool) : (s.setPtt v).txAct = s.txAct := rfl
@[simp] theorem State.setPtt_stype (s : State) (v : Bool) : (s.setPtt v).stype = s.stype := rfl
@[simp] theorem State.setPtt_comma (s : State) (v : Bool) : (s.setPtt v).comma = s.comma := rfl
@[simp] theorem State.setPtt_cidx (s : State) (v : Bool) : (s.setPtt v).cidx = s.cidx := rfl
@[simp] theorem State.setPtt_tmp (s : State) (v : Bool) : (s.setPtt v).tmp = s.tmp := rfl
@[simp] theorem State.setPtt_fix (s : State) (v : Bool) : (s.setPtt v).fix = s.fix := rfl
@[simp] theorem State.setPtt_crc (s : State) (v : Bool) : (s.setPtt v).crc = s.crc := rfl
@[simp] theorem State.setPtt_ones (s : State) (v : Bool) : (s.setPtt v).ones = s.ones := rfl
@[simp] theorem State.setPtt_frmAct (s : State) (v : Bool) : (s.setPtt v).frmAct = s.frmAct := rfl
@[simp] theorem State.setPtt_busy (s : State) (v : Bool) : (s.setPtt v).busy = s.busy := rfl
@[simp] theorem State.setPtt_encJob (s : State) (v : Bool) : (s.setPtt v).encJob = s.encJob := rfl
@[simp] theorem State.setPtt_encByte (s : State) (v : Bool) : (s.setPtt v).encByte = s.encByte := rfl
@[simp] theorem State.setPtt_encCrcEn (s : State) (v : Bool) : (s.setPtt v).encCrcEn = s.encCrcEn := rfl
@[simp] theorem State.setPtt_encBit (s : State) (v : Bool) : (s.setPtt v).encBit = s.encBit := rfl
@[simp] theorem State.setPtt_encStuff (s : State) (v : Bool) : (s.setPtt v).encStuff = s.encStuff := rfl
@[simp] theorem State.setPtt_encFlagsLeft (s : State) (v : Bool) : (s.setPtt v).encFlagsLeft = s.encFlagsLeft := rfl
@[simp] theorem State.setPtt_encEndStage (s : State) (v : Bool) : (s.setPtt v).encEndStage = s.encEndStage := rfl
@[simp] theorem State.setPtt_ctrl (s : State) (v : Bool) : (s.setPtt v).ctrl = setBit s.ctrl 2 v := rfl
@[simp] theorem State.setPtt_dlFlag (s : State) (v : Bool) : (s.setPtt v).dlFlag = s.dlFlag := rfl
@[simp] theorem State.setPtt_dlCount (s : State) (v : Bool) : (s.setPtt v).dlCount = s.dlCount := rfl
@[simp] theorem State.setPtt_smpCount (s : State) (v : Bool) : (s.setPtt v).smpCount = s.smpCount := rfl
@[simp] theorem State.setPtt_waveIdx (s : State) (v : Bool) : (s.setPtt v).waveIdx = s.waveIdx := rfl
@[simp] theorem State.setPtt_dac (s : State) (v : Bool) : (s.setPtt v).dac = s.dac := rfl
@[simp] theorem State.setPtt_res (s : State) (v : Bool) : (s.setPtt v).res = s.res := rfl
@[simp] theorem State.setPtt_err (s : State) (v : Bool) : (s.setPtt v).err = s.err := rfl
@[simp] theorem State.setPtt_errCause (s : State) (v : Bool) : (s.setPtt v).errCause = s.errCause := rfl
@[simp] theorem State.setPtt_errOp (s : State) (v : Bool) : (s.setPtt v).errOp = s.errOp := rfl
@[simp] theorem State.setPtt_txTrace (s : State) (v : Bool) : (s.setPtt v).txTrace = s.txTrace := rfl
@[simp] theorem State.setPtt_lineTrace (s : State) (v : Bool) : (s.setPtt v).lineTrace = s.lineTrace := rfl
@[simp] theorem State.setPtt_dacTrace (s : State) (v : Bool) : (s.setPtt v).dacTrace = s.dacTrace := rfl
@[simp] theorem State.setPtt_cmds (s : State) (v : Bool) : (s.setPtt v).cmds = s.cmds := rfl
@[simp] theorem State.setPtt_agenda (s : State) (v : Bool) : (s.setPtt v).agenda = s.agenda := rfl

/-! `State.txLoad` -/

@[simp] theorem State.txLoad_cfg (s : State) (v : Byte) : (s.txLoad v).cfg = s.cfg := rfl
@[simp] theorem State.txLoad_rx (s : State) (v : Byte) : (s.txLoad v).rx = s.rx := rfl
@[simp] theorem State.txLoad_tx (s : State) (v : Byte) : (s.txLoad v).tx = s.tx := rfl
@[simp] theorem State.txLoad_txAct (s : State) (v : Byte) : (s.txLoad v).txAct = s.txAct := rfl
@[simp] theorem State.txLoad_stype (s : State) (v : Byte) : (s.txLoad v).stype = s.stype := rfl
@[simp] theorem State.txLoad_comma (s : State) (v : Byte) : (s.txLoad v).comma = s.comma := rfl
@[simp] theorem State.txLoad_cidx (s : State) (v : Byte) : (s.txLoad v).cidx = s.cidx := rfl
@[simp] theorem State.txLoad_tmp (s : State) (v : Byte) : (s.txLoad v).tmp = s.tmp := rfl
@[simp] theorem State.txLoad_fix (s : State) (v : Byte) : (s.txLoad v).fix = s.fix := rfl
@[simp] theorem State.txLoad_crc (s : State) (v : Byte) : (s.txLoad v).crc = s.crc := rfl
@[simp] theorem State.txLoad_ones (s : State) (v : Byte) : (s.txLoad v).ones = s.ones := rfl
@[simp] theorem State.txLoad_frmAct (s : State) (v : Byte) : (s.txLoad v).frmAct = s.frmAct := rfl
@[simp] theorem State.txLoad_busy (s : State) (v : Byte) : (s.txLoad v).busy = s.busy := rfl
@[simp] theorem State.txLoad_encJob (s : State) (v : Byte) : (s.txLoad v).encJob = s.encJob := rfl
@[simp] theorem State.txLoad_encByte (s : State) (v : Byte) : (s.txLoad v).encByte = s.encByte := rfl
@[simp] theorem State.txLoad_encCrcEn (s : State) (v : Byte) : (s.txLoad v).encCrcEn = s.encCrcEn := rfl
@[simp] theorem State.txLoad_encBit (s : State) (v : Byte) : (s.txLoad v).encBit = s.encBit := rfl
@[simp] theorem State.txLoad_encStuff (s : State) (v : Byte) : (s.txLoad v).encStuff = s.encStuff := rfl
@[simp] theorem State.txLoad_encFlagsLeft (s : State) (v : Byte) : (s.txLoad v).encFlagsLeft = s.encFlagsLeft := rfl
@[simp] theorem State.txLoad_encEndStage (s : State) (v : Byte) : (s.txLoad v).encEndStage = s.encEndStage := rfl
@[simp] theorem State.txLoad_ctrl (s : State) (v : Byte) : (s.txLoad v).ctrl = s.ctrl := rfl
@[simp] theorem State.txLoad_dlFlag (s : State) (v : Byte) : (s.txLoad v).dlFlag = s.dlFlag := rfl
@[simp] theorem State.txLoad_dlCount (s : State) (v : Byte) : (s.txLoad v).dlCount = s.dlCount := rfl
@[simp] theorem State.txLoad_smpCount (s : State) (v : Byte) : (s.txLoad v).smpCount = s.smpCount := rfl
@[simp] theorem State.txLoad_waveIdx (s : State) (v : Byte) : (s.txLoad v).waveIdx = s.waveIdx := rfl
@[simp] theorem State.txLoad_dac (s : State) (v : Byte) : (s.txLoad v).dac = s.dac := rfl
@[simp] theorem State.txLoad_res (s : State) (v : Byte) : (s.txLoad v).res = s.res := rfl
@[simp] theorem State.txLoad_err (s : State) (v : Byte) : (s.txLoad v).err = s.err := rfl
@[simp] theorem State.txLoad_errCause (s : State) (v : Byte) : (s.txLoad v).errCause = s.errCause := rfl
@[simp] theorem State.txLoad_errOp (s : State) (v : Byte) : (s.txLoad v).errOp = s.errOp := rfl
@[simp] theorem State.txLoad_txTrace (s : State) (v : Byte) : (s.txLoad v).txTrace = s.txTrace ++ [v] := rfl
@[simp] theorem State.txLoad_lineTrace (s : State) (v : Byte) : (s.txLoad v).lineTrace = s.lineTrace := rfl
@[simp] theorem State.txLoad_dacTrace (s : State) (v : Byte) : (s.txLoad v).dacTrace = s.dacTrace := rfl
@[simp] theorem State.txLoad_cmds (s : State) (v : Byte) : (s.txLoad v).cmds = s.cmds := rfl
@[simp] theorem State.txLoad_agenda (s : State) (v : Byte) : (s.txLoad v).agenda = s.agenda := rfl

/-! `State.emitPeriod` -/

@[simp] theorem State.emitPeriod_cfg (s : State) : (s.emitPeriod).cfg = s.cfg := rfl
@[simp] theorem State.emitPeriod_rx (s : State) : (s.emitPeriod).rx = s.rx := rfl
@[simp] theorem State.emitPeriod_tx (s : State) : (s.emitPeriod).tx = s.tx := rfl
@[simp] theorem State.emitPeriod_txAct (s : State) : (s.emitPeriod).txAct = s.txAct := rfl
@[simp] theorem State.emitPeriod_stype (s : State) : (s.emitPeriod).stype = s.stype := rfl
@[simp] theorem State.emitPeriod_comma (s : State) : (s.emitPeriod).comma = s.comma := rfl
@[simp] theorem State.emitPeriod_cidx (s : State) : (s.emitPeriod).cidx = s.cidx := rfl
@[simp] theorem State.emitPeriod_tmp (s : State) : (s.emitPeriod).tmp = s.tmp := rfl
@[simp] theorem State.emitPeriod_fix (s : State) : (s.emitPeriod).fix = s.fix := rfl
@[simp] theorem State.emitPeriod_crc (s : State) : (s.emitPeriod).crc = s.crc := rfl
@[simp] theorem State.emitPeriod_ones (s : State) : (s.emitPeriod).ones = s.ones := rfl
@[simp] theorem State.emitPeriod_frmAct (s : State) : (s.emitPeriod).frmAct = s.frmAct := rfl
@[simp] theorem State.emitPeriod_busy (s : State) : (s.emitPeriod).busy = s.busy := rfl
@[simp] theorem State.emitPeriod_encJob (s : State) : (s.emitPeriod).encJob = s.encJob := rfl
@[simp] theorem State.emitPeriod_encByte (s : State) : (s.emitPeriod).encByte = s.encByte := rfl
@[simp] theorem State.emitPeriod_encCrcEn (s : State) : (s.emitPeriod).encCrcEn = s.encCrcEn := rfl
@[simp] theorem State.emitPeriod_encBit (s : State) : (s.emitPeriod).encBit = s.encBit := rfl
@[simp] theorem State.emitPeriod_encStuff (s : State) : (s.emitPeriod).encStuff = s.encStuff := rfl
@[simp] theorem State.emitPeriod_encFlagsLeft (s : State) : (s.emitPeriod).encFlagsLeft = s.encFlagsLeft := rfl
@[simp] theorem State.emitPeriod_encEndStage (s : State) : (s.emitPeriod).encEndStage = s.encEndStage := rfl
@[simp] theorem State.emitPeriod_ctrl (s : State) : (s.emitPeriod).ctrl = s.ctrl := rfl
@[simp] theorem State.emitPeriod_dlFlag (s : State) : (s.emitPeriod).dlFlag = true := rfl
@[simp] theorem State.emitPeriod_dlCount (s : State) : (s.emitPeriod).dlCount = s.cfg.bitTicks := rfl
@[simp] theorem State.emitPeriod_smpCount (s : State) : (s.emitPeriod).smpCount = s.smpCount := rfl
@[simp] theorem State.emitPeriod_waveIdx (s : State) : (s.emitPeriod).waveIdx = s.waveIdx := rfl
@[simp] theorem State.emitPeriod_dac (s : State) : (s.emitPeriod).dac = s.dac := rfl
@[simp] theorem State.emitPeriod_res (s : State) : (s.emitPeriod).res = s.res := rfl
@[simp] theorem State.emitPeriod_err (s : State) : (s.emitPeriod).err = s.err := rfl
@[simp] theorem State.emitPeriod_errCause (s : State) : (s.emitPeriod).errCause = s.errCause := rfl
@[simp] theorem State.emitPeriod_errOp (s : State) : (s.emitPeriod).errOp = s.errOp := rfl
@[simp] theorem State.emitPeriod_txTrace (s : State) : (s.emitPeriod).txTrace = s.txTrace := rfl
@[simp] theorem State.emitPeriod_lineTrace (s : State) : (s.emitPeriod).lineTrace = s.lineTrace ++ [s.tone] := rfl
@[simp] theorem State.emitPeriod_dacTrace (s : State) : (s.emitPeriod).dacTrace = s.dacTrace := rfl
@[simp] theorem State.emitPeriod_cmds (s : State) : (s.emitPeriod).cmds = s.cmds := rfl
@[simp] theorem State.emitPeriod_agenda (s : State) : (s.emitPeriod).agenda = s.agenda := rfl

/-! `State.loadByte` -/

@[simp] theorem State.loadByte_cfg (s : State) (b : Byte) : (s.loadByte b).cfg = s.cfg := rfl
@[simp] theorem State.loadByte_rx (s : State) (b : Byte) : (s.loadByte b).rx = s.rx := rfl
@[simp] theorem State.loadByte_tx (s : State) (b : Byte) : (s.loadByte b).tx = s.tx := rfl
@[simp] theorem State.loadByte_txAct (s : State) (b : Byte) : (s.loadByte b).txAct = s.txAct := rfl
@[simp] theorem State.loadByte_stype (s : State) (b : Byte) : (s.loadByte b).stype = s.stype := rfl
@[simp] theorem State.loadByte_comma (s : State) (b : Byte) : (s.loadByte b).comma = s.comma := rfl
@[simp] theorem State.loadByte_cidx (s : State) (b : Byte) : (s.loadByte b).cidx = s.cidx := rfl
@[simp] theorem State.loadByte_tmp (s : State) (b : Byte) : (s.loadByte b).tmp = s.tmp := rfl
@[simp] theorem State.loadByte_fix (s : State) (b : Byte) : (s.loadByte b).fix = s.fix := rfl
@[simp] theorem State.loadByte_crc (s : State) (b : Byte) : (s.loadByte b).crc = s.crc := rfl
@[simp] theorem State.loadByte_ones (s : State) (b : Byte) : (s.loadByte b).ones = s.ones := rfl
@[simp] theorem State.loadByte_frmAct (s : State) (b : Byte) : (s.loadByte b).frmAct = s.frmAct := rfl
@[simp] theorem State.loadByte_busy (s : State) (b : Byte) : (s.loadByte b).busy = s.busy := rfl
@[simp] theorem State.loadByte_encJob (s : State) (b : Byte) : (s.loadByte b).encJob = s.encJob := rfl
@[simp] theorem State.loadByte_encByte (s : State) (b : Byte) : (s.loadByte b).encByte = b := rfl
@[simp] theorem State.loadByte_encCrcEn (s : State) (b : Byte) : (s.loadByte b).encCrcEn = false := rfl
@[simp] theorem State.loadByte_encBit (s : State) (b : Byte) : (s.loadByte b).encBit = 0 := rfl
@[simp] theorem State.loadByte_encStuff (s : State) (b : Byte) : (s.loadByte b).encStuff = s.encStuff := rfl
@[simp] theorem State.loadByte_encFlagsLeft (s : State) (b : Byte) : (s.loadByte b).encFlagsLeft = s.encFlagsLeft := rfl
@[simp] theorem State.loadByte_encEndStage (s : State) (b : Byte) : (s.loadByte b).encEndStage = s.encEndStage := rfl
@[simp] theorem State.loadByte_ctrl (s : State) (b : Byte) : (s.loadByte b).ctrl = s.ctrl := rfl
@[simp] theorem State.loadByte_dlFlag (s : State) (b : Byte) : (s.loadByte b).dlFlag = s.dlFlag := rfl
@[simp] theorem State.loadByte_dlCount (s : State) (b : Byte) : (s.loadByte b).dlCount = s.dlCount := rfl
@[simp] theorem State.loadByte_smpCount (s : State) (b : Byte) : (s.loadByte b).smpCount = s.smpCount := rfl
@[simp] theorem State.loadByte_waveIdx (s : State) (b : Byte) : (s.loadByte b).waveIdx = s.waveIdx := rfl
@[simp] theorem State.loadByte_dac (s : State) (b : Byte) : (s.loadByte b).dac = s.dac := rfl
@[simp] theorem State.loadByte_res (s : State) (b : Byte) : (s.loadByte b).res = s.res := rfl
@[simp] theorem State.loadByte_err (s : State) (b : Byte) : (s.loadByte b).err = s.err := rfl
@[simp] theorem State.loadByte_errCause (s : State) (b : Byte) : (s.loadByte b).errCause = s.errCause := rfl
@[simp] theorem State.loadByte_errOp (s : State) (b : Byte) : (s.loadByte b).errOp = s.errOp := rfl
@[simp] theorem State.loadByte_txTrace (s : State) (b : Byte) : (s.loadByte b).txTrace = s.txTrace := rfl
@[simp] theorem State.loadByte_lineTrace (s : State) (b : Byte) : (s.loadByte b).lineTrace = s.lineTrace := rfl
@[simp] theorem State.loadByte_dacTrace (s : State) (b : Byte) : (s.loadByte b).dacTrace = s.dacTrace := rfl
@[simp] theorem State.loadByte_cmds (s : State) (b : Byte) : (s.loadByte b).cmds = s.cmds := rfl
@[simp] theorem State.loadByte_agenda (s : State) (b : Byte) : (s.loadByte b).agenda = s.agenda := rfl

/-! `State.commit` -/

@[simp] theorem State.commit_cfg (s : State) : (s.commit).cfg = s.cfg := rfl
@[simp] theorem State.commit_rx (s : State) : (s.commit).rx = s.rx := rfl
@[simp] theorem State.commit_tx (s : State) : (s.commit).tx = s.tx := rfl
@[simp] theorem State.commit_txAct (s : State) : (s.commit).txAct = s.txAct := rfl
@[simp] theorem State.commit_stype (s : State) : (s.commit).stype = s.stype := rfl
@[simp] theorem State.commit_comma (s : State) : (s.commit).comma = s.comma := rfl
@[simp] theorem State.commit_cidx (s : State) : (s.commit).cidx = s.cidx := rfl
@[simp] theorem State.commit_tmp (s : State) : (s.commit).tmp = s.tmp := rfl
@[simp] theorem State.commit_fix (s : State) : (s.commit).fix = s.tmp.commit := rfl
@[simp] theorem State.commit_crc (s : State) : (s.commit).crc = s.crc := rfl
@[simp] theorem State.commit_ones (s : State) : (s.commit).ones = s.ones := rfl
@[simp] theorem State.commit_frmAct (s : State) : (s.commit).frmAct = s.frmAct := rfl
@[simp] theorem State.commit_busy (s : State) : (s.commit).busy = s.busy := rfl
@[simp] theorem State.commit_encJob (s : State) : (s.commit).encJob = s.encJob := rfl
@[simp] theorem State.commit_encByte (s : State) : (s.commit).encByte = s.encByte := rfl
@[simp] theorem State.commit_encCrcEn (s : State) : (s.commit).encCrcEn = s.encCrcEn := rfl
@[simp] theorem State.commit_encBit (s : State) : (s.commit).encBit = s.encBit := rfl
@[simp] theorem State.commit_encStuff (s : State) : (s.commit).encStuff = s.encStuff := rfl
@[simp] theorem State.commit_encFlagsLeft (s : State) : (s.commit).encFlagsLeft = s.encFlagsLeft := rfl
@[simp] theorem State.commit_encEndStage (s : State) : (s.commit).encEndStage = s.encEndStage := rfl
@[simp] theorem State.commit_ctrl (s : State) : (s.commit).ctrl = s.ctrl := rfl
@[simp] theorem State.commit_dlFlag (s : State) : (s.commit).dlFlag = s.dlFlag := rfl
@[simp] theorem State.commit_dlCount (s : State) : (s.commit).dlCount = s.dlCount := rfl
@[simp] theorem State.commit_smpCount (s : State) : (s.commit).smpCount = s.smpCount := rfl
@[simp] theorem State.commit_waveIdx (s : State) : (s.commit).waveIdx = s.waveIdx := rfl
@[simp] theorem State.commit_dac (s : State) : (s.commit).dac = s.dac := rfl
@[simp] theorem State.commit_res (s : State) : (s.commit).res = s.res := rfl
@[simp] theorem State.commit_err (s : State) : (s.commit).err = s.err := rfl
@[simp] theorem State.commit_errCause (s : State) : (s.commit).errCause = s.errCause := rfl
@[simp] theorem State.commit_errOp (s : State) : (s.commit).errOp = s.errOp := rfl
@[simp] theorem State.commit_txTrace (s : State) : (s.commit).txTrace = s.txTrace := rfl
@[simp] theorem State.commit_lineTrace (s : State) : (s.commit).lineTrace = s.lineTrace := rfl
@[simp] theorem State.commit_dacTrace (s : State) : (s.commit).dacTrace = s.dacTrace := rfl
@[simp] theorem State.commit_cmds (s : State) : (s.commit).cmds = s.cmds := rfl
@[simp] theorem State.commit_agenda (s : State) : (s.commit).agenda = s.agenda := rfl

/-! `endOfWait` -/

@[simp] theorem endOfWait_cfg (s : State) : (endOfWait s).cfg = s.cfg := rfl
@[simp] theorem endOfWait_rx (s : State) : (endOfWait s).rx = s.rx := rfl
@[simp] theorem endOfWait_tx (s : State) : (endOfWait s).tx = s.tx := rfl
@[simp] theorem endOfWait_txAct (s : State) : (endOfWait s).txAct = s.txAct := rfl
@[simp] theorem endOfWait_stype (s : State) : (endOfWait s).stype = s.stype := rfl
@[simp] theorem endOfWait_comma (s : State) : (endOfWait s).comma = s.comma := rfl
@[simp] theorem endOfWait_cidx (s : State) : (endOfWait s).cidx = s.cidx := rfl
@[simp] theorem endOfWait_tmp (s : State) : (endOfWait s).tmp = s.tmp := rfl
@[simp] theorem endOfWait_fix (s : State) : (endOfWait s).fix = s.fix := rfl
@[simp] theorem endOfWait_crc (s : State) : (endOfWait s).crc = s.crc := rfl
@[simp] theorem endOfWait_ones (s : State) : (endOfWait s).ones = s.ones := rfl
@[simp] theorem endOfWait_frmAct (s : State) : (endOfWait s).frmAct = s.frmAct := rfl
@[simp] theorem endOfWait_busy (s : State) : (endOfWait s).busy = false := rfl
@[simp] theorem endOfWait_encJob (s : State) : (endOfWait s).encJob = .none := rfl
@[simp] theorem endOfWait_encByte (s : State) : (endOfWait s).encByte = s.encByte := rfl
@[simp] theorem endOfWait_encCrcEn (s : State) : (endOfWait s).encCrcEn = s.encCrcEn := rfl
@[simp] theorem endOfWait_encBit (s : State) : (endOfWait s).encBit = s.encBit := rfl
@[simp] theorem endOfWait_encStuff (s : State) : (endOfWait s).encStuff = s.encStuff := rfl
@[simp] theorem endOfWait_encFlagsLeft (s : State) : (endOfWait s).encFlagsLeft = s.encFlagsLeft := rfl
@[simp] theorem endOfWait_encEndStage (s : State) : (endOfWait s).encEndStage = s.encEndStage := rfl
@[simp] theorem endOfWait_ctrl (s : State) : (endOfWait s).ctrl = s.ctrl := rfl
@[simp] theorem endOfWait_dlFlag (s : State) : (endOfWait s).dlFlag = s.dlFlag := rfl
@[simp] theorem endOfWait_dlCount (s : State) : (endOfWait s).dlCount = s.dlCount := rfl
@[simp] theorem endOfWait_smpCount (s : State) : (endOfWait s).smpCount = s.smpCount := rfl
@[simp] theorem endOfWait_waveIdx (s : State) : (endOfWait s).waveIdx = s.waveIdx := rfl
@[simp] theorem endOfWait_dac (s : State) : (endOfWait s).dac = s.dac := rfl
@[simp] theorem endOfWait_res (s : State) : (endOfWait s).res = s.res := rfl
@[simp] theorem endOfWait_err (s : State) : (endOfWait s).err = s.err := rfl
@[simp] theorem endOfWait_errCause (s : State) : (endOfWait s).errCause = s.errCause := rfl
@[simp] theorem endOfWait_errOp (s : State) : (endOfWait s).errOp = s.errOp := rfl
@[simp] theorem endOfWait_txTrace (s : State) : (endOfWait s).txTrace = s.txTrace := rfl
@[simp] theorem endOfWait_lineTrace (s : State) : (endOfWait s).lineTrace = s.lineTrace := rfl
@[simp] theorem endOfWait_dacTrace (s : State) : (endOfWait s).dacTrace = s.dacTrace := rfl
@[simp] theorem endOfWait_cmds (s : State) : (endOfWait s).cmds = s.cmds := rfl
@[simp] theorem endOfWait_agenda (s : State) : (endOfWait s).agenda = s.agenda := rfl

/-! `rxEvent` -/

@[simp] theorem rxEvent_cfg (b : Byte) (s : State) : (rxEvent b s).cfg = s.cfg := rfl
@[simp] theorem rxEvent_rx (b : Byte) (s : State) : (rxEvent b s).rx = s.rx.push s.rxovm b := rfl
@[simp] theorem rxEvent_tx (b : Byte) (s : State) : (rxEvent b s).tx = s.tx := rfl
@[simp] theorem rxEvent_txAct (b : Byte) (s : State) : (rxEvent b s).txAct = s.txAct := rfl
@[simp] theorem rxEvent_stype (b : Byte) (s : State) : (rxEvent b s).stype = s.stype := rfl
@[simp] theorem rxEvent_comma (b : Byte) (s : State) : (rxEvent b s).comma = s.comma := rfl
@[simp] theorem rxEvent_cidx (b : Byte) (s : State) : (rxEvent b s).cidx = s.cidx := rfl
@[simp] theorem rxEvent_tmp (b : Byte) (s : State) : (rxEvent b s).tmp = s.tmp := rfl
@[simp] theorem rxEvent_fix (b : Byte) (s : State) : (rxEvent b s).fix = s.fix := rfl
@[simp] theorem rxEvent_crc (b : Byte) (s : State) : (rxEvent b s).crc = s.crc := rfl
@[simp] theorem rxEvent_ones (b : Byte) (s : State) : (rxEvent b s).ones = s.ones := rfl
@[simp] theorem rxEvent_frmAct (b : Byte) (s : State) : (rxEvent b s).frmAct = s.frmAct := rfl
@[simp] theorem rxEvent_busy (b : Byte) (s : State) : (rxEvent b s).busy = s.busy := rfl
@[simp] theorem rxEvent_encJob (b : Byte) (s : State) : (rxEvent b s).encJob = s.encJob := rfl
@[simp] theorem rxEvent_encByte (b : Byte) (s : State) : (rxEvent b s).encByte = s.encByte := rfl
@[simp] theorem rxEvent_encCrcEn (b : Byte) (s : State) : (rxEvent b s).encCrcEn = s.encCrcEn := rfl
@[simp] theorem rxEvent_encBit (b : Byte) (s : State) : (rxEvent b s).encBit = s.encBit := rfl
@[simp] theorem rxEvent_encStuff (b : Byte) (s : State) : (rxEvent b s).encStuff = s.encStuff := rfl
@[simp] theorem rxEvent_encFlagsLeft (b : Byte) (s : State) : (rxEvent b s).encFlagsLeft = s.encFlagsLeft := rfl
@[simp] theorem rxEvent_encEndStage (b : Byte) (s : State) : (rxEvent b s).encEndStage = s.encEndStage := rfl
@[simp] theorem rxEvent_ctrl (b : Byte) (s : State) : (rxEvent b s).ctrl = s.ctrl := rfl
@[simp] theorem rxEvent_dlFlag (b : Byte) (s : State) : (rxEvent b s).dlFlag = s.dlFlag := rfl
@[simp] theorem rxEvent_dlCount (b : Byte) (s : State) : (rxEvent b s).dlCount = s.dlCount := rfl
@[simp] theorem rxEvent_smpCount (b : Byte) (s : State) : (rxEvent b s).smpCount = s.smpCount := rfl
@[simp] theorem rxEvent_waveIdx (b : Byte) (s : State) : (rxEvent b s).waveIdx = s.waveIdx := rfl
@[simp] theorem rxEvent_dac (b : Byte) (s : State) : (rxEvent b s).dac = s.dac := rfl
@[simp] theorem rxEvent_res (b : Byte) (s : State) : (rxEvent b s).res = s.res := rfl
@[simp] theorem rxEvent_err (b : Byte) (s : State) : (rxEvent b s).err = s.err := rfl
@[simp] theorem rxEvent_errCause (b : Byte) (s : State) : (rxEvent b s).errCause = s.errCause := rfl
@[simp] theorem rxEvent_errOp (b : Byte) (s : State) : (rxEvent b s).errOp = s.errOp := rfl
@[simp] theorem rxEvent_txTrace (b : Byte) (s : State) : (rxEvent b s).txTrace = s.txTrace := rfl
@[simp] theorem rxEvent_lineTrace (b : Byte) (s : State) : (rxEvent b s).lineTrace = s.lineTrace := rfl
@[simp] theorem rxEvent_dacTrace (b : Byte) (s : State) : (rxEvent b s).dacTrace = s.dacTrace := rfl
@[simp] theorem rxEvent_cmds (b : Byte) (s : State) : (rxEvent b s).cmds = s.cmds := rfl
@[simp] theorem rxEvent_agenda (b : Byte) (s : State) : (rxEvent b s).agenda = s.agenda := rfl

/-! `State.storeChar` -/

@[simp] theorem State.storeChar_cfg (s : State) (f : Field) (b : Byte) : (s.storeChar f b).cfg = s.cfg := rfl
@[simp] theorem State.storeChar_rx (s : State) (f : Field) (b : Byte) : (s.storeChar f b).rx = s.rx := rfl
@[simp] theorem State.storeChar_tx (s : State) (f : Field) (b : Byte) : (s.storeChar f b).tx = s.tx := rfl
@[simp] theorem State.storeChar_txAct (s : State) (f : Field) (b : Byte) : (s.storeChar f b).txAct = s.txAct := rfl
@[simp] theorem State.storeChar_stype (s : State) (f : Field) (b : Byte) : (s.storeChar f b).stype = s.stype := rfl
@[simp] theorem State.storeChar_comma (s : State) (f : Field) (b : Byte) : (s.storeChar f b).comma = s.comma := rfl
@[simp] theorem State.storeChar_cidx (s : State) (f : Field) (b : Byte) : (s.storeChar f b).cidx = satInc s.cidx := rfl
@[simp] theorem State.storeChar_fix (s : State) (f : Field) (b : Byte) : (s.storeChar f b).fix = s.fix := rfl
@[simp] theorem State.storeChar_crc (s : State) (f : Field) (b : Byte) : (s.storeChar f b).crc = s.crc := rfl
@[simp] theorem State.storeChar_ones (s : State) (f : Field) (b : Byte) : (s.storeChar f b).ones = s.ones := rfl
@[simp] theorem State.storeChar_frmAct (s : State) (f : Field) (b : Byte) : (s.storeChar f b).frmAct = s.frmAct := rfl
@[simp] theorem State.storeChar_busy (s : State) (f : Field) (b : Byte) : (s.storeChar f b).busy = s.busy := rfl
@[simp] theorem State.storeChar_encJob (s : State) (f : Field) (b : Byte) : (s.storeChar f b).encJob = s.encJob := rfl
@[simp] theorem State.storeChar_encByte (s : State) (f : Field) (b : Byte) : (s.storeChar f b).encByte = s.encByte := rfl
@[simp] theorem State.storeChar_encCrcEn (s : State) (f : Field) (b : Byte) : (s.storeChar f b).encCrcEn = s.encCrcEn := rfl
@[simp] theorem State.storeChar_encBit (s : State) (f : Field) (b : Byte) : (s.storeChar f b).encBit = s.encBit := rfl
@[simp] theorem State.storeChar_encStuff (s : State) (f : Field) (b : Byte) : (s.storeChar f b).encStuff = s.encStuff := rfl
@[simp] theorem State.storeChar_encFlagsLeft (s : State) (f : Field) (b : Byte) : (s.storeChar f b).encFlagsLeft = s.encFlagsLeft := rfl
@[simp] theorem State.storeChar_encEndStage (s : State) (f : Field) (b : Byte) : (s.storeChar f b).encEndStage = s.encEndStage := rfl
@[simp] theorem State.storeChar_ctrl (s : State) (f : Field) (b : Byte) : (s.storeChar f b).ctrl = s.ctrl := rfl
@[simp] theorem State.storeChar_dlFlag (s : State) (f : Field) (b : Byte) : (s.storeChar f b).dlFlag = s.dlFlag := rfl
@[simp] theorem State.storeChar_dlCount (s : State) (f : Field) (b : Byte) : (s.storeChar f b).dlCount = s.dlCount := rfl
@[simp] theorem State.storeChar_smpCount (s : State) (f : Field) (b : Byte) : (s.storeChar f b).smpCount = s.smpCount := rfl
@[simp] theorem State.storeChar_waveIdx (s : State) (f : Field) (b : Byte) : (s.storeChar f b).waveIdx = s.waveIdx := rfl
@[simp] theorem State.storeChar_dac (s : State) (f : Field) (b : Byte) : (s.storeChar f b).dac = s.dac := rfl
@[simp] theorem State.storeChar_res (s : State) (f : Field) (b : Byte) : (s.storeChar f b).res = s.res := rfl
@[simp] theorem State.storeChar_err (s : State) (f : Field) (b : Byte) : (s.storeChar f b).err = s.err := rfl
@[simp] theorem State.storeChar_errCause (s : State) (f : Field) (b : Byte) : (s.storeChar f b).errCause = s.errCause := rfl
@[simp] theorem State.storeChar_errOp (s : State) (f : Field) (b : Byte) : (s.storeChar f b).errOp = s.errOp := rfl
@[simp] theorem State.storeChar_txTrace (s : State) (f : Field) (b : Byte) : (s.storeChar f b).txTrace = s.txTrace := rfl
@[simp] theorem State.storeChar_lineTrace (s : State) (f : Field) (b : Byte) : (s.storeChar f b).lineTrace = s.lineTrace := rfl
@[simp] theorem State.storeChar_dacTrace (s : State) (f : Field) (b : Byte) : (s.storeChar f b).dacTrace = s.dacTrace := rfl
@[simp] theorem State.storeChar_cmds (s : State) (f : Field) (b : Byte) : (s.storeChar f b).cmds = s.cmds := rfl
@[simp] theorem State.storeChar_agenda (s : State) (f : Field) (b : Byte) : (s.storeChar f b).agenda = s.agenda := rfl

/-! `State.raiseCmdError` -/

@[simp] theorem State.raiseCmdError_cfg (s : State) (c : Cause) (op : Byte) : (s.raiseCmdError c op).cfg = s.cfg := by
  unfold State.raiseCmdError; (repeat' split) <;> rfl
@[simp] theorem State.raiseCmdError_rx (s : State) (c : Cause) (op : Byte) : (s.raiseCmdError c op).rx = s.rx := by
  unfold State.raiseCmdError; (repeat' split) <;> rfl
@[simp] theorem State.raiseCmdError_tx (s : State) (c : Cause) (op : Byte) : (s.raiseCmdError c op).tx = s.tx := by
  unfold State.raiseCmdError; (repeat' split) <;> rfl
@[simp] theorem State.raiseCmdError_txAct (s : State) (c : Cause) (op : Byte) : (s.raiseCmdError c op).txAct = s.txAct := by
  unfold State.raiseCmdError; (repeat' split) <;> rfl
@[simp] theorem State.raiseCmdError_stype (s : State) (c : Cause) (op : Byte) : (s.raiseCmdError c op).stype = s.stype := by
  unfold State.raiseCmdError; (repeat' split) <;> rfl
@[simp] theorem State.raiseCmdError_comma (s : State) (c : Cause) (op : Byte) : (s.raiseCmdError c op).comma = s.comma := by
  unfold State.raiseCmdError; (repeat' split) <;> rfl
@[simp] theorem State.raiseCmdError_cidx (s : State) (c : Cause) (op : Byte) : (s.raiseCmdError c op).cidx = s.cidx := by
  unfold State.raiseCmdError; (repeat' split) <;> rfl
@[simp] theorem State.raiseCmdError_tmp (s : State) (c : Cause) (op : Byte) : (s.raiseCmdError c op).tmp = s.tmp := by
  unfold State.raiseCmdError; (repeat' split) <;> rfl
@[simp] theorem State.raiseCmdError_fix (s : State) (c : Cause) (op : Byte) : (s.raiseCmdError c op).fix = s.fix := by
  unfold State.raiseCmdError; (repeat' split) <;> rfl
@[simp] theorem State.raiseCmdError_crc (s : State) (c : Cause) (op : Byte) : (s.raiseCmdError c op).crc = s.crc := by
  unfold State.raiseCmdError; (repeat' split) <;> rfl
@[simp] theorem State.raiseCmdError_ones (s : State) (c : Cause) (op : Byte) : (s.raiseCmdError c op).ones = s.ones := by
  unfold State.raiseCmdError; (repeat' split) <;> rfl
@[simp] theorem State.raiseCmdError_frmAct (s : State) (c : Cause) (op : Byte) : (s.raiseCmdError c op).frmAct = s.frmAct := by
  unfold State.raiseCmdError; (repeat' split) <;> rfl
@[simp] theorem State.raiseCmdError_busy (s : State) (c : Cause) (op : Byte) : (s.raiseCmdError c op).busy = s.busy := by
  unfold State.raiseCmdError; (repeat' split) <;> rfl
@[simp] theorem State.raiseCmdError_encJob (s : State) (c : Cause) (op : Byte) : (s.raiseCmdError c op).encJob = s.encJob := by
  unfold State.raiseCmdError; (repeat' split) <;> rfl
@[simp] theorem State.raiseCmdError_encByte (s : State) (c : Cause) (op : Byte) : (s.raiseCmdError c op).encByte = s.encByte := by
  unfold State.raiseCmdError; (repeat' split) <;> rfl
@[simp] theorem State.raiseCmdError_encCrcEn (s : State) (c : Cause) (op : Byte) : (s.raiseCmdError c op).encCrcEn = s.encCrcEn := by
  unfold State.raiseCmdError; (repeat' split) <;> rfl
@[simp] theorem State.raiseCmdError_encBit (s : State) (c : Cause) (op : Byte) : (s.raiseCmdError c op).encBit = s.encBit := by
  unfold State.raiseCmdError; (repeat' split) <;> rfl
@[simp] theorem State.raiseCmdError_encStuff (s : State) (c : Cause) (op : Byte) : (s.raiseCmdError c op).encStuff = s.encStuff := by
  unfold State.raiseCmdError; (repeat' split) <;> rfl
@[simp] theorem State.raiseCmdError_encFlagsLeft (s : State) (c : Cause) (op : Byte) : (s.raiseCmdError c op).encFlagsLeft = s.encFlagsLeft := by
  unfold State.raiseCmdError; (repeat' split) <;> rfl
@[simp] theorem State.raiseCmdError_encEndStage (s : State) (c : Cause) (op : Byte) : (s.raiseCmdError c op).encEndStage = s.encEndStage := by
  unfold State.raiseCmdError; (repeat' split) <;> rfl
@[simp] theorem State.raiseCmdError_ctrl (s : State) (c : Cause) (op : Byte) : (s.raiseCmdError c op).ctrl = s.ctrl := by
  unfold State.raiseCmdError; (repeat' split) <;> rfl
@[simp] theorem State.raiseCmdError_dlFlag (s : State) (c : Cause) (op : Byte) : (s.raiseCmdError c op).dlFlag = s.dlFlag := by
  unfold State.raiseCmdError; (repeat' split) <;> rfl
@[simp] theorem State.raiseCmdError_dlCount (s : State) (c : Cause) (op : Byte) : (s.raiseCmdError c op).dlCount = s.dlCount := by
  unfold State.raiseCmdError; (repeat' split) <;> rfl
@[simp] theorem State.raiseCmdError_smpCount (s : State) (c : Cause) (op : Byte) : (s.raiseCmdError c op).smpCount = s.smpCount := by
  unfold State.raiseCmdError; (repeat' split) <;> rfl
@[simp] theorem State.raiseCmdError_waveIdx (s : State) (c : Cause) (op : Byte) : (s.raiseCmdError c op).waveIdx = s.waveIdx := by
  unfold State.raiseCmdError; (repeat' split) <;> rfl
@[simp] theorem State.raiseCmdError_dac (s : State) (c : Cause) (op : Byte) : (s.raiseCmdError c op).dac = s.dac := by
  unfold State.raiseCmdError; (repeat' split) <;> rfl
@[simp] theorem State.raiseCmdError_res (s : State) (c : Cause) (op : Byte) : (s.raiseCmdError c op).res = s.res := by
  unfold State.raiseCmdError; (repeat' split) <;> rfl
@[simp] theorem State.raiseCmdError_txTrace (s : State) (c : Cause) (op : Byte) : (s.raiseCmdError c op).txTrace = s.txTrace := by
  unfold State.raiseCmdError; (repeat' split) <;> rfl
@[simp] theorem State.raiseCmdError_lineTrace (s : State) (c : Cause) (op : Byte) : (s.raiseCmdError c op).lineTrace = s.lineTrace := by
  unfold State.raiseCmdError; (repeat' split) <;> rfl
@[simp] theorem State.raiseCmdError_dacTrace (s : State) (c : Cause) (op : Byte) : (s.raiseCmdError c op).dacTrace = s.dacTrace := by
  unfold State.raiseCmdError; (repeat' split) <;> rfl
@[simp] theorem State.raiseCmdError_cmds (s : State) (c : Cause) (op : Byte) : (s.raiseCmdError c op).cmds = s.cmds := by
  unfold State.raiseCmdError; (repeat' split) <;> rfl
@[simp] theorem State.raiseCmdError_agenda (s : State) (c : Cause) (op : Byte) : (s.raiseCmdError c op).agenda = s.agenda := by
  unfold State.raiseCmdError; (repeat' split) <;> rfl

/-! `State.feed` -/

@[simp] theorem State.feed_cfg (s : State) (b : Byte) : (s.feed b).cfg = s.cfg := by
  unfold State.feed; (repeat' split) <;> rfl
@[simp] theorem State.feed_rx (s : State) (b : Byte) : (s.feed b).rx = s.rx := by
  unfold State.feed; (repeat' split) <;> rfl
@[simp] theorem State.feed_tx (s : State) (b : Byte) : (s.feed b).tx = s.tx := by
  unfold State.feed; (repeat' split) <;> rfl
@[simp] theorem State.feed_txAct (s : State) (b : Byte) : (s.feed b).txAct = s.txAct := by
  unfold State.feed; (repeat' split) <;> rfl
@[simp] theorem State.feed_fix (s : State) (b : Byte) : (s.feed b).fix = s.fix := by
  unfold State.feed; (repeat' split) <;> rfl
@[simp] theorem State.feed_crc (s : State) (b : Byte) : (s.feed b).crc = s.crc := by
  unfold State.feed; (repeat' split) <;> rfl
@[simp] theorem State.feed_ones (s : State) (b : Byte) : (s.feed b).ones = s.ones := by
  unfold State.feed; (repeat' split) <;> rfl
@[simp] theorem State.feed_frmAct (s : State) (b : Byte) : (s.feed b).frmAct = s.frmAct := by
  unfold State.feed; (repeat' split) <;> rfl
@[simp] theorem State.feed_busy (s : State) (b : Byte) : (s.feed b).busy = s.busy := by
  unfold State.feed; (repeat' split) <;> rfl
@[simp] theorem State.feed_encJob (s : State) (b : Byte) : (s.feed b).encJob = s.encJob := by
  unfold State.feed; (repeat' split) <;> rfl
@[simp] theorem State.feed_encByte (s : State) (b : Byte) : (s.feed b).encByte = s.encByte := by
  unfold State.feed; (repeat' split) <;> rfl
@[simp] theorem State.feed_encCrcEn (s : State) (b : Byte) : (s.feed b).encCrcEn = s.encCrcEn := by
  unfold State.feed; (repeat' split) <;> rfl
@[simp] theorem State.feed_encBit (s : State) (b : Byte) : (s.feed b).encBit = s.encBit := by
  unfold State.feed; (repeat' split) <;> rfl
@[simp] theorem State.feed_encStuff (s : State) (b : Byte) : (s.feed b).encStuff = s.encStuff := by
  unfold State.feed; (repeat' split) <;> rfl
@[simp] theorem State.feed_encFlagsLeft (s : State) (b : Byte) : (s.feed b).encFlagsLeft = s.encFlagsLeft := by
  unfold State.feed; (repeat' split) <;> rfl
@[simp] theorem State.feed_encEndStage (s : State) (b : Byte) : (s.feed b).encEndStage = s.encEndStage := by
  unfold State.feed; (repeat' split) <;> rfl
@[simp] theorem State.feed_ctrl (s : State) (b : Byte) : (s.feed b).ctrl = s.ctrl := by
  unfold State.feed; (repeat' split) <;> rfl
@[simp] theorem State.feed_dlFlag (s : State) (b : Byte) : (s.feed b).dlFlag = s.dlFlag := by
  unfold State.feed; (repeat' split) <;> rfl
@[simp] theorem State.feed_dlCount (s : State) (b : Byte) : (s.feed b).dlCount = s.dlCount := by
  unfold State.feed; (repeat' split) <;> rfl
@[simp] theorem State.feed_smpCount (s : State) (b : Byte) : (s.feed b).smpCount = s.smpCount := by
  unfold State.feed; (repeat' split) <;> rfl
@[simp] theorem State.feed_waveIdx (s : State) (b : Byte) : (s.feed b).waveIdx = s.waveIdx := by
  unfold State.feed; (repeat' split) <;> rfl
@[simp] theorem State.feed_dac (s : State) (b : Byte) : (s.feed b).dac = s.dac := by
  unfold State.feed; (repeat' split) <;> rfl
@[simp] theorem State.feed_res (s : State) (b : Byte) : (s.feed b).res = s.res := by
  unfold State.feed; (repeat' split) <;> rfl
@[simp] theorem State.feed_err (s : State) (b : Byte) : (s.feed b).err = s.err := by
  unfold State.feed; (repeat' split) <;> rfl
@[simp] theorem State.feed_errCause (s : State) (b : Byte) : (s.feed b).errCause = s.errCause := by
  unfold State.feed; (repeat' split) <;> rfl
@[simp] theorem State.feed_errOp (s : State) (b : Byte) : (s.feed b).errOp = s.errOp := by
  unfold State.feed; (repeat' split) <;> rfl
@[simp] theorem State.feed_txTrace (s : State) (b : Byte) : (s.feed b).txTrace = s.txTrace := by
  unfold State.feed; (repeat' split) <;> rfl
@[simp] theorem State.feed_lineTrace (s : State) (b : Byte) : (s.feed b).lineTrace = s.lineTrace := by
  unfold State.feed; (repeat' split) <;> rfl
@[simp] theorem State.feed_dacTrace (s : State) (b : Byte) : (s.feed b).dacTrace = s.dacTrace := by
  unfold State.feed; (repeat' split) <;> rfl
@[simp] theorem State.feed_cmds (s : State) (b : Byte) : (s.feed b).cmds = s.cmds := by
  unfold State.feed; (repeat' split) <;> rfl
@[simp] theorem State.feed_agenda (s : State) (b : Byte) : (s.feed b).agenda = s.agenda := by
  unfold State.feed; (repeat' split) <;> rfl

/-! `State.prime` -/

@[simp] theorem State.prime_cfg (s : State) : (s.prime).cfg = s.cfg := by
  unfold State.prime; (repeat' split) <;> rfl
@[simp] theorem State.prime_rx (s : State) : (s.prime).rx = s.rx := by
  unfold State.prime; (repeat' split) <;> rfl
@[simp] theorem State.prime_stype (s : State) : (s.prime).stype = s.stype := by
  unfold State.prime; (repeat' split) <;> rfl
@[simp] theorem State.prime_comma (s : State) : (s.prime).comma = s.comma := by
  unfold State.prime; (repeat' split) <;> rfl
@[simp] theorem State.prime_cidx (s : State) : (s.prime).cidx = s.cidx := by
  unfold State.prime; (repeat' split) <;> rfl
@[simp] theorem State.prime_tmp (s : State) : (s.prime).tmp = s.tmp := by
  unfold State.prime; (repeat' split) <;> rfl
@[simp] theorem State.prime_fix (s : State) : (s.prime).fix = s.fix := by
  unfold State.prime; (repeat' split) <;> rfl
@[simp] theorem State.prime_crc (s : State) : (s.prime).crc = s.crc := by
  unfold State.prime; (repeat' split) <;> rfl
@[simp] theorem State.prime_ones (s : State) : (s.prime).ones = s.ones := by
  unfold State.prime; (repeat' split) <;> rfl
@[simp] theorem State.prime_frmAct (s : State) : (s.prime).frmAct = s.frmAct := by
  unfold State.prime; (repeat' split) <;> rfl
@[simp] theorem State.prime_busy (s : State) : (s.prime).busy = s.busy := by
  unfold State.prime; (repeat' split) <;> rfl
@[simp] theorem State.prime_encJob (s : State) : (s.prime).encJob = s.encJob := by
  unfold State.prime; (repeat' split) <;> rfl
@[simp] theorem State.prime_encByte (s : State) : (s.prime).encByte = s.encByte := by
  unfold State.prime; (repeat' split) <;> rfl
@[simp] theorem State.prime_encCrcEn (s : State) : (s.prime).encCrcEn = s.encCrcEn := by
  unfold State.prime; (repeat' split) <;> rfl
@[simp] theorem State.prime_encBit (s : State) : (s.prime).encBit = s.encBit := by
  unfold State.prime; (repeat' split) <;> rfl
@[simp] theorem State.prime_encStuff (s : State) : (s.prime).encStuff = s.encStuff := by
  unfold State.prime; (repeat' split) <;> rfl
@[simp] theorem State.prime_encFlagsLeft (s : State) : (s.prime).encFlagsLeft = s.encFlagsLeft := by
  unfold State.prime; (repeat' split) <;> rfl
@[simp] theorem State.prime_encEndStage (s : State) : (s.prime).encEndStage = s.encEndStage := by
  unfold State.prime; (repeat' split) <;> rfl
@[simp] theorem State.prime_ctrl (s : State) : (s.prime).ctrl = s.ctrl := by
  unfold State.prime; (repeat' split) <;> rfl
@[simp] theorem State.prime_dlFlag (s : State) : (s.prime).dlFlag = s.dlFlag := by
  unfold State.prime; (repeat' split) <;> rfl
@[simp] theorem State.prime_dlCount (s : State) : (s.prime).dlCount = s.dlCount := by
  unfold State.prime; (repeat' split) <;> rfl
@[simp] theorem State.prime_smpCount (s : State) : (s.prime).smpCount = s.smpCount := by
  unfold State.prime; (repeat' split) <;> rfl
@[simp] theorem State.prime_waveIdx (s : State) : (s.prime).waveIdx = s.waveIdx := by
  unfold State.prime; (repeat' split) <;> rfl
@[simp] theorem State.prime_dac (s : State) : (s.prime).dac = s.dac := by
  unfold State.prime; (repeat' split) <;> rfl
@[simp] theorem State.prime_res (s : State) : (s.prime).res = s.res := by
  unfold State.prime; (repeat' split) <;> rfl
@[simp] theorem State.prime_err (s : State) : (s.prime).err = s.err := by
  unfold State.prime; (repeat' split) <;> rfl
@[simp] theorem State.prime_errCause (s : State) : (s.prime).errCause = s.errCause := by
  unfold State.prime; (repeat' split) <;> rfl
@[simp] theorem State.prime_errOp (s : State) : (s.prime).errOp = s.errOp := by
  unfold State.prime; (repeat' split) <;> rfl
@[simp] theorem State.prime_lineTrace (s : State) : (s.prime).lineTrace = s.lineTrace := by
  unfold State.prime; (repeat' split) <;> rfl
@[simp] theorem State.prime_dacTrace (s : State) : (s.prime).dacTrace = s.dacTrace := by
  unfold State.prime; (repeat' split) <;> rfl
@[simp] theorem State.prime_cmds (s : State) : (s.prime).cmds = s.cmds := by
  unfold State.prime; (repeat' split) <;> rfl
@[simp] theorem State.prime_agenda (s : State) : (s.prime).agenda = s.agenda := by
  unfold State.prime; (repeat' split) <;> rfl

/-! `State.codeBit` -/

@[simp] theorem State.codeBit_cfg (s : State) (fl bit : Bool) : (s.codeBit fl bit).cfg = s.cfg := by
  unfold State.codeBit; (repeat' split) <;> rfl
@[simp] theorem State.codeBit_rx (s : State) (fl bit : Bool) : (s.codeBit fl bit).rx = s.rx := by
  unfold State.codeBit; (repeat' split) <;> rfl
@[simp] theorem State.codeBit_tx (s : State) (fl bit : Bool) : (s.codeBit fl bit).tx = s.tx := by
  unfold State.codeBit; (repeat' split) <;> rfl
@[simp] theorem State.codeBit_txAct (s : State) (fl bit : Bool) : (s.codeBit fl bit).txAct = s.txAct := by
  unfold State.codeBit; (repeat' split) <;> rfl
@[simp] theorem State.codeBit_stype (s : State) (fl bit : Bool) : (s.codeBit fl bit).stype = s.stype := by
  unfold State.codeBit; (repeat' split) <;> rfl
@[simp] theorem State.codeBit_comma (s : State) (fl bit : Bool) : (s.codeBit fl bit).comma = s.comma := by
  unfold State.codeBit; (repeat' split) <;> rfl
@[simp] theorem State.codeBit_cidx (s : State) (fl bit : Bool) : (s.codeBit fl bit).cidx = s.cidx := by
  unfold State.codeBit; (repeat' split) <;> rfl
@[simp] theorem State.codeBit_tmp (s : State) (fl bit : Bool) : (s.codeBit fl bit).tmp = s.tmp := by
  unfold State.codeBit; (repeat' split) <;> rfl
@[simp] theorem State.codeBit_fix (s : State) (fl bit : Bool) : (s.codeBit fl bit).fix = s.fix := by
  unfold State.codeBit; (repeat' split) <;> rfl
@[simp] theorem State.codeBit_crc (s : State) (fl bit : Bool) : (s.codeBit fl bit).crc = s.crc := by
  unfold State.codeBit; (repeat' split) <;> rfl
@[simp] theorem State.codeBit_frmAct (s : State) (fl bit : Bool) : (s.codeBit fl bit).frmAct = s.frmAct := by
  unfold State.codeBit; (repeat' split) <;> rfl
@[simp] theorem State.codeBit_busy (s : State) (fl bit : Bool) : (s.codeBit fl bit).busy = s.busy := by
  unfold State.codeBit; (repeat' split) <;> rfl
@[simp] theorem State.codeBit_encJob (s : State) (fl bit : Bool) : (s.codeBit fl bit).encJob = s.encJob := by
  unfold State.codeBit; (repeat' split) <;> rfl
@[simp] theorem State.codeBit_encByte (s : State) (fl bit : Bool) : (s.codeBit fl bit).encByte = s.encByte := by
  unfold State.codeBit; (repeat' split) <;> rfl
@[simp] theorem State.codeBit_encCrcEn (s : State) (fl bit : Bool) : (s.codeBit fl bit).encCrcEn = s.encCrcEn := by
  unfold State.codeBit; (repeat' split) <;> rfl
@[simp] theorem State.codeBit_encBit (s : State) (fl bit : Bool) : (s.codeBit fl bit).encBit = s.encBit := by
  unfold State.codeBit; (repeat' split) <;> rfl
@[simp] theorem State.codeBit_encStuff (s : State) (fl bit : Bool) : (s.codeBit fl bit).encStuff = s.encStuff := by
  unfold State.codeBit; (repeat' split) <;> rfl
@[simp] theorem State.codeBit_encFlagsLeft (s : State) (fl bit : Bool) : (s.codeBit fl bit).encFlagsLeft = s.encFlagsLeft := by
  unfold State.codeBit; (repeat' split) <;> rfl
@[simp] theorem State.codeBit_encEndStage (s : State) (fl bit : Bool) : (s.codeBit fl bit).encEndStage = s.encEndStage := by
  unfold State.codeBit; (repeat' split) <;> rfl
@[simp] theorem State.codeBit_dlFlag (s : State) (fl bit : Bool) : (s.codeBit fl bit).dlFlag = s.dlFlag := by
  unfold State.codeBit; (repeat' split) <;> rfl
@[simp] theorem State.codeBit_dlCount (s : State) (fl bit : Bool) : (s.codeBit fl bit).dlCount = s.dlCount := by
  unfold State.codeBit; (repeat' split) <;> rfl
@[simp] theorem State.codeBit_smpCount (s : State) (fl bit : Bool) : (s.codeBit fl bit).smpCount = s.smpCount := by
  unfold State.codeBit; (repeat' split) <;> rfl
@[simp] theorem State.codeBit_waveIdx (s : State) (fl bit : Bool) : (s.codeBit fl bit).waveIdx = s.waveIdx := by
  unfold State.codeBit; (repeat' split) <;> rfl
@[simp] theorem State.codeBit_dac (s : State) (fl bit : Bool) : (s.codeBit fl bit).dac = s.dac := by
  unfold State.codeBit; (repeat' split) <;> rfl
@[simp] theorem State.codeBit_res (s : State) (fl bit : Bool) : (s.codeBit fl bit).res = s.res := by
  unfold State.codeBit; (repeat' split) <;> rfl
@[simp] theorem State.codeBit_err (s : State) (fl bit : Bool) : (s.codeBit fl bit).err = s.err := by
  unfold State.codeBit; (repeat' split) <;> rfl
@[simp] theorem State.codeBit_errCause (s : State) (fl bit : Bool) : (s.codeBit fl bit).errCause = s.errCause := by
  unfold State.codeBit; (repeat' split) <;> rfl
@[simp] theorem State.codeBit_errOp (s : State) (fl bit : Bool) : (s.codeBit fl bit).errOp = s.errOp := by
  unfold State.codeBit; (repeat' split) <;> rfl
@[simp] theorem State.codeBit_txTrace (s : State) (fl bit : Bool) : (s.codeBit fl bit).txTrace = s.txTrace := by
  unfold State.codeBit; (repeat' split) <;> rfl
@[simp] theorem State.codeBit_lineTrace (s : State) (fl bit : Bool) : (s.codeBit fl bit).lineTrace = s.lineTrace := by
  unfold State.codeBit; (repeat' split) <;> rfl
@[simp] theorem State.codeBit_dacTrace (s : State) (fl bit : Bool) : (s.codeBit fl bit).dacTrace = s.dacTrace := by
  unfold State.codeBit; (repeat' split) <;> rfl
@[simp] theorem State.codeBit_cmds (s : State) (fl bit : Bool) : (s.codeBit fl bit).cmds = s.cmds := by
  unfold State.codeBit; (repeat' split) <;> rfl
@[simp] theorem State.codeBit_agenda (s : State) (fl bit : Bool) : (s.codeBit fl bit).agenda = s.agenda := by
  unfold State.codeBit; (repeat' split) <;> rfl

/-! `txEmptyEvent` -/

@[simp] theorem txEmptyEvent_cfg (s : State) : (txEmptyEvent s).cfg = s.cfg := by
  unfold txEmptyEvent; (repeat' split) <;> rfl
@[simp] theorem txEmptyEvent_rx (s : State) : (txEmptyEvent s).rx = s.rx := by
  unfold txEmptyEvent; (repeat' split) <;> rfl
@[simp] theorem txEmptyEvent_stype (s : State) : (txEmptyEvent s).stype = s.stype := by
  unfold txEmptyEvent; (repeat' split) <;> rfl
@[simp] theorem txEmptyEvent_comma (s : State) : (txEmptyEvent s).comma = s.comma := by
  unfold txEmptyEvent; (repeat' split) <;> rfl
@[simp] theorem txEmptyEvent_cidx (s : State) : (txEmptyEvent s).cidx = s.cidx := by
  unfold txEmptyEvent; (repeat' split) <;> rfl
@[simp] theorem txEmptyEvent_tmp (s : State) : (txEmptyEvent s).tmp = s.tmp := by
  unfold txEmptyEvent; (repeat' split) <;> rfl
@[simp] theorem txEmptyEvent_fix (s : State) : (txEmptyEvent s).fix = s.fix := by
  unfold txEmptyEvent; (repeat' split) <;> rfl
@[simp] theorem txEmptyEvent_crc (s : State) : (txEmptyEvent s).crc = s.crc := by
  unfold txEmptyEvent; (repeat' split) <;> rfl
@[simp] theorem txEmptyEvent_ones (s : State) : (txEmptyEvent s).ones = s.ones := by
  unfold txEmptyEvent; (repeat' split) <;> rfl
@[simp] theorem txEmptyEvent_frmAct (s : State) : (txEmptyEvent s).frmAct = s.frmAct := by
  unfold txEmptyEvent; (repeat' split) <;> rfl
@[simp] theorem txEmptyEvent_busy (s : State) : (txEmptyEvent s).busy = s.busy := by
  unfold txEmptyEvent; (repeat' split) <;> rfl
@[simp] theorem txEmptyEvent_encJob (s : State) : (txEmptyEvent s).encJob = s.encJob := by
  unfold txEmptyEvent; (repeat' split) <;> rfl
@[simp] theorem txEmptyEvent_encByte (s : State) : (txEmptyEvent s).encByte = s.encByte := by
  unfold txEmptyEvent; (repeat' split) <;> rfl
@[simp] theorem txEmptyEvent_encCrcEn (s : State) : (txEmptyEvent s).encCrcEn = s.encCrcEn := by
  unfold txEmptyEvent; (repeat' split) <;> rfl
@[simp] theorem txEmptyEvent_encBit (s : State) : (txEmptyEvent s).encBit = s.encBit := by
  unfold txEmptyEvent; (repeat' split) <;> rfl
@[simp] theorem txEmptyEvent_encStuff (s : State) : (txEmptyEvent s).encStuff = s.encStuff := by
  unfold txEmptyEvent; (repeat' split) <;> rfl
@[simp] theorem txEmptyEvent_encFlagsLeft (s : State) : (txEmptyEvent s).encFlagsLeft = s.encFlagsLeft := by
  unfold txEmptyEvent; (repeat' split) <;> rfl
@[simp] theorem txEmptyEvent_encEndStage (s : State) : (txEmptyEvent s).encEndStage = s.encEndStage := by
  unfold txEmptyEvent; (repeat' split) <;> rfl
@[simp] theorem txEmptyEvent_ctrl (s : State) : (txEmptyEvent s).ctrl = s.ctrl := by
  unfold txEmptyEvent; (repeat' split) <;> rfl
@[simp] theorem txEmptyEvent_dlFlag (s : State) : (txEmptyEvent s).dlFlag = s.dlFlag := by
  unfold txEmptyEvent; (repeat' split) <;> rfl
@[simp] theorem txEmptyEvent_dlCount (s : State) : (txEmptyEvent s).dlCount = s.dlCount := by
  unfold txEmptyEvent; (repeat' split) <;> rfl
@[simp] theorem txEmptyEvent_smpCount (s : State) : (txEmptyEvent s).smpCount = s.smpCount := by
  unfold txEmptyEvent; (repeat' split) <;> rfl
@[simp] theorem txEmptyEvent_waveIdx (s : State) : (txEmptyEvent s).waveIdx = s.waveIdx := by
  unfold txEmptyEvent; (repeat' split) <;> rfl
@[simp] theorem txEmptyEvent_dac (s : State) : (txEmptyEvent s).dac = s.dac := by
  unfold txEmptyEvent; (repeat' split) <;> rfl
@[simp] theorem txEmptyEvent_res (s : State) : (txEmptyEvent s).res = s.res := by
  unfold txEmptyEvent; (repeat' split) <;> rfl
@[simp] theorem txEmptyEvent_err (s : State) : (txEmptyEvent s).err = s.err := by
  unfold txEmptyEvent; (repeat' split) <;> rfl
@[simp] theorem txEmptyEvent_errCause (s : State) : (txEmptyEvent s).errCause = s.errCause := by
  unfold txEmptyEvent; (repeat' split) <;> rfl
@[simp] theorem txEmptyEvent_errOp (s : State) : (txEmptyEvent s).errOp = s.errOp := by
  unfold txEmptyEvent; (repeat' split) <;> rfl
@[simp] theorem txEmptyEvent_lineTrace (s : State) : (txEmptyEvent s).lineTrace = s.lineTrace := by
  unfold txEmptyEvent; (repeat' split) <;> rfl
@[simp] theorem txEmptyEvent_dacTrace (s : State) : (txEmptyEvent s).dacTrace = s.dacTrace := by
  unfold txEmptyEvent; (repeat' split) <;> rfl
@[simp] theorem txEmptyEvent_cmds (s : State) : (txEmptyEvent s).cmds = s.cmds := by
  unfold txEmptyEvent; (repeat' split) <;> rfl
@[simp] theorem txEmptyEvent_agenda (s : State) : (txEmptyEvent s).agenda = s.agenda := by
  unfold txEmptyEvent; (repeat' split) <;> rfl

/-! `tickDeadline` -/

@[simp] theorem tickDeadline_cfg (s : State) : (tickDeadline s).cfg = s.cfg := by
  unfold tickDeadline; (repeat' split) <;> rfl
@[simp] theorem tickDeadline_rx (s : State) : (tickDeadline s).rx = s.rx := by
  unfold tickDeadline; (repeat' split) <;> rfl
@[simp] theorem tickDeadline_tx (s : State) : (tickDeadline s).tx = s.tx := by
  unfold tickDeadline; (repeat' split) <;> rfl
@[simp] theorem tickDeadline_txAct (s : State) : (tickDeadline s).txAct = s.txAct := by
  unfold tickDeadline; (repeat' split) <;> rfl
@[simp] theorem tickDeadline_stype (s : State) : (tickDeadline s).stype = s.stype := by
  unfold tickDeadline; (repeat' split) <;> rfl
@[simp] theorem tickDeadline_comma (s : State) : (tickDeadline s).comma = s.comma := by
  unfold tickDeadline; (repeat' split) <;> rfl
@[simp] theorem tickDeadline_cidx (s : State) : (tickDeadline s).cidx = s.cidx := by
  unfold tickDeadline; (repeat' split) <;> rfl
@[simp] theorem tickDeadline_tmp (s : State) : (tickDeadline s).tmp = s.tmp := by
  unfold tickDeadline; (repeat' split) <;> rfl
@[simp] theorem tickDeadline_fix (s : State) : (tickDeadline s).fix = s.fix := by
  unfold tickDeadline; (repeat' split) <;> rfl
@[simp] theorem tickDeadline_crc (s : State) : (tickDeadline s).crc = s.crc := by
  unfold tickDeadline; (repeat' split) <;> rfl
@[simp] theorem tickDeadline_ones (s : State) : (tickDeadline s).ones = s.ones := by
  unfold tickDeadline; (repeat' split) <;> rfl
@[simp] theorem tickDeadline_frmAct (s : State) : (tickDeadline s).frmAct = s.frmAct := by
  unfold tickDeadline; (repeat' split) <;> rfl
@[simp] theorem tickDeadline_busy (s : State) : (tickDeadline s).busy = s.busy := by
  unfold tickDeadline; (repeat' split) <;> rfl
@[simp] theorem tickDeadline_encJob (s : State) : (tickDeadline s).encJob = s.encJob := by
  unfold tickDeadline; (repeat' split) <;> rfl
@[simp] theorem tickDeadline_encByte (s : State) : (tickDeadline s).encByte = s.encByte := by
  unfold tickDeadline; (repeat' split) <;> rfl
@[simp] theorem tickDeadline_encCrcEn (s : State) : (tickDeadline s).encCrcEn = s.encCrcEn := by
  unfold tickDeadline; (repeat' split) <;> rfl
@[simp] theorem tickDeadline_encBit (s : State) : (tickDeadline s).encBit = s.encBit := by
  unfold tickDeadline; (repeat' split) <;> rfl
@[simp] theorem tickDeadline_encStuff (s : State) : (tickDeadline s).encStuff = s.encStuff := by
  unfold tickDeadline; (repeat' split) <;> rfl
@[simp] theorem tickDeadline_encFlagsLeft (s : State) : (tickDeadline s).encFlagsLeft = s.encFlagsLeft := by
  unfold tickDeadline; (repeat' split) <;> rfl
@[simp] theorem tickDeadline_encEndStage (s : State) : (tickDeadline s).encEndStage = s.encEndStage := by
  unfold tickDeadline; (repeat' split) <;> rfl
@[simp] theorem tickDeadline_ctrl (s : State) : (tickDeadline s).ctrl = s.ctrl := by
  unfold tickDeadline; (repeat' split) <;> rfl
@[simp] theorem tickDeadline_smpCount (s : State) : (tickDeadline s).smpCount = s.smpCount := by
  unfold tickDeadline; (repeat' split) <;> rfl
@[simp] theorem tickDeadline_waveIdx (s : State) : (tickDeadline s).waveIdx = s.waveIdx := by
  unfold tickDeadline; (repeat' split) <;> rfl
@[simp] theorem tickDeadline_dac (s : State) : (tickDeadline s).dac = s.dac := by
  unfold tickDeadline; (repeat' split) <;> rfl
@[simp] theorem tickDeadline_res (s : State) : (tickDeadline s).res = s.res := by
  unfold tickDeadline; (repeat' split) <;> rfl
@[simp] theorem tickDeadline_err (s : State) : (tickDeadline s).err = s.err := by
  unfold tickDeadline; (repeat' split) <;> rfl
@[simp] theorem tickDeadline_errCause (s : State) : (tickDeadline s).errCause = s.errCause := by
  unfold tickDeadline; (repeat' split) <;> rfl
@[simp] theorem tickDeadline_errOp (s : State) : (tickDeadline s).errOp = s.errOp := by
  unfold tickDeadline; (repeat' split) <;> rfl
@[simp] theorem tickDeadline_txTrace (s : State) : (tickDeadline s).txTrace = s.txTrace := by
  unfold tickDeadline; (repeat' split) <;> rfl
@[simp] theorem tickDeadline_lineTrace (s : State) : (tickDeadline s).lineTrace = s.lineTrace := by
  unfold tickDeadline; (repeat' split) <;> rfl
@[simp] theorem tickDeadline_dacTrace (s : State) : (tickDeadline s).dacTrace = s.dacTrace := by
  unfold tickDeadline; (repeat' split) <;> rfl
@[simp] theorem tickDeadline_cmds (s : State) : (tickDeadline s).cmds = s.cmds := by
  unfold tickDeadline; (repeat' split) <;> rfl
@[simp] theorem tickDeadline_agenda (s : State) : (tickDeadline s).agenda = s.agenda := by
  unfold tickDeadline; (repeat' split) <;> rfl

/-! `tickSample` -/

@[simp] theorem tickSample_cfg (s : State) : (tickSample s).cfg = s.cfg := by
  unfold tickSample; (repeat' split) <;> rfl
@[simp] theorem tickSample_rx (s : State) : (tickSample s).rx = s.rx := by
  unfold tickSample; (repeat' split) <;> rfl
@[simp] theorem tickSample_tx (s : State) : (tickSample s).tx = s.tx := by
  unfold tickSample; (repeat' split) <;> rfl
@[simp] theorem tickSample_txAct (s : State) : (tickSample s).txAct = s.txAct := by
  unfold tickSample; (repeat' split) <;> rfl
@[simp] theorem tickSample_stype (s : State) : (tickSample s).stype = s.stype := by
  unfold tickSample; (repeat' split) <;> rfl
@[simp] theorem tickSample_comma (s : State) : (tickSample s).comma = s.comma := by
  unfold tickSample; (repeat' split) <;> rfl
@[simp] theorem tickSample_cidx (s : State) : (tickSample s).cidx = s.cidx := by
  unfold tickSample; (repeat' split) <;> rfl
@[simp] theorem tickSample_tmp (s : State) : (tickSample s).tmp = s.tmp := by
  unfold tickSample; (repeat' split) <;> rfl
@[simp] theorem tickSample_fix (s : State) : (tickSample s).fix = s.fix := by
  unfold tickSample; (repeat' split) <;> rfl
@[simp] theorem tickSample_crc (s : State) : (tickSample s).crc = s.crc := by
  unfold tickSample; (repeat' split) <;> rfl
@[simp] theorem tickSample_ones (s : State) : (tickSample s).ones = s.ones := by
  unfold tickSample; (repeat' split) <;> rfl
@[simp] theorem tickSample_frmAct (s : State) : (tickSample s).frmAct = s.frmAct := by
  unfold tickSample; (repeat' split) <;> rfl
@[simp] theorem tickSample_busy (s : State) : (tickSample s).busy = s.busy := by
  unfold tickSample; (repeat' split) <;> rfl
@[simp] theorem tickSample_encJob (s : State) : (tickSample s).encJob = s.encJob := by
  unfold tickSample; (repeat' split) <;> rfl
@[simp] theorem tickSample_encByte (s : State) : (tickSample s).encByte = s.encByte := by
  unfold tickSample; (repeat' split) <;> rfl
@[simp] theorem tickSample_encCrcEn (s : State) : (tickSample s).encCrcEn = s.encCrcEn := by
  unfold tickSample; (repeat' split) <;> rfl
@[simp] theorem tickSample_encBit (s : State) : (tickSample s).encBit = s.encBit := by
  unfold tickSample; (repeat' split) <;> rfl
@[simp] theorem tickSample_encStuff (s : State) : (tickSample s).encStuff = s.encStuff := by
  unfold tickSample; (repeat' split) <;> rfl
@[simp] theorem tickSample_encFlagsLeft (s : State) : (tickSample s).encFlagsLeft = s.encFlagsLeft := by
  unfold tickSample; (repeat' split) <;> rfl
@[simp] theorem tickSample_encEndStage (s : State) : (tickSample s).encEndStage = s.encEndStage := by
  unfold tickSample; (repeat' split) <;> rfl
@[simp] theorem tickSample_ctrl (s : State) : (tickSample s).ctrl = s.ctrl := by
  unfold tickSample; (repeat' split) <;> rfl
@[simp] theorem tickSample_dlFlag (s : State) : (tickSample s).dlFlag = s.dlFlag := by
  unfold tickSample; (repeat' split) <;> rfl
@[simp] theorem tickSample_dlCount (s : State) : (tickSample s).dlCount = s.dlCount := by
  unfold tickSample; (repeat' split) <;> rfl
@[simp] theorem tickSample_res (s : State) : (tickSample s).res = s.res := by
  unfold tickSample; (repeat' split) <;> rfl
@[simp] theorem tickSample_err (s : State) : (tickSample s).err = s.err := by
  unfold tickSample; (repeat' split) <;> rfl
@[simp] theorem tickSample_errCause (s : State) : (tickSample s).errCause = s.errCause := by
  unfold tickSample; (repeat' split) <;> rfl
@[simp] theorem tickSample_errOp (s : State) : (tickSample s).errOp = s.errOp := by
  unfold tickSample; (repeat' split) <;> rfl
@[simp] theorem tickSample_txTrace (s : State) : (tickSample s).txTrace = s.txTrace := by
  unfold tickSample; (repeat' split) <;> rfl
@[simp] theorem tickSample_lineTrace (s : State) : (tickSample s).lineTrace = s.lineTrace := by
  unfold tickSample; (repeat' split) <;> rfl
@[simp] theorem tickSample_cmds (s : State) : (tickSample s).cmds = s.cmds := by
  unfold tickSample; (repeat' split) <;> rfl
@[simp] theorem tickSample_agenda (s : State) : (tickSample s).agenda = s.agenda := by
  unfold tickSample; (repeat' split) <;> rfl

/-! `State.finish` -/

@[simp] theorem State.finish_cfg (s : State) : (s.finish).cfg = s.cfg := by
  unfold State.finish; (repeat' split) <;> rfl
@[simp] theorem State.finish_rx (s : State) : (s.finish).rx = s.rx := by
  unfold State.finish; (repeat' split) <;> rfl
@[simp] theorem State.finish_tx (s : State) : (s.finish).tx = s.tx := by
  unfold State.finish; (repeat' split) <;> rfl
@[simp] theorem State.finish_txAct (s : State) : (s.finish).txAct = s.txAct := by
  unfold State.finish; (repeat' split) <;> rfl
@[simp] theorem State.finish_stype (s : State) : (s.finish).stype = s.stype := by
  unfold State.finish; (repeat' split) <;> rfl
@[simp] theorem State.finish_comma (s : State) : (s.finish).comma = s.comma := by
  unfold State.finish; (repeat' split) <;> rfl
@[simp] theorem State.finish_cidx (s : State) : (s.finish).cidx = s.cidx := by
  unfold State.finish; (repeat' split) <;> rfl
@[simp] theorem State.finish_tmp (s : State) : (s.finish).tmp = s.tmp := by
  unfold State.finish; (repeat' split) <;> rfl
@[simp] theorem State.finish_fix (s : State) : (s.finish).fix = s.fix := by
  unfold State.finish; (repeat' split) <;> rfl
@[simp] theorem State.finish_crc (s : State) : (s.finish).crc = s.crc := by
  unfold State.finish; (repeat' split) <;> rfl
@[simp] theorem State.finish_ones (s : State) : (s.finish).ones = s.ones := by
  unfold State.finish; (repeat' split) <;> rfl
@[simp] theorem State.finish_encByte (s : State) : (s.finish).encByte = s.encByte := by
  unfold State.finish; (repeat' split) <;> rfl
@[simp] theorem State.finish_encCrcEn (s : State) : (s.finish).encCrcEn = s.encCrcEn := by
  unfold State.finish; (repeat' split) <;> rfl
@[simp] theorem State.finish_encBit (s : State) : (s.finish).encBit = s.encBit := by
  unfold State.finish; (repeat' split) <;> rfl
@[simp] theorem State.finish_encStuff (s : State) : (s.finish).encStuff = s.encStuff := by
  unfold State.finish; (repeat' split) <;> rfl
@[simp] theorem State.finish_encFlagsLeft (s : State) : (s.finish).encFlagsLeft = s.encFlagsLeft := by
  unfold State.finish; (repeat' split) <;> rfl
@[simp] theorem State.finish_encEndStage (s : State) : (s.finish).encEndStage = s.encEndStage := by
  unfold State.finish; (repeat' split) <;> rfl
@[simp] theorem State.finish_dlFlag (s : State) : (s.finish).dlFlag = s.dlFlag := by
  unfold State.finish; (repeat' split) <;> rfl
@[simp] theorem State.finish_dlCount (s : State) : (s.finish).dlCount = s.dlCount := by
  unfold State.finish; (repeat' split) <;> rfl
@[simp] theorem State.finish_smpCount (s : State) : (s.finish).smpCount = s.smpCount := by
  unfold State.finish; (repeat' split) <;> rfl
@[simp] theorem State.finish_waveIdx (s : State) : (s.finish).waveIdx = s.waveIdx := by
  unfold State.finish; (repeat' split) <;> rfl
@[simp] theorem State.finish_dac (s : State) : (s.finish).dac = s.dac := by
  unfold State.finish; (repeat' split) <;> rfl
@[simp] theorem State.finish_res (s : State) : (s.finish).res = s.res := by
  unfold State.finish; (repeat' split) <;> rfl
@[simp] theorem State.finish_err (s : State) : (s.finish).err = s.err := by
  unfold State.finish; (repeat' split) <;> rfl
@[simp] theorem State.finish_errCause (s : State) : (s.finish).errCause = s.errCause := by
  unfold State.finish; (repeat' split) <;> rfl
@[simp] theorem State.finish_errOp (s : State) : (s.finish).errOp = s.errOp := by
  unfold State.finish; (repeat' split) <;> rfl
@[simp] theorem State.finish_txTrace (s : State) : (s.finish).txTrace = s.txTrace := by
  unfold State.finish; (repeat' split) <;> rfl
@[simp] theorem State.finish_lineTrace (s : State) : (s.finish).lineTrace = s.lineTrace := by
  unfold State.finish; (repeat' split) <;> rfl
@[simp] theorem State.finish_dacTrace (s : State) : (s.finish).dacTrace = s.dacTrace := by
  unfold State.finish; (repeat' split) <;> rfl
@[simp] theorem State.finish_cmds (s : State) : (s.finish).cmds = s.cmds := by
  unfold State.finish; (repeat' split) <;> rfl
@[simp] theorem State.finish_agenda (s : State) : (s.finish).agenda = s.agenda := by
  unfold State.finish; (repeat' split) <;> rfl

/-! Composite updates: the fields they leave alone -/

@[simp] theorem tickEvent_cfg (s : State) : (tickEvent s).cfg = s.cfg := by
  simp [tickEvent]
@[simp] theorem tickEvent_rx (s : State) : (tickEvent s).rx = s.rx := by
  simp [tickEvent]
@[simp] theorem tickEvent_tx (s : State) : (tickEvent s).tx = s.tx := by
  simp [tickEvent]
@[simp] theorem tickEvent_txAct (s : State) : (tickEvent s).txAct = s.txAct := by
  simp [tickEvent]
@[simp] theorem tickEvent_stype (s : State) : (tickEvent s).stype = s.stype := by
  simp [tickEvent]
@[simp] theorem tickEvent_comma (s : State) : (tickEvent s).comma = s.comma := by
  simp [tickEvent]
@[simp] theorem tickEvent_cidx (s : State) : (tickEvent s).cidx = s.cidx := by
  simp [tickEvent]
@[simp] theorem tickEvent_tmp (s : State) : (tickEvent s).tmp = s.tmp := by
  simp [tickEvent]
@[simp] theorem tickEvent_fix (s : State) : (tickEvent s).fix = s.fix := by
  simp [tickEvent]
@[simp] theorem tickEvent_crc (s : State) : (tickEvent s).crc = s.crc := by
  simp [tickEvent]
@[simp] theorem tickEvent_ones (s : State) : (tickEvent s).ones = s.ones := by
  simp [tickEvent]
@[simp] theorem tickEvent_frmAct (s : State) : (tickEvent s).frmAct = s.frmAct := by
  simp [tickEvent]
@[simp] theorem tickEvent_busy (s : State) : (tickEvent s).busy = s.busy := by
  simp [tickEvent]
@[simp] theorem tickEvent_encJob (s : State) : (tickEvent s).encJob = s.encJob := by
  simp [tickEvent]
@[simp] theorem tickEvent_encByte (s : State) : (tickEvent s).encByte = s.encByte := by
  simp [tickEvent]
@[simp] theorem tickEvent_encCrcEn (s : State) : (tickEvent s).encCrcEn = s.encCrcEn := by
  simp [tickEvent]
@[simp] theorem tickEvent_encBit (s : State) : (tickEvent s).encBit = s.encBit := by
  simp [tickEvent]
@[simp] theorem tickEvent_encStuff (s : State) : (tickEvent s).encStuff = s.encStuff := by
  simp [tickEvent]
@[simp] theorem tickEvent_encFlagsLeft (s : State) : (tickEvent s).encFlagsLeft = s.encFlagsLeft := by
  simp [tickEvent]
@[simp] theorem tickEvent_encEndStage (s : State) : (tickEvent s).encEndStage = s.encEndStage := by
  simp [tickEvent]
@[simp] theorem tickEvent_ctrl (s : State) : (tickEvent s).ctrl = s.ctrl := by
  simp [tickEvent]
@[simp] theorem tickEvent_res (s : State) : (tickEvent s).res = s.res := by
  simp [tickEvent]
@[simp] theorem tickEvent_err (s : State) : (tickEvent s).err = s.err := by
  simp [tickEvent]
@[simp] theorem tickEvent_errCause (s : State) : (tickEvent s).errCause = s.errCause := by
  simp [tickEvent]
@[simp] theorem tickEvent_errOp (s : State) : (tickEvent s).errOp = s.errOp := by
  simp [tickEvent]
@[simp] theorem tickEvent_txTrace (s : State) : (tickEvent s).txTrace = s.txTrace := by
  simp [tickEvent]
@[simp] theorem tickEvent_lineTrace (s : State) : (tickEvent s).lineTrace = s.lineTrace := by
  simp [tickEvent]
@[simp] theorem tickEvent_cmds (s : State) : (tickEvent s).cmds = s.cmds := by
  simp [tickEvent]
@[simp] theorem tickEvent_agenda (s : State) : (tickEvent s).agenda = s.agenda := by
  simp [tickEvent]

@[simp] theorem feederStep_cfg (s : State) : (feederStep s).cfg = s.cfg := by
  unfold feederStep; (repeat' split) <;> simp
@[simp] theorem feederStep_tx (s : State) : (feederStep s).tx = s.tx := by
  unfold feederStep; (repeat' split) <;> simp
@[simp] theorem feederStep_txAct (s : State) : (feederStep s).txAct = s.txAct := by
  unfold feederStep; (repeat' split) <;> simp
@[simp] theorem feederStep_fix (s : State) : (feederStep s).fix = s.fix := by
  unfold feederStep; (repeat' split) <;> simp
@[simp] theorem feederStep_crc (s : State) : (feederStep s).crc = s.crc := by
  unfold feederStep; (repeat' split) <;> simp
@[simp] theorem feederStep_ones (s : State) : (feederStep s).ones = s.ones := by
  unfold feederStep; (repeat' split) <;> simp
@[simp] theorem feederStep_frmAct (s : State) : (feederStep s).frmAct = s.frmAct := by
  unfold feederStep; (repeat' split) <;> simp
@[simp] theorem feederStep_busy (s : State) : (feederStep s).busy = s.busy := by
  unfold feederStep; (repeat' split) <;> simp
@[simp] theorem feederStep_encJob (s : State) : (feederStep s).encJob = s.encJob := by
  unfold feederStep; (repeat' split) <;> simp
@[simp] theorem feederStep_encByte (s : State) : (feederStep s).encByte = s.encByte := by
  unfold feederStep; (repeat' split) <;> simp
@[simp] theorem feederStep_encCrcEn (s : State) : (feederStep s).encCrcEn = s.encCrcEn := by
  unfold feederStep; (repeat' split) <;> simp
@[simp] theorem feederStep_encBit (s : State) : (feederStep s).encBit = s.encBit := by
  unfold feederStep; (repeat' split) <;> simp
@[simp] theorem feederStep_encStuff (s : State) : (feederStep s).encStuff = s.encStuff := by
  unfold feederStep; (repeat' split) <;> simp
@[simp] theorem feederStep_encFlagsLeft (s : State) : (feederStep s).encFlagsLeft = s.encFlagsLeft := by
  unfold feederStep; (repeat' split) <;> simp
@[simp] theorem feederStep_encEndStage (s : State) : (feederStep s).encEndStage = s.encEndStage := by
  unfold feederStep; (repeat' split) <;> simp
@[simp] theorem feederStep_ctrl (s : State) : (feederStep s).ctrl = s.ctrl := by
  unfold feederStep; (repeat' split) <;> simp
@[simp] theorem feederStep_dlFlag (s : State) : (feederStep s).dlFlag = s.dlFlag := by
  unfold feederStep; (repeat' split) <;> simp
@[simp] theorem feederStep_dlCount (s : State) : (feederStep s).dlCount = s.dlCount := by
  unfold feederStep; (repeat' split) <;> simp
@[simp] theorem feederStep_smpCount (s : State) : (feederStep s).smpCount = s.smpCount := by
  unfold feederStep; (repeat' split) <;> simp
@[simp] theorem feederStep_waveIdx (s : State) : (feederStep s).waveIdx = s.waveIdx := by
  unfold feederStep; (repeat' split) <;> simp
@[simp] theorem feederStep_dac (s : State) : (feederStep s).dac = s.dac := by
  unfold feederStep; (repeat' split) <;> simp
@[simp] theorem feederStep_res (s : State) : (feederStep s).res = s.res := by
  unfold feederStep; (repeat' split) <;> simp
@[simp] theorem feederStep_err (s : State) : (feederStep s).err = s.err := by
  unfold feederStep; (repeat' split) <;> simp
@[simp] theorem feederStep_errCause (s : State) : (feederStep s).errCause = s.errCause := by
  unfold feederStep; (repeat' split) <;> simp
@[simp] theorem feederStep_errOp (s : State) : (feederStep s).errOp = s.errOp := by
  unfold feederStep; (repeat' split) <;> simp
@[simp] theorem feederStep_txTrace (s : State) : (feederStep s).txTrace = s.txTrace := by
  unfold feederStep; (repeat' split) <;> simp
@[simp] theorem feederStep_lineTrace (s : State) : (feederStep s).lineTrace = s.lineTrace := by
  unfold feederStep; (repeat' split) <;> simp
@[simp] theorem feederStep_dacTrace (s : State) : (feederStep s).dacTrace = s.dacTrace := by
  unfold feederStep; (repeat' split) <;> simp
@[simp] theorem feederStep_cmds (s : State) : (feederStep s).cmds = s.cmds := by
  unfold feederStep; (repeat' split) <;> simp
@[simp] theorem feederStep_agenda (s : State) : (feederStep s).agenda = s.agenda := by
  unfold feederStep; (repeat' split) <;> simp

@[simp] theorem State.sendStuffedZero_cfg (s : State) : (s.sendStuffedZero).cfg = s.cfg := by
  simp [State.sendStuffedZero]
@[simp] theorem State.sendStuffedZero_rx (s : State) : (s.sendStuffedZero).rx = s.rx := by
  simp [State.sendStuffedZero]
@[simp] theorem State.sendStuffedZero_tx (s : State) : (s.sendStuffedZero).tx = s.tx := by
  simp [State.sendStuffedZero]
@[simp] theorem State.sendStuffedZero_txAct (s : State) : (s.sendStuffedZero).txAct = s.txAct := by
  simp [State.sendStuffedZero]
@[simp] theorem State.sendStuffedZero_stype (s : State) : (s.sendStuffedZero).stype = s.stype := by
  simp [State.sendStuffedZero]
@[simp] theorem State.sendStuffedZero_comma (s : State) : (s.sendStuffedZero).comma = s.comma := by
  simp [State.sendStuffedZero]
@[simp] theorem State.sendStuffedZero_cidx (s : State) : (s.sendStuffedZero).cidx = s.cidx := by
  simp [State.sendStuffedZero]
@[simp] theorem State.sendStuffedZero_tmp (s : State) : (s.sendStuffedZero).tmp = s.tmp := by
  simp [State.sendStuffedZero]
@[simp] theorem State.sendStuffedZero_fix (s : State) : (s.sendStuffedZero).fix = s.fix := by
  simp [State.sendStuffedZero]
@[simp] theorem State.sendStuffedZero_crc (s : State) : (s.sendStuffedZero).crc = s.crc := by
  simp [State.sendStuffedZero]
@[simp] theorem State.sendStuffedZero_frmAct (s : State) : (s.sendStuffedZero).frmAct = s.frmAct := by
  simp [State.sendStuffedZero]
@[simp] theorem State.sendStuffedZero_busy (s : State) : (s.sendStuffedZero).busy = s.busy := by
  simp [State.sendStuffedZero]
@[simp] theorem State.sendStuffedZero_encJob (s : State) : (s.sendStuffedZero).encJob = s.encJob := by
  simp [State.sendStuffedZero]
@[simp] theorem State.sendStuffedZero_encByte (s : State) : (s.sendStuffedZero).encByte = s.encByte := by
  simp [State.sendStuffedZero]
@[simp] theorem State.sendStuffedZero_encCrcEn (s : State) : (s.sendStuffedZero).encCrcEn = s.encCrcEn := by
  simp [State.sendStuffedZero]
@[simp] theorem State.sendStuffedZero_encBit (s : State) : (s.sendStuffedZero).encBit = s.encBit := by
  simp [State.sendStuffedZero]
@[simp] theorem State.sendStuffedZero_encFlagsLeft (s : State) : (s.sendStuffedZero).encFlagsLeft = s.encFlagsLeft := by
  simp [State.sendStuffedZero]
@[simp] theorem State.sendStuffedZero_encEndStage (s : State) : (s.sendStuffedZero).encEndStage = s.encEndStage := by
  simp [State.sendStuffedZero]
@[simp] theorem State.sendStuffedZero_smpCount (s : State) : (s.sendStuffedZero).smpCount = s.smpCount := by
  simp [State.sendStuffedZero]
@[simp] theorem State.sendStuffedZero_waveIdx (s : State) : (s.sendStuffedZero).waveIdx = s.waveIdx := by
  simp [State.sendStuffedZero]
@[simp] theorem State.sendStuffedZero_dac (s : State) : (s.sendStuffedZero).dac = s.dac := by
  simp [State.sendStuffedZero]
@[simp] theorem State.sendStuffedZero_res (s : State) : (s.sendStuffedZero).res = s.res := by
  simp [State.sendStuffedZero]
@[simp] theorem State.sendStuffedZero_err (s : State) : (s.sendStuffedZero).err = s.err := by
  simp [State.sendStuffedZero]
@[simp] theorem State.sendStuffedZero_errCause (s : State) : (s.sendStuffedZero).errCause = s.errCause := by
  simp [State.sendStuffedZero]
@[simp] theorem State.sendStuffedZero_errOp (s : State) : (s.sendStuffedZero).errOp = s.errOp := by
  simp [State.sendStuffedZero]
@[simp] theorem State.sendStuffedZero_txTrace (s : State) : (s.sendStuffedZero).txTrace = s.txTrace := by
  simp [State.sendStuffedZero]
@[simp] theorem State.sendStuffedZero_dacTrace (s : State) : (s.sendStuffedZero).dacTrace = s.dacTrace := by
  simp [State.sendStuffedZero]
@[simp] theorem State.sendStuffedZero_cmds (s : State) : (s.sendStuffedZero).cmds = s.cmds := by
  simp [State.sendStuffedZero]
@[simp] theorem State.sendStuffedZero_agenda (s : State) : (s.sendStuffedZero).agenda = s.agenda := by
  simp [State.sendStuffedZero]

@[simp] theorem State.sendDataBit_cfg (s : State) : (s.sendDataBit).cfg = s.cfg := by
  unfold State.sendDataBit; simp only [State.emitPeriod]; (repeat' split) <;> simp
@[simp] theorem State.sendDataBit_rx (s : State) : (s.sendDataBit).rx = s.rx := by
  unfold State.sendDataBit; simp only [State.emitPeriod]; (repeat' split) <;> simp
@[simp] theorem State.sendDataBit_tx (s : State) : (s.sendDataBit).tx = s.tx := by
  unfold State.sendDataBit; simp only [State.emitPeriod]; (repeat' split) <;> simp
@[simp] theorem State.sendDataBit_txAct (s : State) : (s.sendDataBit).txAct = s.txAct := by
  unfold State.sendDataBit; simp only [State.emitPeriod]; (repeat' split) <;> simp
@[simp] theorem State.sendDataBit_stype (s : State) : (s.sendDataBit).stype = s.stype := by
  unfold State.sendDataBit; simp only [State.emitPeriod]; (repeat' split) <;> simp
@[simp] theorem State.sendDataBit_comma (s : State) : (s.sendDataBit).comma = s.comma := by
  unfold State.sendDataBit; simp only [State.emitPeriod]; (repeat' split) <;> simp
@[simp] theorem State.sendDataBit_cidx (s : State) : (s.sendDataBit).cidx = s.cidx := by
  unfold State.sendDataBit; simp only [State.emitPeriod]; (repeat' split) <;> simp
@[simp] theorem State.sendDataBit_tmp (s : State) : (s.sendDataBit).tmp = s.tmp := by
  unfold State.sendDataBit; simp only [State.emitPeriod]; (repeat' split) <;> simp
@[simp] theorem State.sendDataBit_fix (s : State) : (s.sendDataBit).fix = s.fix := by
  unfold State.sendDataBit; simp only [State.emitPeriod]; (repeat' split) <;> simp
@[simp] theorem State.sendDataBit_frmAct (s : State) : (s.sendDataBit).frmAct = s.frmAct := by
  unfold State.sendDataBit; simp only [State.emitPeriod]; (repeat' split) <;> simp
@[simp] theorem State.sendDataBit_busy (s : State) : (s.sendDataBit).busy = s.busy := by
  unfold State.sendDataBit; simp only [State.emitPeriod]; (repeat' split) <;> simp
@[simp] theorem State.sendDataBit_encJob (s : State) : (s.sendDataBit).encJob = s.encJob := by
  unfold State.sendDataBit; simp only [State.emitPeriod]; (repeat' split) <;> simp
@[simp] theorem State.sendDataBit_encByte (s : State) : (s.sendDataBit).encByte = s.encByte := by
  unfold State.sendDataBit; simp only [State.emitPeriod]; (repeat' split) <;> simp
@[simp] theorem State.sendDataBit_encCrcEn (s : State) : (s.sendDataBit).encCrcEn = s.encCrcEn := by
  unfold State.sendDataBit; simp only [State.emitPeriod]; (repeat' split) <;> simp
@[simp] theorem State.sendDataBit_encFlagsLeft (s : State) : (s.sendDataBit).encFlagsLeft = s.encFlagsLeft := by
  unfold State.sendDataBit; simp only [State.emitPeriod]; (repeat' split) <;> simp
@[simp] theorem State.sendDataBit_encEndStage (s : State) : (s.sendDataBit).encEndStage = s.encEndStage := by
  unfold State.sendDataBit; simp only [State.emitPeriod]; (repeat' split) <;> simp
@[simp] theorem State.sendDataBit_smpCount (s : State) : (s.sendDataBit).smpCount = s.smpCount := by
  unfold State.sendDataBit; simp only [State.emitPeriod]; (repeat' split) <;> simp
@[simp] theorem State.sendDataBit_waveIdx (s : State) : (s.sendDataBit).waveIdx = s.waveIdx := by
  unfold State.sendDataBit; simp only [State.emitPeriod]; (repeat' split) <;> simp
@[simp] theorem State.sendDataBit_dac (s : State) : (s.sendDataBit).dac = s.dac := by
  unfold State.sendDataBit; simp only [State.emitPeriod]; (repeat' split) <;> simp
@[simp] theorem State.sendDataBit_res (s : State) : (s.sendDataBit).res = s.res := by
  unfold State.sendDataBit; simp only [State.emitPeriod]; (repeat' split) <;> simp
@[simp] theorem State.sendDataBit_err (s : State) : (s.sendDataBit).err = s.err := by
  unfold State.sendDataBit; simp only [State.emitPeriod]; (repeat' split) <;> simp
@[simp] theorem State.sendDataBit_errCause (s : State) : (s.sendDataBit).errCause = s.errCause := by
  unfold State.sendDataBit; simp only [State.emitPeriod]; (repeat' split) <;> simp
@[simp] theorem State.sendDataBit_errOp (s : State) : (s.sendDataBit).errOp = s.errOp := by
  unfold State.sendDataBit; simp only [State.emitPeriod]; (repeat' split) <;> simp
@[simp] theorem State.sendDataBit_txTrace (s : State) : (s.sendDataBit).txTrace = s.txTrace := by
  unfold State.sendDataBit; simp only [State.emitPeriod]; (repeat' split) <;> simp
@[simp] theorem State.sendDataBit_dacTrace (s : State) : (s.sendDataBit).dacTrace = s.dacTrace := by
  unfold State.sendDataBit; simp only [State.emitPeriod]; (repeat' split) <;> simp
@[simp] theorem State.sendDataBit_cmds (s : State) : (s.sendDataBit).cmds = s.cmds := by
  unfold State.sendDataBit; simp only [State.emitPeriod]; (repeat' split) <;> simp
@[simp] theorem State.sendDataBit_agenda (s : State) : (s.sendDataBit).agenda = s.agenda := by
  unfold State.sendDataBit; simp only [State.emitPeriod]; (repeat' split) <;> simp

end Sys2Proof.Machine
end

