-- ==== Sys2Proof/Laws/Ops.lean ====
section
/-! SUPPORT. What each shared operation does, said once: control bits, saturating counts, the error record, the
decoder's operations, the encoder's line bit. Later proofs cite these rather than unfold the operation. -/

namespace Sys2Proof.Machine

/-! ### Control bits -/

theorem getLsbD_setBit (c : Byte) (k j : Nat) (v : Bool) (hj : j < 8) :
    (setBit c k v).getLsbD j = if j = k then v else c.getLsbD j := by
  unfold setBit
  by_cases h : j = k
  · subst h
    cases v <;> simp [hj]
  · cases v <;> simp [h, hj] <;> omega

@[simp] theorem State.tone_setTone (s : State) (v : Bool) : (s.setTone v).tone = v :=
  getLsbD_setBit s.ctrl 1 1 v (by decide)
@[simp] theorem State.txen_setTone (s : State) (v : Bool) : (s.setTone v).txen = s.txen :=
  getLsbD_setBit s.ctrl 1 0 v (by decide)
@[simp] theorem State.ptt_setTone (s : State) (v : Bool) : (s.setTone v).ptt = s.ptt :=
  getLsbD_setBit s.ctrl 1 2 v (by decide)
@[simp] theorem State.led_setTone (s : State) (v : Bool) : (s.setTone v).led = s.led :=
  getLsbD_setBit s.ctrl 1 3 v (by decide)
@[simp] theorem State.tone_setTxen (s : State) (v : Bool) : (s.setTxen v).tone = s.tone :=
  getLsbD_setBit s.ctrl 0 1 v (by decide)
@[simp] theorem State.txen_setTxen (s : State) (v : Bool) : (s.setTxen v).txen = v :=
  getLsbD_setBit s.ctrl 0 0 v (by decide)
@[simp] theorem State.ptt_setTxen (s : State) (v : Bool) : (s.setTxen v).ptt = s.ptt :=
  getLsbD_setBit s.ctrl 0 2 v (by decide)
@[simp] theorem State.led_setTxen (s : State) (v : Bool) : (s.setTxen v).led = s.led :=
  getLsbD_setBit s.ctrl 0 3 v (by decide)
@[simp] theorem State.tone_setPtt (s : State) (v : Bool) : (s.setPtt v).tone = s.tone :=
  getLsbD_setBit s.ctrl 2 1 v (by decide)
@[simp] theorem State.txen_setPtt (s : State) (v : Bool) : (s.setPtt v).txen = s.txen :=
  getLsbD_setBit s.ctrl 2 0 v (by decide)
@[simp] theorem State.ptt_setPtt (s : State) (v : Bool) : (s.setPtt v).ptt = v :=
  getLsbD_setBit s.ctrl 2 2 v (by decide)
@[simp] theorem State.led_setPtt (s : State) (v : Bool) : (s.setPtt v).led = s.led :=
  getLsbD_setBit s.ctrl 2 3 v (by decide)

/-- The bits of `CTRL` above those the frame encoder writes stay (10_state.md R58). -/
theorem setBit_high (c : Byte) (k : Nat) (v : Bool) (lo n : Nat) (hk : k < lo) (hn : lo + n ≤ 8) :
    (setBit c k v).extractLsb' lo n = c.extractLsb' lo n := by
  apply BitVec.eq_of_getLsbD_eq
  intro i hi
  simp only [BitVec.getLsbD_extractLsb', hi]
  rw [getLsbD_setBit _ _ _ _ (by omega), if_neg (by omega)]

theorem State.tone_eq_of_ctrl {s t : State} (h : s.ctrl = t.ctrl) : s.tone = t.tone := by simp [State.tone, h]
theorem State.txen_eq_of_ctrl {s t : State} (h : s.ctrl = t.ctrl) : s.txen = t.txen := by simp [State.txen, h]
theorem State.ptt_eq_of_ctrl {s t : State} (h : s.ctrl = t.ctrl) : s.ptt = t.ptt := by simp [State.ptt, h]
theorem State.led_eq_of_ctrl {s t : State} (h : s.ctrl = t.ctrl) : s.led = t.led := by simp [State.led, h]

/-! ### Counters and the error record -/

theorem satInc_toNat (v : Byte) : (satInc v).toNat = min (v.toNat + 1) 255 := by
  unfold satInc
  have hv := v.isLt
  split
  · subst v; rfl
  · rename_i h
    have hne : v.toNat ≠ 255 := fun hh => h (BitVec.eq_of_toNat_eq hh)
    rw [BitVec.toNat_add]
    simp only [BitVec.toNat_ofNat]
    omega

theorem State.raiseCmdError_of_err (s : State) (c : Cause) (op : Byte) (h : s.err = true) : s.raiseCmdError c op = s := by
  simp [State.raiseCmdError, h]

theorem State.raiseCmdError_of_clear (s : State) (c : Cause) (op : Byte) (h : s.err = false) :
    s.raiseCmdError c op = { s with err := true, errCause := causeCode c, errOp := op } := by
  simp [State.raiseCmdError, h]

theorem bitOperand_eq_none_iff (d : Byte) : bitOperand d = none ↔ 1 < d.toNat := by
  unfold bitOperand
  constructor
  · intro h
    split at h
    · cases h
    · split at h
      · cases h
      · rename_i h0 h1
        have hn0 : d.toNat ≠ 0 := fun e => h0 (BitVec.eq_of_toNat_eq e)
        have hn1 : d.toNat ≠ 1 := fun e => h1 (BitVec.eq_of_toNat_eq e)
        omega
  · intro h
    rw [if_neg, if_neg]
    · rintro rfl; simp at h
    · rintro rfl; simp at h

theorem fieldOfCode_eq_none_iff (f : Byte) : fieldOfCode f = none ↔ 6 < f.toNat := by
  unfold fieldOfCode
  split
  case h_8 h0 h1 h2 h3 h4 h5 h6 =>
    simp only [true_iff]
    by_contra hh
    have hle : f.toNat ≤ 6 := by omega
    interval_cases hv : f.toNat <;> simp_all
  all_goals (rename_i h; simp [h])

@[simp] theorem fieldOfCode_codeOfField (f : Field) : fieldOfCode (codeOfField f) = some f := by cases f <;> rfl

theorem Field.len_pos (f : Field) : 0 < f.len := by cases f <;> decide

theorem FixSet.read_eq_none_iff (x : FixSet) (f i : Byte) :
    x.read f i = none ↔ ∀ fld : Field, fieldOfCode f = some fld → fld.len < i.toNat := by
  unfold FixSet.read
  cases fieldOfCode f with
  | none => simp
  | some fld =>
    by_cases h : i.toNat ≤ fld.len
    · simp [h]
    · simp [h]; omega

theorem TempSet.read_eq_none_iff (x : TempSet) (f i : Byte) :
    x.read f i = none ↔ ∀ fld : Field, fieldOfCode f = some fld → fld.len ≤ i.toNat := by
  unfold TempSet.read
  cases fieldOfCode f with
  | none => simp
  | some fld =>
    by_cases h : i.toNat < fld.len
    · simp [h]
    · simp [h]; omega

/-! ### Field arrays -/

@[simp] theorem TempSet.get_put_self (t : TempSet) (f : Field) (v : Vector Byte f.len) : (t.put f v).get f = v := by
  cases f <;> rfl

theorem TempSet.get_put_of_ne (t : TempSet) (f g : Field) (v : Vector Byte f.len) (h : g ≠ f) :
    (t.put f v).get g = t.get g := by
  cases f <;> cases g <;> first | rfl | exact absurd rfl h

theorem TempSet.commit_getElem (t : TempSet) (f : Field) (k : Nat) (h : k < f.len) :
    (t.commit.get f)[k]'(by omega) = (t.get f)[k] := by
  cases f <;> exact Vector.getElem_push_lt h

theorem TempSet.commit_end (t : TempSet) (f : Field) : (t.commit.get f)[f.len] = 0x00#8 := by
  cases f <;> exact Vector.getElem_push_eq

theorem State.storeChar_tmp_in (s : State) (f : Field) (b : Byte) (h : s.cidx.toNat < f.len) :
    (s.storeChar f b).tmp = s.tmp.put f ((s.tmp.get f).set s.cidx.toNat b h) := by
  simp [State.storeChar, h]

theorem State.storeChar_tmp_out (s : State) (f : Field) (b : Byte) (h : ¬ s.cidx.toNat < f.len) :
    (s.storeChar f b).tmp = s.tmp := by
  simp [State.storeChar, h]

/-- Everything `store` does to the temp set (41_position_decoder.md R189). -/
theorem State.storeChar_get (s : State) (f g : Field) (b : Byte) (k : Nat) (h : k < g.len) :
    ((s.storeChar f b).tmp.get g)[k] = if g = f ∧ k = s.cidx.toNat then b else (s.tmp.get g)[k] := by
  by_cases hc : s.cidx.toNat < f.len
  · by_cases hg : g = f
    · subst hg
      have e : (s.storeChar g b).tmp.get g = (s.tmp.get g).set s.cidx.toNat b hc := by
        rw [s.storeChar_tmp_in g b hc, TempSet.get_put_self]
      simp only [e, Vector.getElem_set, true_and, eq_comm]
    · have e : (s.storeChar f b).tmp.get g = s.tmp.get g := by
        rw [s.storeChar_tmp_in f b hc, TempSet.get_put_of_ne _ _ _ _ hg]
      simp only [e, hg, false_and, if_false]
  · simp only [s.storeChar_tmp_out f b hc]
    rw [if_neg]
    rintro ⟨rfl, rfl⟩
    exact hc h

/-! ### One character, by the cases of 41_position_decoder.md R182 -/

theorem State.feed_identity (s : State) (b : Byte) (h0 : b ≠ 0x00#8) (h1 : b ≠ 0x24#8) (h2 : b ≠ 0x2C#8)
    (hc : s.comma = 0#8) : s.feed b = { s with stype := sniff s.stype b } := by
  unfold State.feed
  rw [if_neg h0, if_neg h1, if_neg h2, if_pos hc]

theorem State.feed_unrouted (s : State) (b : Byte) (h0 : b ≠ 0x00#8) (h1 : b ≠ 0x24#8) (h2 : b ≠ 0x2C#8)
    (hc : s.comma ≠ 0#8) (hr : route s.stype s.comma = none) : s.feed b = s := by
  unfold State.feed
  rw [if_neg h0, if_neg h1, if_neg h2, if_neg hc, hr]

theorem State.feed_routed (s : State) (b : Byte) (fld : Field) (h0 : b ≠ 0x00#8) (h1 : b ≠ 0x24#8) (h2 : b ≠ 0x2C#8)
    (hc : s.comma ≠ 0#8) (hr : route s.stype s.comma = some fld) : s.feed b = s.storeChar fld b := by
  unfold State.feed
  rw [if_neg h0, if_neg h1, if_neg h2, if_neg hc, hr]

/-! ### The encoder's line bit -/

/-- What the line bit of a data bit does to each register it writes (43_frame_encoder.md R258). -/
theorem State.sendDataBit_crc (s : State) :
    s.sendDataBit.crc = if s.encCrcEn then crcStep s.crc (s.encByte.getLsbD s.encBit.val) else s.crc := by
  unfold State.sendDataBit
  simp only [State.emitPeriod]
  repeat' split
  all_goals simp_all

theorem State.sendDataBit_encBit (s : State) : s.sendDataBit.encBit = s.encBit + 1 := by
  unfold State.sendDataBit
  simp only [State.emitPeriod]
  repeat' split
  all_goals rfl

theorem State.sendDataBit_ctrl (s : State) :
    s.sendDataBit.ctrl = if s.encByte.getLsbD s.encBit.val then s.ctrl else setBit s.ctrl 1 (!s.tone) := by
  unfold State.sendDataBit
  simp only [State.emitPeriod, State.codeBit]
  repeat' split
  all_goals simp_all [State.tone]

theorem State.sendDataBit_ones (s : State) :
    s.sendDataBit.ones =
      if s.encByte.getLsbD s.encBit.val then (if isFlag s.encByte then 0#3 else s.ones + 1#3) else 0#3 := by
  unfold State.sendDataBit
  simp only [State.emitPeriod, State.codeBit]
  repeat' split
  all_goals simp_all

theorem State.sendDataBit_encStuff (s : State) :
    s.sendDataBit.encStuff =
      if isFlag s.encByte = false ∧ s.sendDataBit.ones = 5#3 then true else s.encStuff := by
  rw [s.sendDataBit_ones]
  unfold State.sendDataBit
  simp only [State.emitPeriod, State.codeBit]
  repeat' split
  all_goals simp_all

theorem State.sendDataBit_dlFlag (s : State) : s.sendDataBit.dlFlag = true := by
  simp [State.sendDataBit]

theorem State.sendDataBit_dlCount (s : State) : s.sendDataBit.dlCount = s.cfg.bitTicks := by
  unfold State.sendDataBit
  simp only [State.emitPeriod]
  repeat' split
  all_goals simp

theorem State.sendDataBit_tone (s : State) :
    s.sendDataBit.tone = if s.encByte.getLsbD s.encBit.val then s.tone else !s.tone := by
  simp only [State.tone, s.sendDataBit_ctrl]
  split
  · rfl
  · rw [getLsbD_setBit _ _ _ _ (by decide)]; simp

theorem State.emitPeriod_adds (s : State) : s.emitPeriod.lineTrace = s.lineTrace ++ [s.emitPeriod.tone] := rfl

theorem State.sendDataBit_lineTrace (s : State) : s.sendDataBit.lineTrace = s.lineTrace ++ [s.sendDataBit.tone] := by
  unfold State.sendDataBit
  simp only [State.emitPeriod_adds]
  congr 1
  simp only [State.codeBit]
  repeat' split
  all_goals rfl

/-- Everything the line bit of a data bit leaves alone (R258). -/
theorem State.sendDataBit_eq (s : State) :
    s.sendDataBit =
      { s with
        crc := s.sendDataBit.crc, ones := s.sendDataBit.ones, encBit := s.encBit + 1
        encStuff := s.sendDataBit.encStuff, ctrl := s.sendDataBit.ctrl, dlFlag := true
        dlCount := s.cfg.bitTicks, lineTrace := s.lineTrace ++ [s.sendDataBit.tone] } := by
  rw [← s.sendDataBit_lineTrace]
  unfold State.sendDataBit
  simp only [State.codeBit]
  repeat' split
  all_goals rfl

/-- Everything the line bit of a stuffed zero does (R253, R258). -/
theorem State.sendStuffedZero_eq (s : State) :
    s.sendStuffedZero =
      { s with
        ones := 0#3, encStuff := false, ctrl := setBit s.ctrl 1 (!s.tone), dlFlag := true
        dlCount := s.cfg.bitTicks, lineTrace := s.lineTrace ++ [!s.tone] } := by
  have h : s.sendStuffedZero.lineTrace = s.lineTrace ++ [!s.tone] :=
    congrArg (fun b => s.lineTrace ++ [b]) (s.tone_setTone (!s.tone))
  rw [← h]
  rfl

/-- Everything an encoder step that goes on can be (43_frame_encoder.md R258). -/
theorem encStep_next_cases (s t : State) (h : encStep s = .next t) :
    s.ones.toNat ≤ 5 ∧
    ((s.encStuff = true ∧ t = s.sendStuffedZero) ∨
     (s.encStuff = false ∧ s.encBit ≠ 8 ∧ t = s.sendDataBit) ∨
     (s.encStuff = false ∧ s.encBit = 8 ∧ ∃ u, s.nextByte = some u ∧ t = u.sendDataBit) ∨
     (s.encStuff = false ∧ s.encBit = 8 ∧ s.nextByte = none ∧ t = s.finish)) := by
  unfold encStep at h
  split at h
  · cases h
  · rename_i h5
    refine ⟨by omega, ?_⟩
    split at h
    · rename_i hs; cases h; exact .inl ⟨hs, rfl⟩
    · rename_i hs
      have hs' : s.encStuff = false := by simpa using hs
      split at h
      · rename_i hb
        split at h
        · rename_i u hu; cases h; exact .inr (.inr (.inl ⟨hs', hb, u, hu, rfl⟩))
        · rename_i hu; cases h; exact .inr (.inr (.inr ⟨hs', hb, hu, rfl⟩))
      · rename_i hb; cases h; exact .inr (.inl ⟨hs', hb, rfl⟩)

/-- An encoder step stops only on `ONES > 5` (60_exceptions.md R363). -/
theorem encStep_next_of_ones (s : State) (h : s.ones.toNat ≤ 5) : ∃ t, encStep s = .next t := by
  unfold encStep
  rw [if_neg (by omega)]
  repeat' split
  all_goals exact ⟨_, rfl⟩

/-- A loaded byte: which registers `next_byte` writes (43_frame_encoder.md R257). -/
theorem State.nextByte_some (s u : State) (h : s.nextByte = some u) :
    u = { s with encFlagsLeft := u.encFlagsLeft, encEndStage := u.encEndStage, encByte := u.encByte,
                 encCrcEn := false, encBit := 0 } ∧ s.encJob ≠ .byte := by
  unfold State.nextByte at h
  split at h
  · rename_i hj
    split at h
    · cases h
    · cases h; exact ⟨rfl, by simp [hj]⟩
  · cases h
  · rename_i hj
    split at h
    · cases h; exact ⟨rfl, by simp [hj]⟩
    · cases h; exact ⟨rfl, by simp [hj]⟩
    · cases h; exact ⟨rfl, by simp [hj]⟩
    · cases h
  · cases h
  · cases h

/-! ### The base tick -/

/-- Everything the deadline half of a tick leaves alone (44_bitclock.md R295). -/
theorem tickDeadline_eq (s : State) :
    tickDeadline s = { s with dlFlag := (tickDeadline s).dlFlag, dlCount := (tickDeadline s).dlCount } := by
  unfold tickDeadline
  split <;> rfl

/-- Everything the sample half of a tick leaves alone (R295). -/
theorem tickSample_eq (s : State) :
    tickSample s =
      { s with
        smpCount := (tickSample s).smpCount, waveIdx := (tickSample s).waveIdx, dac := (tickSample s).dac
        dacTrace := (tickSample s).dacTrace } := by
  unfold tickSample
  split
  · split <;> rfl
  · rfl

/-- Everything a tick leaves alone (R295). -/
theorem tickEvent_eq (s : State) :
    tickEvent s =
      { s with
        dlFlag := (tickEvent s).dlFlag, dlCount := (tickEvent s).dlCount, smpCount := (tickEvent s).smpCount
        waveIdx := (tickEvent s).waveIdx, dac := (tickEvent s).dac, dacTrace := (tickEvent s).dacTrace } := by
  have h1 := tickSample_eq (tickDeadline s)
  have h2 := tickDeadline_eq s
  unfold tickEvent
  rw [h2] at h1
  rw [h2, h1]

/-! ### The transmitter's start -/

/-- `prime` on a busy transmitter does nothing (40_serial_link.md R146). -/
theorem State.prime_of_active (s : State) (h : s.txAct = true) : s.prime = s := by
  simp [State.prime, h]

/-- `prime` on an idle transmitter with an empty ring does nothing (R146). -/
theorem State.prime_of_empty (s : State) (h : s.tx.pop = none) : s.prime = s := by
  unfold State.prime
  split <;> simp_all

/-- `prime` on an idle transmitter hands over the oldest byte (R146). -/
theorem State.prime_of_pop (s : State) (v : Byte) (r : Ring) (h : s.txAct = false) (hp : s.tx.pop = some (v, r)) :
    s.prime = { s with tx := r, txAct := true, txTrace := s.txTrace ++ [v] } := by
  simp [State.prime, h, hp, State.txLoad]

end Sys2Proof.Machine
end

