-- ==== Sys2Proof/Laws/PerInstr.lean ====
section
/-! SUPPORT. One lemma per command: its word carries its opcode and its operand field, and its opcode is a defined one
(30_encoding.md R100 to R103). -/

namespace Sys2Proof.Laws.OpcodeRow

/-- The command's word is laid out as its row of the opcode map says. -/
def Statement (i : Instr) : Prop :=
  opField (encode i) = i.opcode ∧ immField (encode i) = i.imm ∧ (formOf i.opcode).isSome = true

theorem nop : Statement .nop := ⟨opField_word _ _, immField_word _ _, rfl⟩
theorem statRd : Statement .statRd := ⟨opField_word _ _, immField_word _ _, rfl⟩
theorem errRd : Statement .errRd := ⟨opField_word _ _, immField_word _ _, rfl⟩
theorem errClr : Statement .errClr := ⟨opField_word _ _, immField_word _ _, rfl⟩
theorem crcInit : Statement .crcInit := ⟨opField_word _ _, immField_word _ _, rfl⟩
theorem crcBit (d : Byte) : Statement (.crcBit d) := ⟨opField_word _ _, immField_word _ _, rfl⟩
theorem crcByte (d : Byte) : Statement (.crcByte d) := ⟨opField_word _ _, immField_word _ _, rfl⟩
theorem crcRd : Statement .crcRd := ⟨opField_word _ _, immField_word _ _, rfl⟩
theorem crcFcs : Statement .crcFcs := ⟨opField_word _ _, immField_word _ _, rfl⟩
theorem crcWr (w : Half) : Statement (.crcWr w) := ⟨opField_word _ _, immField_word _ _, rfl⟩
theorem frmStart (w : Half) : Statement (.frmStart w) := ⟨opField_word _ _, immField_word _ _, rfl⟩
theorem frmByte (d : Byte) : Statement (.frmByte d) := ⟨opField_word _ _, immField_word _ _, rfl⟩
theorem frmEnd : Statement .frmEnd := ⟨opField_word _ _, immField_word _ _, rfl⟩
theorem wait (w : Half) : Statement (.wait w) := ⟨opField_word _ _, immField_word _ _, rfl⟩
theorem ctrlWr (d : Byte) : Statement (.ctrlWr d) := ⟨opField_word _ _, immField_word _ _, rfl⟩
theorem ctrlRd : Statement .ctrlRd := ⟨opField_word _ _, immField_word _ _, rfl⟩
theorem rxPoll : Statement .rxPoll := ⟨opField_word _ _, immField_word _ _, rfl⟩
theorem rxPollFeed : Statement .rxPollFeed := ⟨opField_word _ _, immField_word _ _, rfl⟩
theorem txEnq (d : Byte) : Statement (.txEnq d) := ⟨opField_word _ _, immField_word _ _, rfl⟩
theorem ovfRd : Statement .ovfRd := ⟨opField_word _ _, immField_word _ _, rfl⟩
theorem ovfClr : Statement .ovfClr := ⟨opField_word _ _, immField_word _ _, rfl⟩
theorem ringRd (d : Byte) : Statement (.ringRd d) := ⟨opField_word _ _, immField_word _ _, rfl⟩
theorem nmeaFeed (d : Byte) : Statement (.nmeaFeed d) := ⟨opField_word _ _, immField_word _ _, rfl⟩
theorem nmeaCommit : Statement .nmeaCommit := ⟨opField_word _ _, immField_word _ _, rfl⟩
theorem fixRd (f k : Byte) : Statement (.fixRd f k) := ⟨opField_word _ _, immField_word _ _, rfl⟩
theorem tmpRd (f k : Byte) : Statement (.tmpRd f k) := ⟨opField_word _ _, immField_word _ _, rfl⟩
theorem curRd : Statement .curRd := ⟨opField_word _ _, immField_word _ _, rfl⟩

end Sys2Proof.Laws.OpcodeRow
end

