-- ==== Sys2Proof/Laws/Ring.lean ====
section
/-! SUPPORT. What a push and a pop do to a ring, in terms of its unread bytes (40_serial_link.md R140 to R142). -/

namespace Sys2Proof.Machine

theorem Ring.count_eq (r : Ring) : r.count = (96 - r.tail.val + r.head.val) % 96 := by
  simp [Ring.count, Fin.sub_def]

theorem Ring.count_lt (r : Ring) : r.count < 96 := (r.head - r.tail).isLt

theorem Ring.count_le (r : Ring) : r.count ≤ 95 := Nat.le_of_lt_succ r.count_lt

theorem Ring.count_eq_zero_iff (r : Ring) : r.count = 0 ↔ r.head = r.tail := by
  have h1 := r.head.isLt
  have h2 := r.tail.isLt
  rw [r.count_eq, Fin.ext_iff]
  omega

@[simp] theorem Ring.contents_length (r : Ring) : r.contents.length = r.count := by simp [Ring.contents]

theorem Ring.contents_eq_nil_iff (r : Ring) : r.contents = [] ↔ r.head = r.tail := by
  rw [← List.length_eq_zero_iff, r.contents_length, r.count_eq_zero_iff]

theorem fin96_succ_val (i : Fin 96) : (i + 1).val = (i.val + 1) % 96 := by
  simp [Fin.add_def]

/-- A push that stores, into a ring holding fewer than 95 unread bytes, appends its byte. -/
theorem Ring.store_contents (r : Ring) (b : Byte) (h : r.count < 95) :
    ({ r with buf := r.buf.set r.head.val b r.head.isLt, head := r.head + 1 } : Ring).contents = r.contents ++ [b] := by
  have h1 := r.head.isLt
  have h2 := r.tail.isLt
  have hc := r.count_eq
  apply List.ext_getElem
  · have hs := fin96_succ_val r.head
    simp only [Ring.contents_length, List.length_append, List.length_cons, List.length_nil]
    rw [Ring.count_eq]
    simp only [hs]
    omega
  · intro k hk1 hk2
    simp only [List.length_append, Ring.contents_length, List.length_cons, List.length_nil] at hk2
    simp only [Ring.contents, List.getElem_map, List.getElem_range, List.getElem_append, List.length_map, List.length_range,
      Vector.getElem_set]
    by_cases hk : k < r.count
    · have hne : r.head.val ≠ (r.tail.val + k) % 96 := by omega
      simp [hk, hne]
    · have hke : k = r.count := by omega
      have heq : r.head.val = (r.tail.val + k) % 96 := by omega
      have hd : ((r.tail.val + k) % 96 : Nat) = r.head.val := heq.symm
      simp [hk, heq]

/-- A push that stores, into a ring holding 95 unread bytes, makes it read as empty (R143). -/
theorem Ring.store_full (r : Ring) (b : Byte) (h : r.count = 95) :
    ({ r with buf := r.buf.set r.head.val b r.head.isLt, head := r.head + 1 } : Ring).contents = [] := by
  have h1 := r.head.isLt
  have h2 := r.tail.isLt
  have hc := r.count_eq
  rw [Ring.contents_eq_nil_iff, Fin.ext_iff]
  have hs := fin96_succ_val r.head
  simp only [hs]
  omega

/-- Below 95 unread bytes both modes append. -/
theorem Ring.push_room (r : Ring) (mode : Bool) (b : Byte) (h : r.count < 95) :
    r.push mode b = { r with buf := r.buf.set r.head.val b r.head.isLt, head := r.head + 1 } := by
  unfold Ring.push
  rw [if_neg]
  rintro ⟨-, h2⟩
  simp only [Config.ringUsable] at h2
  omega

theorem Ring.push_silent (r : Ring) (b : Byte) :
    r.push false b = { r with buf := r.buf.set r.head.val b r.head.isLt, head := r.head + 1 } := by
  simp [Ring.push]

theorem Ring.push_dropped (r : Ring) (b : Byte) (h : r.count = 95) : r.push true b = { r with ovf := satInc r.ovf } := by
  simp [Ring.push, h, Config.ringUsable]

theorem Ring.push_contents (r : Ring) (mode : Bool) (b : Byte) (h : r.count < 95) :
    (r.push mode b).contents = r.contents ++ [b] := by
  rw [r.push_room mode b h, r.store_contents b h]

@[simp] theorem Ring.push_tail (r : Ring) (mode : Bool) (b : Byte) : (r.push mode b).tail = r.tail := by
  unfold Ring.push
  split <;> rfl

/-- The counter does not enter the unread bytes. -/
@[simp] theorem Ring.contents_ovf (r : Ring) (v : Byte) : ({ r with ovf := v } : Ring).contents = r.contents := rfl

/-- An empty ring answers no byte. -/
theorem Ring.pop_eq_none_iff (r : Ring) : r.pop = none ↔ r.head = r.tail := by
  unfold Ring.pop
  split <;> simp_all

/-- Everything a pop that answers a byte does. -/
theorem Ring.pop_eq_some (r r' : Ring) (b : Byte) (h : r.pop = some (b, r')) :
    r' = { r with tail := r.tail + 1 } ∧ r.contents = b :: r'.contents := by
  unfold Ring.pop at h
  split at h
  · cases h
  · rename_i hne
    simp only [Option.some.injEq, Prod.mk.injEq] at h
    obtain ⟨hb, rfl⟩ := h
    refine ⟨rfl, ?_⟩
    have h1 := r.head.isLt
    have h2 := r.tail.isLt
    have hc := r.count_eq
    rw [Fin.ext_iff] at hne
    have hs := fin96_succ_val r.tail
    apply List.ext_getElem
    · simp only [Ring.contents_length, List.length_cons]
      rw [Ring.count_eq, Ring.count_eq]
      simp only [hs]
      omega
    · intro k hk1 hk2
      simp only [Ring.contents_length] at hk1
      simp only [Ring.contents, List.getElem_map, List.getElem_range]
      cases k with
      | zero =>
        simp only [List.getElem_cons_zero, Nat.add_zero, Nat.mod_eq_of_lt h2]
        exact hb
      | succ k =>
        simp only [List.getElem_cons_succ, List.getElem_map, List.getElem_range, hs]
        congr 1
        omega

/-- A ring with unread bytes answers the oldest. -/
theorem Ring.pop_of_contents (r : Ring) (b : Byte) (bs : List Byte) (h : r.contents = b :: bs) :
    r.pop = some (b, { r with tail := r.tail + 1 }) ∧ ({ r with tail := r.tail + 1 } : Ring).contents = bs := by
  have hne : r.pop ≠ none := by
    rw [Ne, r.pop_eq_none_iff, ← r.contents_eq_nil_iff, h]
    simp
  obtain ⟨⟨b', r'⟩, hp⟩ := Option.ne_none_iff_exists'.mp hne
  obtain ⟨rfl, hc⟩ := r.pop_eq_some r' b' hp
  rw [h, List.cons.injEq] at hc
  rw [hp, ← hc.1]
  exact ⟨rfl, hc.2.symm⟩

end Sys2Proof.Machine
end

