-- ==== Sys2Proof/Laws/Step.lean ====
section
/-! SUPPORT. Everything one step can be, said once: which agent moves, and what the machine is afterwards. Later proofs
about every step take these cases apart rather than unfold `step`. -/

namespace Sys2Proof.Machine

/-- The state an agent's turn starts from: the turn itself is taken off the agenda (log 3). -/
def State.turnTaken (s : State) : State := { s with agenda := s.agenda.tail }

@[simp] theorem State.turnTaken_cfg (s : State) : s.turnTaken.cfg = s.cfg := rfl
@[simp] theorem State.turnTaken_rx (s : State) : s.turnTaken.rx = s.rx := rfl
@[simp] theorem State.turnTaken_tx (s : State) : s.turnTaken.tx = s.tx := rfl
@[simp] theorem State.turnTaken_txAct (s : State) : s.turnTaken.txAct = s.txAct := rfl
@[simp] theorem State.turnTaken_stype (s : State) : s.turnTaken.stype = s.stype := rfl
@[simp] theorem State.turnTaken_comma (s : State) : s.turnTaken.comma = s.comma := rfl
@[simp] theorem State.turnTaken_cidx (s : State) : s.turnTaken.cidx = s.cidx := rfl
@[simp] theorem State.turnTaken_tmp (s : State) : s.turnTaken.tmp = s.tmp := rfl
@[simp] theorem State.turnTaken_fix (s : State) : s.turnTaken.fix = s.fix := rfl
@[simp] theorem State.turnTaken_crc (s : State) : s.turnTaken.crc = s.crc := rfl
@[simp] theorem State.turnTaken_ones (s : State) : s.turnTaken.ones = s.ones := rfl
@[simp] theorem State.turnTaken_frmAct (s : State) : s.turnTaken.frmAct = s.frmAct := rfl
@[simp] theorem State.turnTaken_busy (s : State) : s.turnTaken.busy = s.busy := rfl
@[simp] theorem State.turnTaken_encJob (s : State) : s.turnTaken.encJob = s.encJob := rfl
@[simp] theorem State.turnTaken_encByte (s : State) : s.turnTaken.encByte = s.encByte := rfl
@[simp] theorem State.turnTaken_encCrcEn (s : State) : s.turnTaken.encCrcEn = s.encCrcEn := rfl
@[simp] theorem State.turnTaken_encBit (s : State) : s.turnTaken.encBit = s.encBit := rfl
@[simp] theorem State.turnTaken_encStuff (s : State) : s.turnTaken.encStuff = s.encStuff := rfl
@[simp] theorem State.turnTaken_encFlagsLeft (s : State) : s.turnTaken.encFlagsLeft = s.encFlagsLeft := rfl
@[simp] theorem State.turnTaken_encEndStage (s : State) : s.turnTaken.encEndStage = s.encEndStage := rfl
@[simp] theorem State.turnTaken_ctrl (s : State) : s.turnTaken.ctrl = s.ctrl := rfl
@[simp] theorem State.turnTaken_dlFlag (s : State) : s.turnTaken.dlFlag = s.dlFlag := rfl
@[simp] theorem State.turnTaken_dlCount (s : State) : s.turnTaken.dlCount = s.dlCount := rfl
@[simp] theorem State.turnTaken_smpCount (s : State) : s.turnTaken.smpCount = s.smpCount := rfl
@[simp] theorem State.turnTaken_waveIdx (s : State) : s.turnTaken.waveIdx = s.waveIdx := rfl
@[simp] theorem State.turnTaken_dac (s : State) : s.turnTaken.dac = s.dac := rfl
@[simp] theorem State.turnTaken_res (s : State) : s.turnTaken.res = s.res := rfl
@[simp] theorem State.turnTaken_err (s : State) : s.turnTaken.err = s.err := rfl
@[simp] theorem State.turnTaken_errCause (s : State) : s.turnTaken.errCause = s.errCause := rfl
@[simp] theorem State.turnTaken_errOp (s : State) : s.turnTaken.errOp = s.errOp := rfl
@[simp] theorem State.turnTaken_txTrace (s : State) : s.turnTaken.txTrace = s.txTrace := rfl
@[simp] theorem State.turnTaken_lineTrace (s : State) : s.turnTaken.lineTrace = s.lineTrace := rfl
@[simp] theorem State.turnTaken_dacTrace (s : State) : s.turnTaken.dacTrace = s.dacTrace := rfl
@[simp] theorem State.turnTaken_cmds (s : State) : s.turnTaken.cmds = s.cmds := rfl
@[simp] theorem State.turnTaken_agenda (s : State) : s.turnTaken.agenda = s.agenda.tail := rfl

/-- A step is the turn of the agent `State.turn` names. -/
theorem step_eq (s : State) : step s = runMove s.turn s.turnTaken := by
  unfold step State.turn State.turnTaken
  cases h : s.agenda with
  | nil => simp only [List.tail_nil]; rw [← h]
  | cons m ms => rfl

/-- What R404's assumption is for: a byte that arrives during a period finds the receive ring empty, so it is not lost. -/
theorem State.feederKeepsUp_receive (s v : State) (n k : Nat) (b : Byte) (h : s.feederKeepsUp n) (hk : k < n)
    (hv : steps k s = .next v) (ht : v.turn = .rxByte b) (hb : v.busy = true) (hd : v.dlFlag = true) :
    v.rx.contents = [] := by
  rw [Ring.contents_eq_nil_iff]
  by_contra hne
  have he : v.feederEnabled = true := by simp [State.feederEnabled, State.rxne, hb, hd, hne]
  obtain ⟨i, w, hi, hi', hw, hr⟩ := h k k v v (Nat.le_refl k) hk hv he hv ⟨b, ht⟩
  obtain rfl : i = k := Nat.le_antisymm hi' hi
  rw [hv] at hw
  cases hw
  exact hne hr

/-- A run ends in one place only: there is one first state with every word taken and `BUSY = 0` (R415). -/
theorem State.RunEndsAt_unique (s t t' : State) (n n' : Nat) (h : s.RunEndsAt n t) (h' : s.RunEndsAt n' t') :
    n = n' ∧ t = t' := by
  obtain ⟨h1, h2, h3⟩ := h
  obtain ⟨h1', h2', h3'⟩ := h'
  rcases Nat.lt_trichotomy n n' with hl | rfl | hl
  · exact absurd h2 (h3' n t hl h1)
  · rw [h1] at h1'; cases h1'; exact ⟨rfl, rfl⟩
  · exact absurd h2' (h3 n' t' hl h1')

/-- With the nominal parameter values the tones are 1200 Hz for mark and 2200 Hz for space (44_bitclock.md R297). -/
theorem toneHz_nominal (p : Config.Params) (hl : p.legal = true) (h : nominal p) :
    toneHz p false = 1200 ∧ toneHz p true = 2200 := by
  obtain ⟨hm, hs, -⟩ := h
  have hf : p.fTick ≠ 0 := by
    simp only [Config.Params.legal, Bool.and_eq_true, decide_eq_true_eq] at hl
    exact ne_of_gt hl.1.1.1.1
  simp only [toneHz, reload, Bool.false_eq_true, if_false, if_true, hm, hs]
  constructor <;> field_simp

theorem step_of_agenda (s : State) (m : Move) (ms : List Move) (h : s.agenda = m :: ms) :
    step s = runMove m { s with agenda := ms } := by
  simp [step, h]

theorem step_default (s : State) (h : s.agenda = []) : step s = runMove (defaultMove s) s := by
  simp [step, h]

/-- A controller's turn that takes a word. -/
theorem controllerMove_takes (s : State) (w : Cmd) (ws : List Cmd) (hb : s.busy = false) (hc : s.cmds = w :: ws) :
    controllerMove s = takeCommand w { s with cmds := ws } := by
  simp [controllerMove, hb, hc]

theorem controllerMove_busy (s : State) (hb : s.busy = true) : controllerMove s = .next s := by
  simp [controllerMove, hb]

theorem controllerMove_no_word (s : State) (hc : s.cmds = []) : controllerMove s = .next s := by
  unfold controllerMove
  split
  · rfl
  · simp [hc]

/-- Everything a controller's turn can be (10_state.md R31; 30_encoding.md R107, R108). -/
theorem controllerMove_cases (s t : State) (h : controllerMove s = .next t) :
    t = s ∨
    (s.busy = false ∧ ∃ w ws, s.cmds = w :: ws ∧
      ((∃ i, decode w = .ok i ∧ exec i { s with cmds := ws } = .next t) ∨
       (∃ c, decode w = .error c ∧ t = ({ s with cmds := ws } : State).raiseCmdError c (opField w)))) := by
  unfold controllerMove at h
  split at h
  · cases h; exact .inl rfl
  · rename_i hb
    split at h
    · rename_i w ws hc
      refine .inr ⟨by simpa using hb, w, ws, hc, ?_⟩
      unfold takeCommand at h
      cases hd : decode w with
      | ok i => rw [hd] at h; exact .inl ⟨i, rfl, h⟩
      | error c => rw [hd] at h; cases h; exact .inr ⟨c, rfl, rfl⟩
    · cases h; exact .inl rfl

/-- Everything a sequencer's turn can be (43_frame_encoder.md R258; 44_bitclock.md R300). -/
theorem sequencerMove_cases (s t : State) (h : sequencerMove s = .next t) :
    t = s ∨
    (s.busy = true ∧ s.dlFlag = false ∧
      ((s.encJob.sendsBits = true ∧ encStep s = .next t) ∨ (s.encJob = .wait ∧ t = endOfWait s))) := by
  unfold sequencerMove at h
  split at h
  · rename_i hb
    split at h
    · rename_i hj; exact .inr ⟨hb.1, hb.2, .inl ⟨by simp [hj, Job.sendsBits], h⟩⟩
    · rename_i hj; exact .inr ⟨hb.1, hb.2, .inl ⟨by simp [hj, Job.sendsBits], h⟩⟩
    · rename_i hj; exact .inr ⟨hb.1, hb.2, .inl ⟨by simp [hj, Job.sendsBits], h⟩⟩
    · rename_i hj; cases h; exact .inr ⟨hb.1, hb.2, .inr ⟨hj, rfl⟩⟩
    · cases h; exact .inl rfl
  · cases h; exact .inl rfl

/-- A sequencer's turn that is an encoder step. -/
theorem sequencerMove_enc (s : State) (hb : s.busy = true) (hd : s.dlFlag = false) (hj : s.encJob.sendsBits = true) :
    sequencerMove s = encStep s := by
  unfold sequencerMove
  rw [if_pos ⟨hb, hd⟩]
  cases h : s.encJob <;> simp_all [Job.sendsBits]

/-- Everything a feeder's turn can be (44_bitclock.md R301). -/
theorem feederStep_cases (s : State) :
    feederStep s = s ∨
    (s.busy = true ∧ s.dlFlag = true ∧ ∃ b r, s.rx.pop = some (b, r) ∧
      feederStep s = ({ s with rx := r } : State).feed b) := by
  unfold feederStep
  split
  · rename_i hb
    split
    · rename_i b r hp; exact .inr ⟨hb.1, hb.2, b, r, hp, rfl⟩
    · exact .inl rfl
  · exact .inl rfl

/-- Everything a transmit-empty turn can be (40_serial_link.md R145). -/
theorem txEmptyEvent_cases (s : State) :
    txEmptyEvent s = s ∨
    (s.txAct = true ∧ s.tx.head = s.tx.tail ∧ txEmptyEvent s = { s with txAct := false }) ∨
    (s.txAct = true ∧ ∃ v r, s.tx.pop = some (v, r) ∧ txEmptyEvent s = { s.txLoad v with tx := r }) := by
  unfold txEmptyEvent
  split
  · rename_i ha
    split
    · rename_i v r hp; exact .inr (.inr ⟨ha, v, r, hp, rfl⟩)
    · rename_i hp; exact .inr (.inl ⟨ha, s.tx.pop_eq_none_iff.mp hp, rfl⟩)
  · exact .inl rfl

/-- A step that takes a word: the turn is the controller's and `State.taken` names the command. -/
theorem State.taken_eq_some (s : State) (w : Cmd) (ws : List Cmd) (i : Instr) (ht : s.turn = .controller)
    (hb : s.busy = false) (hc : s.cmds = w :: ws) (hd : decode w = .ok i) : s.taken = some i := by
  simp [State.taken, ht, hb, hc, hd, Except.toOption]

/-- Everything one step that goes on can be, agent by agent. `u` is the state with the turn taken off the agenda. -/
theorem step_cases (s t : State) (h : step s = .next t) :
    (s.turn = .controller ∧ t = s.turnTaken) ∨
    (s.turn = .controller ∧ s.busy = false ∧ ∃ w ws i, s.cmds = w :: ws ∧ decode w = .ok i ∧ s.taken = some i ∧
      exec i { s.turnTaken with cmds := ws } = .next t) ∨
    (s.turn = .controller ∧ s.busy = false ∧ ∃ w ws c, s.cmds = w :: ws ∧ decode w = .error c ∧
      t = ({ s.turnTaken with cmds := ws } : State).raiseCmdError c (opField w)) ∨
    (s.turn = .sequencer ∧ t = s.turnTaken) ∨
    (s.turn = .sequencer ∧ s.busy = true ∧ s.dlFlag = false ∧ s.encJob.sendsBits = true ∧
      encStep s.turnTaken = .next t) ∨
    (s.turn = .sequencer ∧ s.busy = true ∧ s.dlFlag = false ∧ s.encJob = .wait ∧ t = endOfWait s.turnTaken) ∨
    (s.turn = .feeder ∧ t = feederStep s.turnTaken) ∨
    (∃ b, s.turn = .rxByte b ∧ t = rxEvent b s.turnTaken) ∨
    (s.turn = .txEmpty ∧ t = txEmptyEvent s.turnTaken) ∨
    (s.turn = .tick ∧ t = tickEvent s.turnTaken) ∨
    (s.turn = .reset ∧ t = resetEvent s.turnTaken) := by
  rw [step_eq] at h
  cases ht : s.turn with
  | controller =>
    rw [ht] at h
    rcases controllerMove_cases _ _ h with rfl | ⟨hb, w, ws, hc, ⟨i, hd, he⟩ | ⟨c, hd, he⟩⟩
    · exact .inl ⟨rfl, rfl⟩
    · exact .inr (.inl ⟨rfl, hb, w, ws, i, hc, hd, s.taken_eq_some w ws i ht hb hc hd, he⟩)
    · exact .inr (.inr (.inl ⟨rfl, hb, w, ws, c, hc, hd, he⟩))
  | sequencer =>
    rw [ht] at h
    rcases sequencerMove_cases _ _ h with rfl | ⟨hb, hd, ⟨hj, he⟩ | ⟨hj, rfl⟩⟩
    · simp
    · exact .inr (.inr (.inr (.inr (.inl ⟨rfl, hb, hd, hj, he⟩))))
    · exact .inr (.inr (.inr (.inr (.inr (.inl ⟨rfl, hb, hd, hj, rfl⟩)))))
  | feeder => rw [ht] at h; cases h; simp
  | rxByte b => rw [ht] at h; cases h; simp
  | txEmpty => rw [ht] at h; cases h; simp
  | tick => rw [ht] at h; cases h; simp
  | reset => rw [ht] at h; cases h; simp

end Sys2Proof.Machine
end

