-- ==== Sys2Proof/Tests/Slice0.lean ====
section
/-! SUPPORT. Tests of the model on values worked out from the spec's encodings and its rules' own examples, and for each
statement with hypotheses a state and operands that meet them. -/

namespace Sys2Proof.Tests

open Sys2Proof.Machine

/-! ### Helpers -/

/-- Legal values for the OPEN parameters. -/
def params : Config.Params :=
  { wave := Vector.ofFn fun i => BitVec.ofNat 4 (15 - i.val), fTick := 76800, reloadMark := 4#16, reloadSpace := 2#16
    bitTicks := 64#16, idleTimeout := 500#16, rxMinGap := none }

/-- The block after reset, with those parameters. -/
def fresh : State := State.powerOn params

/-- The next state, if there is one. -/
def nextOf : Result → Option State
  | .next t => some t
  | .fault _ => none
  | .refused _ => none

/-- A ring with `n` unread bytes, all of them `b`, from index 0. -/
def ringWith (n : Fin 96) (b : Byte) : Machine.Ring := { buf := Vector.replicate 96 b, head := n, tail := 0, ovf := 0 }

/-- The block with one received byte. -/
def received (b : Byte) : State := { fresh with rx := ringWith 1 b }

/-- A block in the middle of sending byte `d`, between two bits. -/
def sending (d : Byte) : State :=
  { fresh with busy := true, encJob := .byte, encByte := d, encCrcEn := true, encBit := 0, frmAct := true }

/-- The block at comma `c` of a sentence of type `t`. -/
def parsing (t : SentenceType) (c : Byte) : State := { fresh with stype := t, comma := c }

/-! ### WellFormed: each check refuses an ill-formed command -/

theorem test_illformed_crcBit : (Instr.crcBit 2#8).wellFormed = false ∧ (Instr.crcBit 1#8).wellFormed = true := by decide
theorem test_illformed_ringRd : (Instr.ringRd 2#8).wellFormed = false ∧ (Instr.ringRd 1#8).wellFormed = true := by decide
theorem test_illformed_ctrlWr : (Instr.ctrlWr 0x40#8).wellFormed = false ∧ (Instr.ctrlWr 0x80#8).wellFormed = false ∧
    (Instr.ctrlWr 0x3F#8).wellFormed = true := by decide
theorem test_illformed_fixRd : (Instr.fixRd 7#8 0#8).wellFormed = false ∧ (Instr.fixRd 0#8 7#8).wellFormed = false ∧
    (Instr.fixRd 6#8 2#8).wellFormed = true := by decide
theorem test_illformed_tmpRd : (Instr.tmpRd 7#8 0#8).wellFormed = false ∧ (Instr.tmpRd 0#8 6#8).wellFormed = false ∧
    (Instr.tmpRd 6#8 1#8).wellFormed = true := by decide

/-! ### Decode: every command's word, written out from the patterns of spec/opcode_table.json -/

theorem test_decode_system :
    decode 0b000000000000000000000000#24 = .ok .nop ∧ decode 0b000000010000000000000000#24 = .ok .statRd ∧
    decode 0b000000100000000000000000#24 = .ok .errRd ∧ decode 0b000000110000000000000000#24 = .ok .errClr := by
  exact ⟨rfl, rfl, rfl, rfl⟩
theorem test_decode_crc :
    decode 0b000100000000000000000000#24 = .ok .crcInit ∧ decode 0b000100010000000000000001#24 = .ok (.crcBit 1#8) ∧
    decode 0b000100100000000001000001#24 = .ok (.crcByte 0x41#8) ∧ decode 0b000100110000000000000000#24 = .ok .crcRd ∧
    decode 0b000101000000000000000000#24 = .ok .crcFcs ∧
    decode 0b000101010001001000110100#24 = .ok (.crcWr 0x1234#16) := by
  exact ⟨rfl, rfl, rfl, rfl, rfl, rfl⟩
theorem test_decode_frame :
    decode 0b001000000000000001100100#24 = .ok (.frmStart 100#16) ∧
    decode 0b001000010000000001000001#24 = .ok (.frmByte 0x41#8) ∧
    decode 0b001000100000000000000000#24 = .ok .frmEnd := by
  exact ⟨rfl, rfl, rfl⟩
theorem test_decode_clock :
    decode 0b001100000000001111101000#24 = .ok (.wait 1000#16) ∧
    decode 0b001100010000000000010000#24 = .ok (.ctrlWr 0x10#8) ∧ decode 0b001100100000000000000000#24 = .ok .ctrlRd := by
  exact ⟨rfl, rfl, rfl⟩
theorem test_decode_link :
    decode 0b010000000000000000000000#24 = .ok .rxPoll ∧ decode 0b010000010000000000000000#24 = .ok .rxPollFeed ∧
    decode 0b010000100000000010100101#24 = .ok (.txEnq 0xA5#8) ∧ decode 0b010000110000000000000000#24 = .ok .ovfRd ∧
    decode 0b010001000000000000000000#24 = .ok .ovfClr ∧ decode 0b010001010000000000000001#24 = .ok (.ringRd 1#8) := by
  exact ⟨rfl, rfl, rfl, rfl, rfl, rfl⟩
theorem test_decode_position :
    decode 0b010100000000000000100100#24 = .ok (.nmeaFeed 0x24#8) ∧ decode 0b010100010000000000000000#24 = .ok .nmeaCommit ∧
    decode 0b010100100000000100000011#24 = .ok (.fixRd 1#8 3#8) ∧
    decode 0b010100110000001000001001#24 = .ok (.tmpRd 2#8 9#8) ∧ decode 0b010101000000000000000000#24 = .ok .curRd := by
  exact ⟨rfl, rfl, rfl, rfl, rfl⟩
/-- Rejected words: an undefined opcode, reserved bits of formats N and B (R353: before the operand's range). -/
theorem test_decode_rejects :
    decode 0x7F0000#24 = .error .illegalOpcode ∧ decode 0x040000#24 = .error .illegalOpcode ∧
    decode 0x100001#24 = .error .reservedBits ∧ decode 0x110102#24 = .error .reservedBits := by
  exact ⟨rfl, rfl, rfl, rfl⟩
theorem test_encode : encode (.fixRd 1#8 3#8) = 0x520103#24 ∧ encode (.frmStart 100#16) = 0x200064#24 ∧
    encode (.frmByte 0x41#8) = 0x210041#24 := by decide
theorem test_table_word : decodeTableWord 24 0x3003E8 = some (.wait 1000#16) ∧ decodeTableWord 24 0x7F0000 = none := by
  decide
/-- The first instruction after reset, placed as the host places it. -/
theorem test_fetch : (nextOf (step (State.reset.withFetchWord 24 0x540000))).map (·.res) = some 0xFF00#16 := by rfl

/-! ### System commands (45_system.md) -/

theorem test_nop : nextOf (exec .nop fresh) = some fresh := by rfl
theorem test_statRd : (nextOf (exec .statRd fresh)).map (·.res) = some 0x0000#16 ∧
    (nextOf (exec .statRd (received 0x24#8))).map (·.res) = some 0x0001#16 := by decide
theorem test_illegal_word_recorded :
    (nextOf (takeCommand 0x7F0000#24 fresh)).map (fun t => (t.err, t.errOp, t.errCause)) =
      some (true, 0x7F#8, 0x01#8) := by decide
theorem test_errRd : (nextOf (exec .errRd { fresh with err := true, errCause := 0x01#8, errOp := 0x7F#8 })).map (·.res) =
    some 0x7F01#16 := by decide
theorem test_errClr :
    (nextOf (exec .errClr { fresh with err := true, errCause := 0x01#8, errOp := 0x7F#8 })).map
      (fun t => (t.err, t.errOp, t.errCause)) = some (false, 0#8, 0#8) := by decide

/-! ### CRC commands (42_crc.md) -/

theorem test_crcInit : (nextOf (exec .crcInit { fresh with crc := 0x1234#16 })).map (·.crc) = some 0xFFFF#16 := by decide
theorem test_crcBit : (nextOf (exec (.crcBit 0#8) fresh)).map (·.crc) = some 0xFBF7#16 ∧
    (nextOf (exec (.crcBit 1#8) fresh)).map (·.crc) = some 0x7FFF#16 := by decide
theorem test_crcBit_range : (nextOf (exec (.crcBit 2#8) fresh)).map (fun t => (t.crc, t.errOp, t.errCause)) =
    some (0xFFFF#16, 0x11#8, 0x03#8) := by decide
theorem test_crcByte : (nextOf (exec (.crcByte 0x41#8) fresh)).map (·.crc) = some 0x5C0A#16 ∧
    (nextOf (exec (.crcByte 0x7E#8) fresh)).map (·.crc) = some 0x957E#16 := by decide
theorem test_crcRd : (nextOf (exec .crcRd fresh)).map (·.res) = some 0xFFFF#16 := by decide
theorem test_crcFcs : (nextOf (exec .crcFcs { fresh with crc := 0x6F91#16 })).map (fun t => (t.res, t.crc)) =
    some (0x906E#16, 0x6F91#16) := by decide
theorem test_crcWr : (nextOf (exec (.crcWr 0x0001#16) fresh)).map (·.crc) = some 0x0001#16 := by decide

/-! ### Frame encoder (43_frame_encoder.md) -/

/-- A start of frame with the transmitter off reloads the sample counter; with it on (R296) it does not. -/
theorem test_frmStart : (nextOf (exec (.frmStart 2#16) { fresh with ctrl := 0x0A#8, smpCount := 9#16 })).map
      (fun t => (t.ctrl, t.smpCount, t.encFlagsLeft)) = some (0x0D#8, 4#16, 2#16) ∧
    (nextOf (exec (.frmStart 2#16) { fresh with ctrl := 0x0B#8, smpCount := 9#16 })).map (·.smpCount) = some 9#16 := by
  decide
theorem test_frmByte : (nextOf (exec (.frmByte 0x7E#8) fresh)).map (fun t => (t.encCrcEn, t.encBit, t.busy)) =
      some (false, 0, true) ∧
    (nextOf (exec (.frmByte 0x41#8) fresh)).map (·.encCrcEn) = some true := by decide
theorem test_frmEnd : (nextOf (exec .frmEnd { fresh with crc := 0x5C0A#16 })).map (fun t => (t.crc, t.encEndStage)) =
    some (0xA3F5#16, 0#2) := by decide
/-- The examples of R270 and R271: two flags, and 0xFF from mark. -/
theorem test_line_symbols :
    (fresh.line.sendRaw [0x7E#8, 0x7E#8]).symbols =
      [true, true, true, true, true, true, true, false, true, true, true, true, true, true, true, false] ∧
    (fresh.line.sendByte 0xFF#8 true).symbols = [false, false, false, false, false, true, true, true, true] ∧
    (fresh.line.sendByte 0xFF#8 true).ones = 3#3 := by decide
/-- The fifth one bit makes a stuffed zero due, and the next step sends it. -/
theorem test_encStep : (nextOf (encStep { sending 0xFF#8 with ones := 4#3 })).map (fun t => (t.encStuff, t.ones, t.tone)) =
      some (true, 5#3, false) ∧
    (nextOf (encStep { sending 0xFF#8 with ones := 5#3, encStuff := true })).map (fun t => (t.encStuff, t.ones, t.tone)) =
      some (false, 0#3, true) := by decide
theorem test_finish : (nextOf (encStep { fresh with busy := true, encJob := .frameEnd, encEndStage := 3#2, ctrl := 0x0F#8 })).map
      (fun t => (t.ctrl, t.busy, t.encJob)) = some (0x0A#8, false, .none) := by decide

/-! ### Bit clock (44_bitclock.md) -/

theorem test_wait : (nextOf (exec (.wait 3#16) fresh)).map (fun t => (t.busy, t.dlFlag, t.dlCount, t.encJob)) =
    some (true, true, 3#16, .wait) := by decide
theorem test_ctrlWr : (nextOf (exec (.ctrlWr 0x05#8) { fresh with smpCount := 1#16 })).map (fun t => (t.ctrl, t.smpCount)) =
    some (0x05#8, 4#16) := by decide
theorem test_ctrlWr_reserved : (nextOf (exec (.ctrlWr 0x40#8) fresh)).map (fun t => (t.ctrl, t.errOp, t.errCause)) =
    some (0x00#8, 0x31#8, 0x02#8) := by decide
theorem test_ctrlRd : (nextOf (exec .ctrlRd { fresh with ctrl := 0x3A#8 })).map (·.res) = some 0x003A#16 := by decide
/-- The example of R295. -/
theorem test_tick :
    (fun t : State => (t.waveIdx, t.dac, t.smpCount, t.dlCount))
      (tickEvent { fresh with ctrl := 0x01#8, smpCount := 1#16, waveIdx := 15#4, dlCount := 5#16 }) =
      (0#4, 15#4, 4#16, 4#16) := by decide
/-- The nominal values of R6 at a rate of 211200 Hz: the three quotients 11, 6 and 176. -/
theorem test_nominal : nominal { params with fTick := 211200, reloadMark := 11#16, reloadSpace := 6#16, bitTicks := 176#16 } ∧
    ¬ nominal params := by
  constructor
  · refine ⟨?_, ?_, ?_⟩ <;> norm_num
  · rintro ⟨-, h, -⟩
    norm_num [params] at h
theorem test_tick_expiry : (fun t : State => (t.dlFlag, t.dlCount)) (tickEvent { fresh with dlFlag := true, dlCount := 0#16 }) =
    (false, 500#16) := by decide

/-! ### Serial link (40_serial_link.md) -/

theorem test_rxPoll : (nextOf (exec .rxPoll (received 0x24#8))).map (fun t => (t.res, t.rx.tail)) = some (0x0124#16, 1) ∧
    (nextOf (exec .rxPoll fresh)).map (·.res) = some 0x0000#16 := by decide
theorem test_rxPollFeed : (nextOf (exec .rxPollFeed (received 0x24#8))).map (fun t => (t.res, t.comma, t.stype)) =
    some (0x0124#16, 0#8, .none) := by decide
theorem test_txEnq : (nextOf (exec (.txEnq 0x41#8) fresh)).map (fun t => (t.txTrace, t.txAct, t.tx.head, t.tx.tail)) =
    some ([0x41#8], true, 1, 1) := by decide
theorem test_txEnq_dropped :
    (nextOf (exec (.txEnq 0x41#8) { fresh with txAct := true, tx := ringWith 95 0#8, ctrl := 0x20#8 })).map
      (fun t => (t.tx.ovf, t.tx.head)) = some (1#8, 95) := by decide
theorem test_ovfRd : (nextOf (exec .ovfRd { fresh with rx := { ringWith 0 0#8 with ovf := 3#8 } })).map (·.res) =
    some 0x0003#16 := by decide
theorem test_ovfClr : (nextOf (exec .ovfClr { fresh with rx := { ringWith 7 0#8 with ovf := 3#8 } })).map
    (fun t => (t.rx.ovf, t.rx.head)) = some (0#8, 7) := by decide
theorem test_ringRd : (nextOf (exec (.ringRd 0#8) (received 0x24#8))).map (·.res) = some 0x0100#16 ∧
    (nextOf (exec (.ringRd 1#8) (received 0x24#8))).map (·.res) = some 0x0000#16 := by decide
/-- R143: the push into 95 unread bytes empties the ring in silent mode. -/
theorem test_rxEvent_silent : (rxEvent 0x55#8 { fresh with rx := ringWith 95 0#8 }).rx.head = 0 ∧
    (rxEvent 0x55#8 { fresh with rx := ringWith 95 0#8 }).rx.ovf = 0#8 := by decide
/-- The example of R145. -/
theorem test_txEmpty : (fun t : State => (t.txTrace, t.txAct, t.tx.tail))
      (txEmptyEvent { fresh with txAct := true, tx := ringWith 1 0x41#8 }) = ([0x41#8], true, 1) ∧
    (txEmptyEvent { fresh with txAct := true }).txAct = false := by decide
/-- R404: a byte that arrives while an unread one can still be fed breaks the assumption; one that arrives after it keeps it. -/
theorem test_feederKeepsUp :
    ¬ ({ received 0x24#8 with busy := true, encJob := .wait, dlFlag := true, agenda := [.rxByte 0x47#8] } : State).feederKeepsUp 1 ∧
    ({ fresh with busy := true, encJob := .wait, dlFlag := true, agenda := [.rxByte 0x47#8] } : State).feederKeepsUp 1 := by
  constructor
  · intro h
    obtain ⟨i, w, -, hi, hw, hr⟩ := h 0 0 _ _ (Nat.le_refl 0) (by decide) rfl (by decide) rfl ⟨_, rfl⟩
    obtain rfl : i = 0 := Nat.le_zero.mp hi
    cases hw
    exact absurd hr (by decide)
  · intro j k u v hj hk hu he _ _
    obtain rfl : j = 0 := by omega
    cases hu
    exact absurd he (by decide)
theorem test_feeder : (fun t : State => (t.comma, t.res, t.rx.tail))
      (feederStep { received 0x24#8 with busy := true, encJob := .wait, dlFlag := true }) = (0#8, 0#16, 1) := by decide

/-! ### Position decoder (41_position_decoder.md) -/

theorem test_nmeaFeed : (nextOf (exec (.nmeaFeed 0x24#8) fresh)).map (·.comma) = some 0#8 ∧
    (nextOf (exec (.nmeaFeed 0x31#8) (parsing .gpgga 1#8))).map (fun t => (t.tmp.time[0], t.cidx)) =
      some (0x31#8, 1#8) := by decide
theorem test_nmeaCommit :
    (nextOf (exec .nmeaCommit { fresh with tmp := { TempSet.zero with satellites := #v[0x30#8, 0x38#8] } })).map
      (·.fix.satellites) = some #v[0x30#8, 0x38#8, 0x00#8] := by decide
theorem test_fixRd : (nextOf (exec (.fixRd 6#8 2#8) fresh)).map (·.res) = some 0x0000#16 ∧
    (nextOf (exec (.fixRd 6#8 3#8) fresh)).map (fun t => (t.errOp, t.errCause)) = some (0x52#8, 0x03#8) := by decide
theorem test_tmpRd :
    (nextOf (exec (.tmpRd 6#8 1#8) { fresh with tmp := { TempSet.zero with satellites := #v[0x30#8, 0x38#8] } })).map
      (·.res) = some 0x0038#16 ∧
    (nextOf (exec (.tmpRd 6#8 2#8) fresh)).map (fun t => (t.errOp, t.errCause)) = some (0x53#8, 0x03#8) := by decide
theorem test_curRd : (nextOf (exec .curRd fresh)).map (·.res) = some 0xFF00#16 := by decide
/-- The example of R189: the old text's tail stays. -/
theorem test_store :
    (Claims.feedAll { parsing .gpgga 9#8 with tmp := { TempSet.zero with
        altitude := #v[0x31#8, 0x32#8, 0x33#8, 0x34#8, 0x2E#8, 0x35#8, 0x00#8] } } (Claims.ascii "545.4")).tmp.altitude =
      #v[0x35#8, 0x34#8, 0x35#8, 0x2E#8, 0x34#8, 0x35#8, 0x00#8] := by decide
/-- The comma count sticks at the sentinel (R185). -/
theorem test_comma_sticks : (fresh.feed 0x2C#8).comma = 0xFF#8 := by decide

/-! ### Assembler (30_encoding.md R109, R110) -/

theorem test_assemble : assemble ["FIX_RD LAT, 3 ; a comment", "FRM_BYTE 'A'", "WAIT 0x3E8"] =
    some [0x520103#24, 0x210041#24, 0x3003E8#24] := by decide
theorem test_assemble_refuses : assemble ["FRM_BYTE 256"] = none ∧ assemble ["CRC_BIT 2"] = some [0x110002#24] := by decide

/-! ### Witnesses: for each statement with hypotheses, a state and operands that meet them all, clause by clause -/

/-- The block after reset meets the invariant, whatever stands on its port and whatever the agenda. -/
theorem fresh_inv (c : List Cmd) (a : List Move) : ({ fresh with cmds := c, agenda := a } : State).Inv where
  cfg_legal := by show params.legal = true; decide
  ones_le := by show (0#3).toNat ≤ 5; decide
  ones_stuff := by show (0#3 : BitVec 3) = 5#3 ↔ false = true; decide
  stuff_job := by intro h; exact absurd (show false = true from h) (by decide)
  crcEn_byte := by intro h; exact absurd (show false = true from h) (by decide)
  job_busy := by show Job.none = Job.none ↔ false = false; simp
  dl_idle := fun _ => rfl
  tx_idle := fun _ => rfl
  fix_end := by intro f; cases f <;> rfl
  ctrl_reserved := by show (0x00#8).extractLsb' 6 2 = 0#2; decide
  err_clear := fun _ => ⟨rfl, rfl⟩
  err_cause := by intro h; exact absurd (show false = true from h) (by decide)

theorem witness_AcceptedWordEncodesItsCommand : ∃ (w : Cmd) (i : Instr), decode w = .ok i := ⟨0x210041#24, _, rfl⟩
theorem witness_WorkedEncodingsRead : ∃ s : State, s.err = false := ⟨fresh, rfl⟩
/-- The opcodes next to the defined ones, and the last of all; and a defined one. -/
theorem witness_UndefinedOpcodeRaisesIllegalOpcode :
    opField 0x040000#24 ∉ Claims.opcodes ∧ opField 0x550000#24 ∉ Claims.opcodes ∧ opField 0xFF0000#24 ∉ Claims.opcodes ∧
    opField 0x540000#24 ∈ Claims.opcodes := by decide
/-- The lowest and the highest reserved bit of each format. -/
theorem witness_ReservedBitsRaiseReservedBits :
    (0x10#8 ∈ Claims.opcodesN ∧ (0x0001#16 : Half) ≠ 0 ∧ (0x8000#16 : Half) ≠ 0) ∧
    (0x11#8 ∈ Claims.opcodesB ∧ (0x01#8 : Byte) ≠ 0 ∧ (0x80#8 : Byte) ≠ 0) ∧
    ((0x40#8 : Byte).extractLsb' 6 2 ≠ 0#2 ∧ (0x80#8 : Byte).extractLsb' 6 2 ≠ 0#2) ∧
    0x20#8 ∈ Claims.opcodesW ++ Claims.opcodesF ∧ 0x53#8 ∈ Claims.opcodesW ++ Claims.opcodesF := by decide
/-- The first operand out of each range, and a command whose operand is out of range. -/
theorem witness_OperandOutOfRangeRaisesOperandRange :
    1 < (2#8 : Byte).toNat ∧
    (∀ fld : Field, fieldOfCode 0#8 = some fld → fld.len < (7#8 : Byte).toNat) ∧
    (∀ fld : Field, fieldOfCode 7#8 = some fld → fld.len < (0#8 : Byte).toNat) ∧
    (∀ fld : Field, fieldOfCode 6#8 = some fld → fld.len - 1 < (2#8 : Byte).toNat) ∧
    (fieldOfCode 7#8 = none ∧ 6 < (7#8 : Byte).toNat) ∧
    ∃ t : State, fresh.err = false ∧ takeCommand 0x110002#24 fresh = .next t ∧ t.errCause = 0x03#8 ∧ t.err = true := by
  refine ⟨by decide, ?_, ?_, ?_, by decide, _, rfl, rfl, rfl, rfl⟩ <;> intro fld h <;> cases fld <;> revert h <;> decide
/-- A word for each of the three codes. -/
theorem witness_RejectedWordChangesOnlyTheErrorRecord :
    (∀ i, decode 0x7F0000#24 = .ok i → i.wellFormed = false) ∧ (∀ i, decode 0x310040#24 = .ok i → i.wellFormed = false) ∧
    (∀ i, decode 0x110002#24 = .ok i → i.wellFormed = false) := by
  refine ⟨?_, ?_, ?_⟩ <;> intro i h <;> cases h <;> decide
theorem witness_WellFormedCommandCompletesWithoutError :
    (Instr.crcBit 1#8).wellFormed = true ∧ Instr.crcBit 1#8 ≠ .errClr := by decide
/-- A turn of the agenda; a word on the port (a rejected one, then one that decodes), with the controller next on the agenda and
with the agenda empty. -/
theorem witness_StepRunsTheDecodedCommand :
    (∃ (s : State) (m : Move) (ms : List Move), s.agenda = m :: ms) ∧
    (∃ (s : State) (w : Cmd) (ws : List Cmd) (ms : List Move) (c : Cause),
      s.busy = false ∧ s.cmds = w :: ws ∧ s.agenda = .controller :: ms ∧ decode w = .error c) ∧
    (∃ (s : State) (w : Cmd) (ws : List Cmd) (c : Cause),
      s.busy = false ∧ s.cmds = w :: ws ∧ s.agenda = [] ∧ decode w = .error c) ∧
    (∃ (s : State) (w : Cmd) (ws : List Cmd) (i : Instr) (ms : List Move),
      s.busy = false ∧ s.cmds = w :: ws ∧ decode w = .ok i ∧ s.agenda = .controller :: ms) ∧
    (∃ (s : State) (w : Cmd) (ws : List Cmd) (i : Instr),
      s.busy = false ∧ s.cmds = w :: ws ∧ decode w = .ok i ∧ s.agenda = []) :=
  ⟨⟨{ fresh with agenda := [.tick] }, _, _, rfl⟩,
    ⟨{ fresh with cmds := [0x7F0000#24], agenda := [.controller, .tick] }, _, _, _, _, rfl, rfl, rfl, rfl⟩,
    ⟨{ fresh with cmds := [0x100001#24] }, _, _, _, rfl, rfl, rfl, rfl⟩,
    ⟨{ fresh with cmds := [0x210041#24], agenda := [.controller, .tick] }, _, _, _, _, rfl, rfl, rfl, rfl⟩,
    ⟨{ fresh with cmds := [0x210041#24] }, _, _, _, rfl, rfl, rfl, rfl⟩⟩
theorem witness_WordTakenOnlyWhileReady : ∃ s t : State, step s = .next t := ⟨fresh, _, rfl⟩
theorem witness_DisabledTurnsChangeNothing :
    (∃ s : State, s.busy = true) ∧ (∃ s : State, s.busy = false) ∧ (∃ s : State, s.dlFlag = true) ∧
    (∃ s : State, s.busy = true ∧ s.dlFlag = true ∧ s.rx.contents = []) ∧ (∃ s : State, s.txAct = false) :=
  ⟨⟨sending 0#8, rfl⟩, ⟨fresh, rfl⟩, ⟨{ fresh with dlFlag := true }, rfl⟩,
    ⟨{ sending 0#8 with dlFlag := true }, rfl, rfl, rfl⟩, ⟨fresh, rfl⟩⟩
/-- The last character of a field, and of its committed copy. -/
theorem witness_ResetStateHoldsTheSpecValues :
    (∃ s : State, s = State.reset) ∧ 1 < Field.satellites.len ∧ 2 < Field.satellites.len + 1 :=
  ⟨⟨State.reset, rfl⟩, by decide, by decide⟩
theorem witness_ResetEventRestoresTheResetValues : 5 < Field.time.len ∧ 6 < Field.time.len + 1 := by decide
theorem witness_ResetMeetsTheInvariant : ∃ p : Config.Params, p.legal = true := ⟨params, by decide⟩
theorem witness_EveryStepKeepsTheInvariant : ∃ s t : State, s.Inv ∧ step s = .next t := ⟨fresh, _, fresh_inv [] [], rfl⟩
theorem witness_ReachableStatesMeetTheDerivedInvariants :
    ∃ s : State, s.Reachable ∧ s.busy = false ∧ s.txAct = false :=
  ⟨{ State.reset with cmds := [0x210041#24], agenda := [.rxByte 0x24#8] }, ⟨_, _, 0, rfl⟩, rfl, rfl⟩
theorem witness_InvariantStatesNeverStop :
    (∃ s : State, s.Inv) ∧ ∃ s : State, ∀ t, step s ≠ .next t :=
  ⟨⟨fresh, fresh_inv [] []⟩, ⟨{ sending 0xFF#8 with ones := 6#3, agenda := [.sequencer] }, fun _ h => nomatch h⟩⟩
theorem witness_SystemCommandsFollowTheirRules : ∃ s : State, s.Inv ∧ s.err = false := ⟨fresh, fresh_inv [] [], rfl⟩
/-- The operands out of range, and the nine values of `CRC` through one byte. -/
theorem witness_CrcCommandsFollowTheirRules : (1 < (2#8 : Byte).toNat ∧ 1 < (0xFF#8 : Byte).toNat) ∧
    ∀ (s : State) (d : Byte), ∃ c : Nat → Half, c 0 = s.crc ∧ ∀ k, k < 8 → c (k + 1) = Claims.crcStepOf (c k) (d.getLsbD k) :=
  ⟨by decide, fun s d => ⟨Nat.rec s.crc fun k c => Claims.crcStepOf c (d.getLsbD k), rfl, fun _ _ => rfl⟩⟩
/-- The run counter at both ends of its range; a flag byte and another. -/
theorem witness_EncoderStepsCarryOutTheByteProcedure :
    (∃ s : State, s.ones.toNat ≤ 4 ∧ s.encBit = 0 ∧ s.encStuff = false ∧ s.ones = 0#3 ∧ s.encByte = 0x7E#8) ∧
    ∃ s : State, s.ones.toNat ≤ 4 ∧ s.encBit = 0 ∧ s.encStuff = false ∧ s.ones = 4#3 ∧ s.encByte = 0xFF#8 :=
  ⟨⟨sending 0x7E#8, by decide, rfl, rfl, rfl, rfl⟩, ⟨{ sending 0xFF#8 with ones := 4#3 }, by decide, rfl, rfl, rfl, rfl⟩⟩
/-- Between two bytes of job `j` at stage `e` with `w` flags left. -/
def betweenBytes (j : Job) (w : Half) (e : BitVec 2) : State :=
  { sending 0#8 with encJob := j, encBit := 8, encFlagsLeft := w, encEndStage := e, ones := 4#3 }
theorem witness_EncoderLoadsTheBytesOfItsJob :
    (∀ (j : Job) (w : Half) (e : BitVec 2), (betweenBytes j w e).busy = true ∧ (betweenBytes j w e).dlFlag = false ∧
      (betweenBytes j w e).encJob = j) ∧
    (∀ (j : Job) (w : Half) (e : BitVec 2), (betweenBytes j w e).ones.toNat ≤ 4 ∧ (betweenBytes j w e).encBit = 8 ∧
      (betweenBytes j w e).encStuff = false) ∧
    (∃ s, s = betweenBytes .flags 1#16 0#2 ∧ s.encJob = .flags ∧ s.encFlagsLeft ≠ 0) ∧
    (∃ s, s = betweenBytes .frameEnd 0#16 0#2 ∧ s.encJob = .frameEnd ∧ s.encEndStage = 0) ∧
    (∃ s, s = betweenBytes .frameEnd 0#16 1#2 ∧ s.encJob = .frameEnd ∧ s.encEndStage = 1) ∧
    (∃ s, s = betweenBytes .frameEnd 0#16 2#2 ∧ s.encJob = .frameEnd ∧ s.encEndStage = 2) ∧
    (∃ s, s = betweenBytes .byte 0#16 0#2 ∧ s.encJob = .byte) ∧
    (∃ s, s = betweenBytes .flags 0#16 0#2 ∧ s.encJob = .flags ∧ s.encFlagsLeft = 0) ∧
    ∃ s, s = betweenBytes .frameEnd 0#16 3#2 ∧ s.encJob = .frameEnd ∧ s.encEndStage = 3 :=
  ⟨fun _ _ _ => ⟨rfl, rfl, rfl⟩, fun _ _ _ => ⟨by show (4#3).toNat ≤ 4; decide, rfl, rfl⟩, ⟨_, rfl, rfl, by decide⟩, ⟨_, rfl, rfl, rfl⟩,
    ⟨_, rfl, rfl, rfl⟩, ⟨_, rfl, rfl, rfl⟩, ⟨_, rfl, rfl⟩, ⟨_, rfl, rfl, rfl⟩, ⟨_, rfl, rfl, rfl⟩⟩
/-- Also for ReceiverRecoversTheBytesSent: the run counter at both ends of its range. -/
theorem witness_StuffedLineKeepsNoToneSevenPeriods :
    (∃ l : Line, l.ones.toNat ≤ 4 ∧ l.ones = 4#3) ∧ (∃ l : Line, l.ones.toNat ≤ 4 ∧ l.ones = 0#3) ∧
    ∀ d ∈ ([0xFF#8, 0x00#8, 0x7F#8] : List Byte), d ≠ 0x7E#8 :=
  ⟨⟨({ sending 0xFF#8 with ones := 4#3 } : State).line, by decide, rfl⟩, ⟨fresh.line, by decide, rfl⟩, by decide⟩
theorem witness_ReceiverRecoversTheBytesSent :
    ∃ (l : Line) (m : List Byte), l.ones.toNat ≤ 4 ∧ m ≠ [] ∧ ∀ d ∈ m, d ≠ 0x7E#8 :=
  ⟨fresh.line, [0xFF#8, 0x00#8], by decide, by decide, by decide⟩
/-- A run (R415) of the one word NOP ends with the step that takes it, and not later; its traces are empty. -/
theorem test_isRun_nop : IsRun [0x000000#24] [.controller, .tick] { State.reset with agenda := [.tick] } ⟨[], [], []⟩ := by
  refine ⟨1, ⟨rfl, ⟨rfl, rfl⟩, ?_⟩, rfl⟩
  intro k u hk hu
  obtain rfl : k = 0 := by omega
  cases hu
  exact fun h => nomatch h.1
theorem witness_ByteCommandRunsToCompletion : ∃ (s : State) (d : Byte), s.Inv ∧ s.busy = false ∧ s.agenda = [] ∧
    s.cmds = [encode (.frmByte d)] := ⟨_, 0xFF#8, fresh_inv [encode (.frmByte 0xFF#8)] [], rfl, rfl, rfl⟩
/-- The shortest frame, and one with flags and a payload. -/
theorem witness_WholeFrameIsSent :
    (∃ s : State, s.Inv ∧ s.busy = false ∧ s.agenda = [] ∧
      s.cmds = (Instr.frmStart 0#16 :: frmStr [] ++ [Instr.frmEnd]).map encode) ∧
    ∃ s : State, s.Inv ∧ s.busy = false ∧ s.agenda = [] ∧
      s.cmds = (Instr.frmStart 2#16 :: frmStr [0x41#8, 0x7E#8] ++ [Instr.frmEnd]).map encode :=
  ⟨⟨_, fresh_inv ((Instr.frmStart 0#16 :: frmStr [] ++ [Instr.frmEnd]).map encode) [], rfl, rfl, rfl⟩,
    ⟨_, fresh_inv ((Instr.frmStart 2#16 :: frmStr [0x41#8, 0x7E#8] ++ [Instr.frmEnd]).map encode) [], rfl, rfl, rfl⟩⟩
/-- A busy state: WAIT 5 just taken. -/
theorem witness_BusyCommandsEnd : ∃ s : State, s.Inv ∧ s.agenda = [] ∧ s.busy = true := by
  have h := fresh_inv [] []
  exact ⟨{ fresh with busy := true, encJob := .wait, dlFlag := true, dlCount := 5#16 },
    ⟨h.cfg_legal, h.ones_le, h.ones_stuff, fun e => absurd (show false = true from e) (by decide), h.crcEn_byte,
      by show Job.wait = Job.none ↔ true = false; decide, fun e => absurd (show true = false from e) (by decide), h.tx_idle,
      h.fix_end, h.ctrl_reserved, h.err_clear, h.err_cause⟩, rfl, rfl⟩
theorem witness_ClockCommandsFollowTheirRules :
    (0x3F#8 : Byte).extractLsb' 6 2 = 0#2 ∧ (0x40#8 : Byte).extractLsb' 6 2 ≠ 0#2 ∧ (0x80#8 : Byte).extractLsb' 6 2 ≠ 0#2 ∧
    ({ fresh with cmds := [] } : State).Inv := ⟨by decide, by decide, by decide, fresh_inv [] []⟩
/-- Both counters at 0, 1 and 2, the transmitter on and off. -/
theorem witness_TickFollowsItsRule :
    (∃ s : State, s.dlCount.toNat ≤ 1 ∧ s.dlCount = 0#16) ∧ (∃ s : State, s.dlCount.toNat ≤ 1 ∧ s.dlCount = 1#16) ∧
    (∃ s : State, 1 < s.dlCount.toNat ∧ s.dlCount = 2#16) ∧
    (∃ s : State, s.txen = true ∧ s.smpCount.toNat ≤ 1 ∧ s.smpCount = 0#16) ∧
    (∃ s : State, s.txen = true ∧ s.smpCount.toNat ≤ 1 ∧ s.smpCount = 1#16) ∧
    (∃ s : State, s.txen = true ∧ 1 < s.smpCount.toNat ∧ s.smpCount = 2#16) ∧ ∃ s : State, s.txen = false :=
  ⟨⟨{ fresh with dlCount := 0#16 }, by decide, rfl⟩, ⟨{ fresh with dlCount := 1#16 }, by decide, rfl⟩,
    ⟨{ fresh with dlCount := 2#16 }, by decide, rfl⟩, ⟨{ fresh with ctrl := 0x01#8, smpCount := 0#16 }, by decide, by decide, rfl⟩,
    ⟨{ fresh with ctrl := 0x01#8, smpCount := 1#16 }, by decide, by decide, rfl⟩,
    ⟨{ fresh with ctrl := 0x01#8, smpCount := 2#16 }, by decide, by decide, rfl⟩, ⟨fresh, by decide⟩⟩
/-- A counter at 0 (its only `k` is 0) and at 2 (its last is 1), the transmitter on. -/
theorem witness_CountersExpireOnTheirTick :
    ∃ s : State, s.txen = true ∧ 0 < max s.smpCount.toNat 1 ∧ s.smpCount = 0#16 ∧ 1 < max s.dlCount.toNat 1 ∧ s.dlCount = 2#16 :=
  ⟨{ fresh with ctrl := 0x01#8, smpCount := 0#16, dlCount := 2#16 }, by decide, by decide, rfl, by decide, rfl⟩
/-- The waits of 0 and of 2 ticks. -/
theorem witness_WaitTakesItsTicks : ∀ w ∈ ([0#16, 2#16] : List Half), ∃ (s : State) (ws : List Cmd) (ms : List Move),
    s.busy = false ∧ s.cmds = encode (.wait w) :: ws ∧
    s.agenda = .controller :: List.replicate (max w.toNat 1) .tick ++ .sequencer :: ms ∧ 0 < max w.toNat 1 := by
  intro w _
  exact ⟨{ fresh with cmds := [encode (.wait w)], agenda := .controller :: List.replicate (max w.toNat 1) .tick ++ [.sequencer] },
    [], [], rfl, rfl, rfl, by omega⟩
theorem witness_SamplesCycleThroughTheWaveform :
    (∃ s : State, s.txen = true ∧ s.cfg.legal = true ∧ s.smpCount = reload s.cfg s.tone ∧ 3 < (reload s.cfg s.tone).toNat) ∧
    ∃ s : State, s.txen = true ∧ s.tone = true ∧ s.cfg.legal = true ∧ s.smpCount = reload s.cfg s.tone :=
  ⟨⟨{ fresh with ctrl := 0x01#8, smpCount := 4#16 }, by decide, by decide, by decide, by decide⟩,
    ⟨{ fresh with ctrl := 0x03#8, smpCount := 2#16 }, by decide, by decide, by decide, by decide⟩⟩
/-- FRM_START enables the transmitter; a command while it is on leaves it so. -/
theorem witness_TransmitterEnableReloadsTheSampleCounter :
    (∃ s t : State, step s = .next t ∧ s.txen = false ∧ t.txen = true ∧ t.cfg.legal = true ∧
      0 ≤ (reload t.cfg t.tone).toNat) ∧
    ∃ (i : Instr) (s t : State), exec i s = .next t ∧ s.txen = true ∧ t.txen = true :=
  ⟨⟨{ fresh with cmds := [encode (.frmStart 1#16)] }, _, rfl, by decide, by decide, by decide, by decide⟩,
    ⟨.frmStart 1#16, { fresh with ctrl := 0x01#8 }, _, rfl, by decide, by decide⟩⟩
theorem witness_PollsFollowTheirRules : fresh.rx.contents = [] ∧ (received 0x24#8).rx.contents = 0x24#8 :: [] := by decide
/-- A transmitter that is idle, and one that is busy with 94 and with 95 bytes waiting, in both modes. -/
theorem witness_EnqueueFollowsItsRule :
    (fresh.txAct = false ∧ fresh.tx.head = fresh.tx.tail ∧ fresh.tx.count < 95) ∧
    (∃ s : State, (s.txAct = false → s.tx.head = s.tx.tail) ∧ s.txAct = true ∧ s.tx.count < 95 ∧ s.tx.count = 94) ∧
    (∃ s : State, (s.txAct = false → s.tx.head = s.tx.tail) ∧ s.txAct = true ∧ s.tx.count = 95 ∧ s.txovm = false) ∧
    ∃ s : State, (s.txAct = false → s.tx.head = s.tx.tail) ∧ s.txAct = true ∧ s.tx.count = 95 ∧ s.txovm = true :=
  ⟨by decide, ⟨{ fresh with txAct := true, tx := ringWith 94 0#8 }, by decide, rfl, by decide, by decide⟩,
    ⟨{ fresh with txAct := true, tx := ringWith 95 0#8 }, by decide, rfl, by decide, by decide⟩,
    ⟨{ fresh with txAct := true, tx := ringWith 95 0#8, ctrl := 0x20#8 }, by decide, rfl, by decide, by decide⟩⟩
theorem witness_RingReadbackFollowsItsRules : 1 < (2#8 : Byte).toNat ∧ 1 < (0xFF#8 : Byte).toNat := by decide
theorem witness_ReceiveEventAppends :
    (∃ s : State, s.rx.count < 95 ∧ s.rx.count = 94 ∧ s.rxovm = true) ∧ (∃ s : State, s.rx.count = 95 ∧ s.rxovm = false) ∧
    ∃ s : State, s.rx.count = 95 ∧ s.rxovm = true :=
  ⟨⟨{ fresh with rx := ringWith 94 0#8, ctrl := 0x10#8 }, by decide, by decide, by decide⟩,
    ⟨{ fresh with rx := ringWith 95 0#8 }, by decide, by decide⟩,
    ⟨{ fresh with rx := ringWith 95 0#8, ctrl := 0x10#8 }, by decide, by decide⟩⟩
theorem witness_TransmitEmptyEventSendsTheOldest :
    (∃ s : State, s.txAct = true ∧ s.tx.contents = []) ∧
    ∃ s : State, s.txAct = true ∧ s.tx.contents = 0x41#8 :: [0x41#8] :=
  ⟨⟨{ fresh with txAct := true }, rfl, by decide⟩, ⟨{ fresh with txAct := true, tx := ringWith 2 0x41#8 }, rfl, by decide⟩⟩
theorem witness_FeederFeedsTheOldestByte : ∃ s : State, s.busy = true ∧ s.dlFlag = true ∧ s.rx.contents = 0x24#8 :: [] :=
  ⟨{ received 0x24#8 with busy := true, encJob := .wait, dlFlag := true }, rfl, rfl, by decide⟩
/-- A push into 94 unread bytes, and a pop of the last byte. -/
theorem witness_RingIsFirstInFirstOut :
    (∃ x, Claims.ringRun false [some 0x41#8] (ringWith 94 0#8) = some x) ∧
    ∃ x, Claims.ringRun true [none, some 0x41#8] (ringWith 1 0#8) = some x :=
  ⟨⟨_, rfl⟩, ⟨_, rfl⟩⟩
/-- A ring with 95 unread bytes; and an empty one with the first and the last `k`. -/
theorem witness_SilentOverflowKeepsTheNewest :
    (ringWith 95 0#8).count = 95 ∧ (ringWith 0 0#8).head = (ringWith 0 0#8).tail ∧
    (∃ bs : List Byte, bs.length = 95 + 1) ∧ ∃ bs : List Byte, bs.length = 95 + 96 :=
  ⟨by decide, rfl, ⟨List.replicate _ 0#8, List.length_replicate⟩, ⟨List.replicate _ 0#8, List.length_replicate⟩⟩
/-- The identity section, a section nothing is routed from, and one routed to a field. -/
theorem witness_FeedFollowsItsCases :
    (fresh.feed 0x24#8).comma = 0#8 ∧
    ((parsing .gprmc 0#8).comma = 0#8 ∧ (0x41#8 : Byte) ≠ 0x00#8 ∧ (0x41#8 : Byte) ≠ 0x24#8 ∧ (0x41#8 : Byte) ≠ 0x2C#8 ∧
      (parsing .gprmc 0#8).stype ≠ .ignored ∧ (parsing .ignored 0#8).stype = .ignored) ∧
    ((parsing .gprmc 1#8).comma ≠ 0#8 ∧
      ∀ fld : Field, ((parsing .gprmc 1#8).stype, (parsing .gprmc 1#8).comma, fld) ∉ Claims.routing) ∧
    ((parsing .gpgga 9#8).comma ≠ 0#8 ∧
      ((parsing .gpgga 9#8).stype, (parsing .gpgga 9#8).comma, Field.altitude) ∈ Claims.routing) := by
  refine ⟨by decide, by decide, ⟨by decide, ?_⟩, by decide⟩
  intro fld; cases fld <;> decide
theorem witness_IdentitySectionSetsTheType :
    (parsing .none 0#8).comma = 0#8 ∧
    (∀ b ∈ ([0x43#8] ++ [0x41#8, 0x50#8] : List Byte), b ≠ 0x00#8 ∧ b ≠ 0x24#8 ∧ b ≠ 0x2C#8) ∧
    (∀ b ∈ ([0x41#8, 0x50#8] : List Byte), b ≠ 0x43#8) ∧ ∀ b ∈ ([0x50#8] : List Byte), b ≠ 0x53#8 ∧ b ≠ 0x41#8 := by decide
theorem witness_NulSilencesTheParserUntilTheNextStart : ∀ b ∈ ([0x2C#8, 0x53#8, 0x00#8] : List Byte), b ≠ 0x24#8 := by decide
theorem witness_RoutedTextIsStored :
    ((parsing .gpgga 9#8).stype, (parsing .gpgga 9#8).comma, Field.altitude) ∈ Claims.routing ∧
    (parsing .gpgga 9#8).cidx = 0#8 ∧
    ∀ b ∈ Claims.ascii "545.4", b ≠ 0x00#8 ∧ b ≠ 0x24#8 ∧ b ≠ 0x2C#8 := by decide
/-- The last readable character of a field and the first past it, for both reads. -/
theorem witness_PositionCommandsFollowTheirRules :
    (∃ h : (2#8 : Byte).toNat ≤ Field.satellites.len, fieldOfCode 6#8 = some Field.satellites ∧ h = h) ∧
    (∃ h : (1#8 : Byte).toNat < Field.satellites.len, fieldOfCode 6#8 = some Field.satellites ∧ h = h) ∧
    (∀ fld : Field, fieldOfCode 6#8 = some fld → fld.len < (3#8 : Byte).toNat) ∧
    (∀ fld : Field, fieldOfCode 6#8 = some fld → fld.len - 1 < (2#8 : Byte).toNat) ∧ fresh.Inv := by
  refine ⟨⟨by decide, rfl, rfl⟩, ⟨by decide, rfl, rfl⟩, ?_, ?_, fresh_inv [] []⟩ <;> intro fld h <;> cases fld <;>
    revert h <;> decide
/-- A read between the two commits changed `RES`; the last index in range and the first out of range. -/
theorem witness_CommitIsIdempotent :
    (∃ s t u : State, exec .nmeaCommit s = .next t ∧ u.tmp = t.tmp ∧ u.fix = t.fix ∧ t.res ≠ u.res) ∧
    (Instr.fixRd 6#8 2#8).wellFormed = true ∧ (Instr.fixRd 6#8 3#8).wellFormed = false :=
  ⟨⟨parsing .gpgga 9#8, _, { (parsing .gpgga 9#8).commit with res := 0xFF00#16 }, rfl, rfl, rfl, by decide⟩, by decide, by decide⟩
/-- A step that writes `RES`. -/
theorem witness_ResultWrittenOnlyByReadCommands : ∃ s t : State, step s = .next t ∧ t.res ≠ s.res :=
  ⟨{ fresh with cmds := [0x540000#24] }, _, rfl, by decide⟩
theorem witness_ReadsAreIdempotent :
    (received 0x24#8).rx.head ≠ (received 0x24#8).rx.tail ∧ Claims.isRead (.fixRd 6#8 2#8) = true ∧
    (Instr.fixRd 6#8 2#8).wellFormed = true := by decide
/-- A step that changes the committed set: a commit of a field that holds a character. -/
theorem witness_CommittedSetChangesOnlyAtCommit : ∃ s t : State, step s = .next t ∧ t.fix ≠ s.fix :=
  ⟨{ fresh with cmds := [0x510000#24], tmp := { TempSet.zero with satellites := #v[0x30#8, 0x38#8] } }, _, rfl, by decide⟩
/-- A step for each clause. -/
theorem witness_SharedCellsHaveOneWriter :
    (∃ s t : State, step s = .next t ∧ s.turn ≠ .reset ∧ s.dlFlag = true ∧ t.dlFlag = false) ∧
    (∃ s t : State, step s = .next t ∧ s.turn ≠ .reset ∧ s.dlFlag = false ∧ t.dlFlag = true) ∧
    (∃ s t : State, step s = .next t ∧ s.turn ≠ .reset ∧ t.txen ≠ s.txen) ∧
    (∃ s t : State, step s = .next t ∧ s.turn ≠ .reset ∧ t.rx.head ≠ s.rx.head) ∧
    (∃ s t : State, step s = .next t ∧ s.turn ≠ .reset ∧ t.rx.tail ≠ s.rx.tail) ∧
    ∃ s t : State, step s = .next t ∧ s.turn ≠ .reset ∧ t.tx.head ≠ s.tx.head ∧ t.tx.tail ≠ s.tx.tail :=
  ⟨⟨{ fresh with dlFlag := true, dlCount := 1#16, agenda := [.tick] }, _, rfl, by decide, rfl, by decide⟩,
    ⟨{ fresh with cmds := [encode (.wait 2#16)] }, _, rfl, by decide, rfl, rfl⟩,
    ⟨{ fresh with cmds := [encode (.frmStart 1#16)] }, _, rfl, by decide, by decide⟩,
    ⟨{ fresh with agenda := [.rxByte 0x24#8] }, _, rfl, by decide, by decide⟩,
    ⟨{ received 0x24#8 with cmds := [encode .rxPoll] }, _, rfl, by decide, by decide⟩,
    ⟨{ fresh with cmds := [encode (.txEnq 0x41#8)] }, _, rfl, by decide, by decide, by decide⟩⟩
/-- A command and an encoder step that change `CRC`. -/
theorem witness_CrcConfinedToTheControllersSide :
    (∃ s t : State, step s = .next t ∧ t.crc ≠ s.crc ∧ s.turn = .controller) ∧
    ∃ s t : State, step s = .next t ∧ t.crc ≠ s.crc ∧ s.turn = .sequencer :=
  ⟨⟨{ fresh with crc := 0x1234#16, cmds := [encode .crcInit] }, _, rfl, by decide, rfl⟩,
    ⟨{ sending 0x00#8 with crc := 0xFFFF#16 }, _, rfl, by decide, rfl⟩⟩
/-- A step of the sequencer, which adds a line symbol. -/
theorem witness_OutputsChangeOnlyByTheirAgents : ∃ s t : State, step s = .next t ∧ t.lineTrace ≠ s.lineTrace :=
  ⟨sending 0x00#8, _, rfl, by decide⟩
/-- The longest and the shortest call, the largest operands, and the first past each range. -/
theorem witness_AssemblerRefusesWhatDoesNotFit :
    (("CUR_RD", Instr.curRd) ∈ Claims.mnemonicsN ∧ ("SAT", 6#8) ∈ Claims.fieldNames ∧
      ∀ c, ("TIM", c) ∉ Claims.fieldNames) ∧
    (("NMEA_FEED", Instr.nmeaFeed) ∈ Claims.mnemonicsB ∧ ("WAIT", Instr.wait) ∈ Claims.mnemonicsW ∧
      ("TMP_RD", Instr.tmpRd) ∈ Claims.mnemonicsF) ∧
    ((Claims.ascii "ABCDEF").length ≤ 6 ∧ (15 : Nat) ≤ 15 ∧ (1 : Nat) ≤ 1 ∧ 5 < (Claims.ascii "ABCDEF").length) ∧
    (([] : List Byte).length ≤ 5 ∧ (5 : Nat) < 6) ∧ 6 < (Claims.ascii "ABCDEFG").length ∧ 15 < 16 ∧ 1 < 2 := by
  refine ⟨⟨by decide, by decide, by decide⟩, ⟨?_, ?_, ?_⟩, by decide⟩
  · simp [Claims.mnemonicsB]
  · simp [Claims.mnemonicsW]
  · simp [Claims.mnemonicsF]

end Sys2Proof.Tests
end

section
/-! What each command and each agent writes of `RES` (10_state.md R65) and of the cells that cross the foreground/interrupt
boundary (R68), and from it the two statements about every step. -/

namespace Sys2Proof.Machine

/-! ### The rings' indices -/

theorem Ring.pop_head {r r' : Ring} {b : Byte} (h : r.pop = some (b, r')) : r'.head = r.head := by
  rw [(r.pop_eq_some r' b h).1]

@[simp] theorem State.prime_tx_head (s : State) : s.prime.tx.head = s.tx.head := by
  cases ha : s.txAct with
  | true => rw [s.prime_of_active ha]
  | false =>
    cases hp : s.tx.pop with
    | none => rw [s.prime_of_empty hp]
    | some vr => rw [s.prime_of_pop vr.1 vr.2 ha hp]; exact Ring.pop_head hp

@[simp] theorem txEmptyEvent_tx_head (s : State) : (txEmptyEvent s).tx.head = s.tx.head := by
  rcases txEmptyEvent_cases s with e | ⟨-, -, e⟩ | ⟨-, v, r, hp, e⟩
  · rw [e]
  · rw [e]
  · rw [e]; exact Ring.pop_head hp

@[simp] theorem feederStep_rx_head (s : State) : (feederStep s).rx.head = s.rx.head := by
  rcases feederStep_cases s with e | ⟨-, -, b, r, hp, e⟩
  · rw [e]
  · rw [e, State.feed_rx]; exact Ring.pop_head hp

/-! ### The commands -/

/-- `t` keeps `RES`, `DLFLAG` and the rings' indices of `s`. -/
structure CellsKept (s t : State) : Prop where
  res : t.res = s.res
  dlFlag : t.dlFlag = s.dlFlag
  rxHead : t.rx.head = s.rx.head
  rxTail : t.rx.tail = s.rx.tail
  txHead : t.tx.head = s.tx.head
  txTail : t.tx.tail = s.tx.tail

theorem CellsKept.of_rings {s t : State} (hr : t.res = s.res) (hd : t.dlFlag = s.dlFlag) (hrx : t.rx = s.rx)
    (htx : t.tx = s.tx) : CellsKept s t := by
  constructor <;> simp [hr, hd, hrx, htx]

theorem State.raiseCmdError_cellsKept (s : State) (c : Cause) (op : Byte) : CellsKept s (s.raiseCmdError c op) :=
  .of_rings (by simp) (by simp) (by simp) (by simp)

theorem State.feed_cellsKept (s : State) (b : Byte) : CellsKept s (s.feed b) :=
  .of_rings (by simp) (by simp) (by simp) (by simp)

theorem execCrcBit_cellsKept {d : Byte} {s t : State} (h : execCrcBit d s = .next t) : CellsKept s t := by
  unfold execCrcBit at h
  split at h <;> cases h
  · exact .of_rings rfl rfl rfl rfl
  · exact s.raiseCmdError_cellsKept _ _

theorem execCtrlWr_cellsKept {d : Byte} {s t : State} (h : execCtrlWr d s = .next t) : CellsKept s t := by
  unfold execCtrlWr at h
  split at h <;> cases h
  · split <;> exact .of_rings rfl rfl rfl rfl
  · exact s.raiseCmdError_cellsKept _ _

theorem execFrmStart_cellsKept {w : Half} {s t : State} (h : execFrmStart w s = .next t) : CellsKept s t := by
  simp only [execFrmStart] at h
  split at h <;> cases h <;> exact .of_rings rfl rfl rfl rfl

/-- As `CellsKept`, but for `RES`, which may have any value: what a read command leaves, taken or rejected. -/
def ReadFrom (s t : State) : Prop := ∃ v, CellsKept (s.setRes v) t

theorem State.setRes_readFrom (s : State) (v : Half) : ReadFrom s (s.setRes v) := ⟨v, .of_rings rfl rfl rfl rfl⟩

theorem State.raiseCmdError_readFrom (s : State) (c : Cause) (op : Byte) : ReadFrom s (s.raiseCmdError c op) :=
  ⟨s.res, s.raiseCmdError_cellsKept c op⟩

theorem execRingRd_readFrom {d : Byte} {s t : State} (h : execRingRd d s = .next t) : ReadFrom s t := by
  unfold execRingRd at h
  split at h <;> cases h
  · exact s.setRes_readFrom _
  · exact s.setRes_readFrom _
  · exact s.raiseCmdError_readFrom _ _

theorem execFixRd_readFrom {f k : Byte} {s t : State} (h : execFixRd f k s = .next t) : ReadFrom s t := by
  unfold execFixRd at h
  split at h <;> cases h
  · exact s.setRes_readFrom _
  · exact s.raiseCmdError_readFrom _ _

theorem execTmpRd_readFrom {f k : Byte} {s t : State} (h : execTmpRd f k s = .next t) : ReadFrom s t := by
  unfold execTmpRd at h
  split at h <;> cases h
  · exact s.setRes_readFrom _
  · exact s.raiseCmdError_readFrom _ _

theorem execRxPoll_readFrom {s t : State} (h : execRxPoll s = .next t) :
    ReadFrom s t ∨ ∃ b r, s.rx.pop = some (b, r) ∧ ReadFrom { s with rx := r } t := by
  unfold execRxPoll at h
  split at h <;> cases h
  · rename_i b r hp; exact .inr ⟨b, r, hp, State.setRes_readFrom _ _⟩
  · exact .inl (s.setRes_readFrom _)

theorem execRxPollFeed_readFrom {s t : State} (h : execRxPollFeed s = .next t) :
    ReadFrom s t ∨ ∃ b r, s.rx.pop = some (b, r) ∧ ReadFrom { s with rx := r } t := by
  unfold execRxPollFeed at h
  split at h <;> cases h
  · rename_i b r hp; exact .inr ⟨b, r, hp, polledWord b, State.feed_cellsKept _ b⟩
  · exact .inl (s.setRes_readFrom _)

/-- Everything a command can do to `RES`, `DLFLAG` and the rings' indices. -/
theorem exec_cells_cases {i : Instr} {s t : State} (h : exec i s = .next t) :
    CellsKept s t ∨
    (Claims.isRead i = true ∧ ReadFrom s t) ∨
    ((i = .rxPoll ∨ i = .rxPollFeed) ∧ ∃ b r, s.rx.pop = some (b, r) ∧ ReadFrom { s with rx := r } t) ∨
    (∃ w, i = .wait w ∧ CellsKept { s with dlFlag := true } t) ∨
    (∃ d, i = .txEnq d ∧ t = ({ s with tx := s.tx.push s.txovm d } : State).prime) := by
  cases i with
  | nop | errClr | crcInit | crcByte _ | crcWr _ | frmByte _ | frmEnd | ovfClr | nmeaCommit =>
    cases h; exact .inl ⟨rfl, rfl, rfl, rfl, rfl, rfl⟩
  | crcBit _ => exact .inl (execCrcBit_cellsKept h)
  | ctrlWr _ => exact .inl (execCtrlWr_cellsKept h)
  | frmStart _ => exact .inl (execFrmStart_cellsKept h)
  | nmeaFeed d => cases h; exact .inl (s.feed_cellsKept d)
  | statRd | errRd | crcRd | crcFcs | ctrlRd | ovfRd | curRd =>
    cases h; exact .inr (.inl ⟨rfl, s.setRes_readFrom _⟩)
  | ringRd _ => exact .inr (.inl ⟨rfl, execRingRd_readFrom h⟩)
  | fixRd _ _ => exact .inr (.inl ⟨rfl, execFixRd_readFrom h⟩)
  | tmpRd _ _ => exact .inr (.inl ⟨rfl, execTmpRd_readFrom h⟩)
  | rxPoll =>
    exact (execRxPoll_readFrom h).elim (fun hr => .inr (.inl ⟨rfl, hr⟩)) fun hp => .inr (.inr (.inl ⟨.inl rfl, hp⟩))
  | rxPollFeed =>
    exact (execRxPollFeed_readFrom h).elim (fun hr => .inr (.inl ⟨rfl, hr⟩)) fun hp => .inr (.inr (.inl ⟨.inr rfl, hp⟩))
  | wait w => cases h; exact .inr (.inr (.inr (.inl ⟨w, rfl, .of_rings rfl rfl rfl rfl⟩)))
  | txEnq d => cases h; exact .inr (.inr (.inr (.inr ⟨d, rfl, rfl⟩)))

/-- Only the read commands write `RES` (10_state.md R65). -/
theorem exec_res {i : Instr} {s t : State} (h : exec i s = .next t) : t.res = s.res ∨ Claims.isRead i = true := by
  rcases exec_cells_cases h with hk | ⟨hr, -⟩ | ⟨rfl | rfl, -⟩ | ⟨w, rfl, hk⟩ | ⟨d, rfl, rfl⟩
  · exact .inl hk.res
  · exact .inr hr
  · exact .inr rfl
  · exact .inr rfl
  · exact .inl hk.res
  · simp

/-- The writers of `DLFLAG` and of the rings' indices among the commands (10_state.md R68). -/
theorem exec_sharedCells {i : Instr} {s t : State} (h : exec i s = .next t) :
    (t.dlFlag = s.dlFlag ∨ t.dlFlag = true ∧ ∃ w, i = .wait w) ∧
    t.rx.head = s.rx.head ∧
    (t.rx.tail = s.rx.tail ∨ i = .rxPoll ∨ i = .rxPollFeed) ∧
    (t.tx.head = s.tx.head ∨ ∃ d, i = .txEnq d) ∧
    (t.tx.tail = s.tx.tail ∨ ∃ d, i = .txEnq d) := by
  rcases exec_cells_cases h with hk | ⟨-, v, hk⟩ | ⟨hi, b, r, hp, v, hk⟩ | ⟨w, rfl, hk⟩ | ⟨d, rfl, rfl⟩
  · exact ⟨.inl hk.dlFlag, hk.rxHead, .inl hk.rxTail, .inl hk.txHead, .inl hk.txTail⟩
  · exact ⟨.inl hk.dlFlag, hk.rxHead, .inl hk.rxTail, .inl hk.txHead, .inl hk.txTail⟩
  · exact ⟨.inl hk.dlFlag, hk.rxHead.trans (Ring.pop_head hp), .inr hi, .inl hk.txHead, .inl hk.txTail⟩
  · exact ⟨.inr ⟨hk.dlFlag, w, rfl⟩, hk.rxHead, .inl hk.rxTail, .inl hk.txHead, .inl hk.txTail⟩
  · simp

/-! ### The agents -/

/-- An encoder step writes neither `RES` nor a ring (43_frame_encoder.md R258). -/
theorem encStep_keeps {s t : State} (h : encStep s = .next t) : t.res = s.res ∧ t.rx = s.rx ∧ t.tx = s.tx := by
  rcases (encStep_next_cases s t h).2 with ⟨-, rfl⟩ | ⟨-, -, rfl⟩ | ⟨-, -, u, hu, rfl⟩ | ⟨-, -, -, rfl⟩
  · simp
  · simp
  · rw [(s.nextByte_some u hu).1]; simp
  · simp

/-- A tick does not set `DLFLAG` (44_bitclock.md R295). -/
theorem tickEvent_dlFlag_of_clear {s : State} (h : s.dlFlag = false) : (tickEvent s).dlFlag = false := by
  rw [tickEvent, tickSample_dlFlag]
  unfold tickDeadline
  split
  · rfl
  · exact h

/-! ### Every step -/

/-- Settles O54: agent by agent, and for a command taken by `exec_res`. -/
theorem resultWrittenOnlyByReadCommands : Obligations.ResultWrittenOnlyByReadCommands := by
  intro s t h
  rcases step_cases s t h with ⟨-, rfl⟩ | ⟨-, -, w, ws, i, -, -, hi, he⟩ | ⟨-, -, w, ws, c, -, -, rfl⟩ | ⟨-, rfl⟩ |
    ⟨-, -, -, -, he⟩ | ⟨-, -, -, -, rfl⟩ | ⟨-, rfl⟩ | ⟨b, -, rfl⟩ | ⟨-, rfl⟩ | ⟨-, rfl⟩ | ⟨hturn, rfl⟩
  · exact .inl rfl
  · exact (exec_res he).elim .inl fun hr => .inr (.inr ⟨i, hi, hr⟩)
  · exact .inl (by simp)
  · exact .inl rfl
  · exact .inl (encStep_keeps he).1
  · exact .inl rfl
  · exact .inl (by simp)
  · exact .inl rfl
  · exact .inl (by simp)
  · exact .inl (by simp)
  · exact .inr (.inl ⟨hturn, rfl⟩)

/-- Settles O57: agent by agent. A taken command's writers are `exec_sharedCells`; the sequencer moves with `DLFLAG = 0`
only, so it never clears it; the feeder, the UART events and the tick keep `CTRL`. -/
theorem sharedCellsHaveOneWriter : Obligations.SharedCellsHaveOneWriter := by
  intro s t h hreset
  rcases step_cases s t h with ⟨ht, rfl⟩ | ⟨ht, -, w, ws, i, -, -, hi, he⟩ | ⟨ht, -, w, ws, c, -, -, rfl⟩ | ⟨ht, rfl⟩ |
    ⟨ht, -, hd, -, he⟩ | ⟨ht, -, -, -, rfl⟩ | ⟨ht, rfl⟩ | ⟨b, ht, rfl⟩ | ⟨ht, rfl⟩ | ⟨ht, rfl⟩ | ⟨ht, rfl⟩
  · simp +contextual [ht]
  · obtain ⟨hdl, hrh, hrt, hth, htt⟩ := exec_sharedCells he
    simp only [hi, Option.some.injEq]
    exact ⟨fun hs hc => by simp [hs, hc] at hdl,
      fun hs hc => .inr (hdl.resolve_left (by simp [hs, hc])).2,
      fun _ => .inl ht, fun hne => absurd hrh hne, fun hne => .inr (hrt.resolve_left hne), hth.resolve_left,
      fun hne => .inr (htt.resolve_left hne)⟩
  · simp +contextual [ht]
  · simp +contextual [ht]
  · simp +contextual [ht, hd, encStep_keeps he]
  · simp +contextual [ht]
  · simp +contextual [ht, State.txen, State.tone]
  · simp +contextual [ht, State.txen, State.tone]
  · simp +contextual [ht, State.txen, State.tone]
  · simp +contextual [ht, State.txen, State.tone, tickEvent_dlFlag_of_clear]
  · exact absurd ht hreset

end Sys2Proof.Machine
end

section
/-! Which words the decoder rejects, and which commands the operand checks reject (30_encoding.md R104 to R106): what each
records, and that nothing else records that cause. -/

namespace Sys2Proof

/-! ### The opcode map by format (R103) -/

theorem formOf_of_mem_opcodesN {op : Byte} (h : op ∈ Claims.opcodesN) : ∃ i, formOf op = some (.n i) := by
  rw [Claims.opcodesN] at h
  fin_cases h <;> exact ⟨_, rfl⟩

theorem formOf_of_mem_opcodesB {op : Byte} (h : op ∈ Claims.opcodesB) : ∃ mk, formOf op = some (.b mk) := by
  rw [Claims.opcodesB] at h
  fin_cases h <;> exact ⟨_, rfl⟩

theorem formOf_of_mem_opcodesW {op : Byte} (h : op ∈ Claims.opcodesW) : ∃ mk, formOf op = some (.w mk) := by
  rw [Claims.opcodesW] at h
  fin_cases h <;> exact ⟨_, rfl⟩

theorem formOf_of_mem_opcodesF {op : Byte} (h : op ∈ Claims.opcodesF) : ∃ mk, formOf op = some (.f mk) := by
  rw [Claims.opcodesF] at h
  fin_cases h <;> exact ⟨_, rfl⟩

theorem mem_opcodes_of_formOf {op : Byte} {fm : Form} (h : formOf op = some fm) : op ∈ Claims.opcodes := by
  have hop : op = BitVec.ofNat 8 op.toNat := by simp
  unfold formOf at h
  split at h
  case h_28 => cases h
  all_goals
    rename_i hn
    rw [hop, hn]
    decide

theorem formOf_eq_none_iff (op : Byte) : formOf op = none ↔ op ∉ Claims.opcodes := by
  constructor
  · intro hnone hop
    simp only [Claims.opcodes, List.mem_append] at hop
    rcases hop with ((hN | hB) | hW) | hF
    · obtain ⟨i, hi⟩ := formOf_of_mem_opcodesN hN; simp [hi] at hnone
    · obtain ⟨mk, hmk⟩ := formOf_of_mem_opcodesB hB; simp [hmk] at hnone
    · obtain ⟨mk, hmk⟩ := formOf_of_mem_opcodesW hW; simp [hmk] at hnone
    · obtain ⟨mk, hmk⟩ := formOf_of_mem_opcodesF hF; simp [hmk] at hnone
  · intro hop
    cases hf : formOf op with
    | none => rfl
    | some fm => exact absurd (mem_opcodes_of_formOf hf) hop

/-! ### The decoder by format (R101, R104, R105) -/

theorem decode_of_formOf_none {w : Cmd} (h : formOf (opField w) = none) : decode w = .error .illegalOpcode := by
  simp [decode, h]

theorem decode_of_formN {w : Cmd} {i : Instr} (h : formOf (opField w) = some (.n i)) :
    decode w = if immField w = 0 then .ok i else .error .reservedBits := by
  simp [decode, h]

theorem decode_of_formB {w : Cmd} {mk : Byte → Instr} (h : formOf (opField w) = some (.b mk)) :
    decode w = if immHigh w = 0 then .ok (mk (immLow w)) else .error .reservedBits := by
  simp [decode, h]

theorem decode_of_formW {w : Cmd} {mk : Half → Instr} (h : formOf (opField w) = some (.w mk)) :
    decode w = .ok (mk (immField w)) := by
  simp [decode, h]

theorem decode_of_formF {w : Cmd} {mk : Byte → Byte → Instr} (h : formOf (opField w) = some (.f mk)) :
    decode w = .ok (mk (immHigh w) (immLow w)) := by
  simp [decode, h]

/-- Everything the decoder can reject a word for. -/
theorem decode_error_cases {w : Cmd} {c : Cause} (h : decode w = .error c) :
    (c = .illegalOpcode ∧ formOf (opField w) = none) ∨
    (c = .reservedBits ∧ ∃ fm, formOf (opField w) = some fm) := by
  cases hf : formOf (opField w) with
  | none => rw [decode_of_formOf_none hf] at h; cases h; exact .inl ⟨rfl, rfl⟩
  | some fm =>
    refine .inr ⟨?_, fm, rfl⟩
    cases fm with
    | n i => rw [decode_of_formN hf] at h; split at h <;> cases h; rfl
    | b mk => rw [decode_of_formB hf] at h; split at h <;> cases h; rfl
    | w mk => rw [decode_of_formW hf] at h; cases h
    | f mk => rw [decode_of_formF hf] at h; cases h

theorem decode_eq_illegalOpcode_iff (w : Cmd) : decode w = .error .illegalOpcode ↔ opField w ∉ Claims.opcodes := by
  rw [← formOf_eq_none_iff]
  constructor
  · intro h
    rcases decode_error_cases h with ⟨-, hf⟩ | ⟨hc, -⟩
    · exact hf
    · cases hc
  · exact decode_of_formOf_none

theorem decode_cmdWord_imm {op : Byte} {imm : Half} (hop : op ∈ Claims.opcodesN) (himm : imm ≠ 0) :
    decode (cmdWord op imm) = .error .reservedBits := by
  obtain ⟨i, hi⟩ := formOf_of_mem_opcodesN hop
  rw [decode_of_formN (i := i) (by simpa using hi), immField_word, if_neg himm]

theorem decode_cmdWord_high {op hi lo : Byte} (hop : op ∈ Claims.opcodesB) (hhi : hi ≠ 0) :
    decode (cmdWord op (pair hi lo)) = .error .reservedBits := by
  obtain ⟨mk, hmk⟩ := formOf_of_mem_opcodesB hop
  rw [decode_of_formB (mk := mk) (by simpa using hmk), immHigh_word, if_neg hhi]

theorem decode_byteCommand {op : Byte} {mk : Byte → Instr} (h : formOf op = some (.b mk)) (d : Byte) :
    decode (cmdWord op (pair 0x00#8 d)) = .ok (mk d) := by
  rw [decode_of_formB (mk := mk) (by simpa using h), immHigh_word, immLow_word]; rfl

theorem decode_fieldCommand {op : Byte} {mk : Byte → Byte → Instr} (h : formOf op = some (.f mk)) (f k : Byte) :
    decode (cmdWord op (pair f k)) = .ok (mk f k) := by
  rw [decode_of_formF (mk := mk) (by simpa using h), immHigh_word, immLow_word]

/-! ### The operand checks (R106) -/

/-- The command's operand is outside the range R106 gives it. -/
def Instr.outOfRange : Instr → Prop
  | .crcBit d | .ringRd d => 1 < d.toNat
  | .fixRd f k => ∀ fld : Field, Machine.fieldOfCode f = some fld → fld.len < k.toNat
  | .tmpRd f k => ∀ fld : Field, Machine.fieldOfCode f = some fld → fld.len - 1 < k.toNat
  | _ => False

end Sys2Proof

namespace Sys2Proof.Machine

theorem State.raiseCmdError_eq_recorded (s : State) (c : Cause) (op : Byte) :
    s.raiseCmdError c op = Claims.recorded s (causeCode c) op := rfl

theorem takeCommand_of_ok {w : Cmd} {i : Instr} (h : decode w = .ok i) (s : State) : takeCommand w s = exec i s := by
  simp [takeCommand, h]

theorem takeCommand_of_error {w : Cmd} {c : Cause} (h : decode w = .error c) (s : State) :
    takeCommand w s = .next (Claims.recorded s (causeCode c) (opField w)) := by
  simp [takeCommand, h, State.raiseCmdError_eq_recorded]

theorem TempSet.read_eq_none_iff_outOfRange (x : TempSet) (f k : Byte) :
    x.read f k = none ↔ (Instr.tmpRd f k).outOfRange := by
  rw [x.read_eq_none_iff]
  refine forall₂_congr fun fld _ => ?_
  have hpos := Field.len_pos fld
  omega

/-- A command whose operand is out of range records that and does nothing else. -/
theorem exec_of_outOfRange {i : Instr} (h : i.outOfRange) (s : State) :
    exec i s = .next (Claims.recorded s 0x03#8 i.opcode) := by
  cases i with
  | crcBit d => rw [exec, execCrcBit, (bitOperand_eq_none_iff d).mpr h]; rfl
  | ringRd d => rw [exec, execRingRd, (bitOperand_eq_none_iff d).mpr h]; rfl
  | fixRd f k => rw [exec, execFixRd, (s.fix.read_eq_none_iff f k).mpr h]; rfl
  | tmpRd f k => rw [exec, execTmpRd, (s.tmp.read_eq_none_iff_outOfRange f k).mpr h]; rfl
  | _ => exact h.elim

theorem exec_ctrlWr_of_reserved {d : Byte} (h : d.extractLsb' 6 2 ≠ 0#2) (s : State) :
    exec (.ctrlWr d) s = .next (Claims.recorded s 0x02#8 0x31#8) := by
  rw [exec, execCtrlWr, if_neg (by simpa [ctrlOperandOk] using h)]; rfl

/-! ### What a command does to the error record -/

/-- `t` keeps `ERR`, `ERRCAUSE` and `ERROP` of `s`. -/
structure ErrorKept (s t : State) : Prop where
  err : t.err = s.err
  errCause : t.errCause = s.errCause
  errOp : t.errOp = s.errOp

theorem ErrorKept.feed {s t : State} (h : ErrorKept s t) (b : Byte) : ErrorKept s (t.feed b) :=
  ⟨by simp [h.err], by simp [h.errCause], by simp [h.errOp]⟩

theorem ErrorKept.prime {s t : State} (h : ErrorKept s t) : ErrorKept s t.prime :=
  ⟨by simp [h.err], by simp [h.errCause], by simp [h.errOp]⟩

theorem execFrmStart_errorKept {w : Half} {s t : State} (h : execFrmStart w s = .next t) : ErrorKept s t := by
  simp only [execFrmStart] at h
  split at h <;> cases h <;> exact ⟨rfl, rfl, rfl⟩

theorem execRxPoll_errorKept {s t : State} (h : execRxPoll s = .next t) : ErrorKept s t := by
  unfold execRxPoll at h
  split at h <;> cases h <;> exact ⟨rfl, rfl, rfl⟩

theorem execRxPollFeed_errorKept {s t : State} (h : execRxPollFeed s = .next t) : ErrorKept s t := by
  unfold execRxPollFeed at h
  split at h <;> cases h
  · refine ErrorKept.feed ?_ _; exact ⟨rfl, rfl, rfl⟩
  · exact ⟨rfl, rfl, rfl⟩

theorem execCtrlWr_errorKept {d : Byte} {s t : State} (hd : d.extractLsb' 6 2 = 0#2)
    (h : execCtrlWr d s = .next t) : ErrorKept s t := by
  rw [execCtrlWr, if_pos (by simpa [ctrlOperandOk] using hd)] at h
  cases h
  split <;> exact ⟨rfl, rfl, rfl⟩

theorem execCrcBit_errorKept {d : Byte} {s t : State} (hd : ¬ (Instr.crcBit d).outOfRange)
    (h : execCrcBit d s = .next t) : ErrorKept s t := by
  unfold execCrcBit at h
  split at h
  · cases h; exact ⟨rfl, rfl, rfl⟩
  · rename_i hb; exact absurd ((bitOperand_eq_none_iff d).mp hb) hd

theorem execRingRd_errorKept {d : Byte} {s t : State} (hd : ¬ (Instr.ringRd d).outOfRange)
    (h : execRingRd d s = .next t) : ErrorKept s t := by
  unfold execRingRd at h
  split at h
  · cases h; exact ⟨rfl, rfl, rfl⟩
  · cases h; exact ⟨rfl, rfl, rfl⟩
  · rename_i hb; exact absurd ((bitOperand_eq_none_iff d).mp hb) hd

theorem execFixRd_errorKept {f k : Byte} {s t : State} (hk : ¬ (Instr.fixRd f k).outOfRange)
    (h : execFixRd f k s = .next t) : ErrorKept s t := by
  unfold execFixRd at h
  split at h
  · cases h; exact ⟨rfl, rfl, rfl⟩
  · rename_i hr; exact absurd ((s.fix.read_eq_none_iff f k).mp hr) hk

theorem execTmpRd_errorKept {f k : Byte} {s t : State} (hk : ¬ (Instr.tmpRd f k).outOfRange)
    (h : execTmpRd f k s = .next t) : ErrorKept s t := by
  unfold execTmpRd at h
  split at h
  · cases h; exact ⟨rfl, rfl, rfl⟩
  · rename_i hr; exact absurd ((s.tmp.read_eq_none_iff_outOfRange f k).mp hr) hk

/-- A command that passes its operand checks keeps the error record, ERR_CLR apart (R107). -/
theorem exec_errorKept {i : Instr} {s t : State} (hclr : i ≠ .errClr)
    (hctrl : ∀ d, i = .ctrlWr d → d.extractLsb' 6 2 = 0#2) (hrange : ¬ i.outOfRange) (h : exec i s = .next t) :
    ErrorKept s t := by
  cases i with
  | nop | statRd | errRd | crcInit | crcByte _ | crcRd | crcFcs | crcWr _ | frmByte _ | frmEnd | wait _ | ctrlRd | ovfRd
  | ovfClr | nmeaCommit | curRd => cases h; exact ⟨rfl, rfl, rfl⟩
  | errClr => exact absurd rfl hclr
  | crcBit _ => exact execCrcBit_errorKept hrange h
  | frmStart _ => exact execFrmStart_errorKept h
  | ctrlWr d => exact execCtrlWr_errorKept (hctrl d rfl) h
  | rxPoll => exact execRxPoll_errorKept h
  | rxPollFeed => exact execRxPollFeed_errorKept h
  | txEnq _ => cases h; exact ErrorKept.prime ⟨rfl, rfl, rfl⟩
  | ringRd _ => exact execRingRd_errorKept hrange h
  | nmeaFeed d => cases h; exact ErrorKept.feed ⟨rfl, rfl, rfl⟩ d
  | fixRd _ _ => exact execFixRd_errorKept hrange h
  | tmpRd _ _ => exact execTmpRd_errorKept hrange h

theorem recorded_errCause_of_clear {s : State} (h : s.err = false) (code op : Byte) :
    (Claims.recorded s code op).errCause = code := by
  simp [Claims.recorded, h]

/-- Cause 0x03 is recorded only for an operand out of range (R106). -/
theorem outOfRange_of_exec_errCause {i : Instr} {s t : State} (hs : s.err = false) (h : exec i s = .next t)
    (hcause : t.errCause = 0x03#8) (herr : t.err = true) : i.outOfRange := by
  by_contra hrange
  have hclr : i ≠ .errClr := by rintro rfl; cases h; cases herr
  have hctrl : ∀ d, i = .ctrlWr d → d.extractLsb' 6 2 = 0#2 := by
    rintro d rfl
    by_contra hd
    rw [exec_ctrlWr_of_reserved hd] at h
    cases h
    rw [recorded_errCause_of_clear hs] at hcause
    exact absurd hcause (by decide)
  have hkept : t.err = s.err := (exec_errorKept hclr hctrl hrange h).err
  rw [hkept, hs] at herr
  cases herr

/-- The decoder's own rejections record cause 0x01 or 0x02 (R107). -/
theorem takeCommand_errCause_of_error {w : Cmd} {c : Cause} {s t : State} (hd : decode w = .error c)
    (hs : s.err = false) (h : takeCommand w s = .next t) : t.errCause ≠ 0x03#8 := by
  rw [takeCommand_of_error hd] at h
  cases h
  rw [recorded_errCause_of_clear hs]
  rcases decode_error_cases hd with ⟨rfl, -⟩ | ⟨rfl, -⟩ <;> decide

/-! ### The obligations -/

/-- Settles O4: the decoder answers `illegalOpcode` for exactly the opcodes outside the map. -/
theorem undefinedOpcodeRaisesIllegalOpcode : Obligations.UndefinedOpcodeRaisesIllegalOpcode := by
  refine ⟨by decide, by decide, fun w s => ⟨fun hop => ?_, fun hop hd => ?_⟩⟩
  · exact takeCommand_of_error ((decode_eq_illegalOpcode_iff w).mpr hop) s
  · exact (decode_eq_illegalOpcode_iff w).mp hd hop

/-- Settles O5: the decoder rejects the words of formats N and B, CTRL_WR's own check the third; the other two formats have
no check. -/
theorem reservedBitsRaiseReservedBits : Obligations.ReservedBitsRaiseReservedBits := by
  refine ⟨fun op hop s imm himm => ?_, fun op hop s hi lo hhi => ?_, fun s d hd => ?_, fun op hop imm => ?_⟩
  · rw [takeCommand_of_error (decode_cmdWord_imm hop himm), opField_word]; rfl
  · rw [takeCommand_of_error (decode_cmdWord_high hop hhi), opField_word]; rfl
  · rw [takeCommand_of_ok (decode_byteCommand (mk := .ctrlWr) rfl d)]
    exact exec_ctrlWr_of_reserved hd s
  · rcases List.mem_append.mp hop with hW | hF
    · obtain ⟨mk, hmk⟩ := formOf_of_mem_opcodesW hW
      exact ⟨_, decode_of_formW (by rwa [opField_word])⟩
    · obtain ⟨mk, hmk⟩ := formOf_of_mem_opcodesF hF
      exact ⟨_, decode_of_formF (by rwa [opField_word])⟩

/-- Settles O6: each of the four words decodes, and its command is out of range (`exec_of_outOfRange`); conversely a word
that records cause 0x03 has passed the decoder, and its command is out of range. -/
theorem operandOutOfRangeRaisesOperandRange : Obligations.OperandOutOfRangeRaisesOperandRange := by
  refine ⟨fun s d hd => ⟨?_, ?_⟩, fun s f k hk => ?_, fun s f k hk => ?_, fieldOfCode_eq_none_iff,
    fun s t w hs h hcause herr => ?_⟩
  · rw [takeCommand_of_ok (decode_byteCommand (mk := .crcBit) rfl d)]
    exact exec_of_outOfRange (i := .crcBit d) hd s
  · rw [takeCommand_of_ok (decode_byteCommand (mk := .ringRd) rfl d)]
    exact exec_of_outOfRange (i := .ringRd d) hd s
  · rw [takeCommand_of_ok (decode_fieldCommand (mk := .fixRd) rfl f k)]
    exact exec_of_outOfRange (i := .fixRd f k) hk s
  · rw [takeCommand_of_ok (decode_fieldCommand (mk := .tmpRd) rfl f k)]
    exact exec_of_outOfRange (i := .tmpRd f k) hk s
  · cases hd : decode w with
    | error c => exact absurd hcause (takeCommand_errCause_of_error hd hs h)
    | ok i =>
      rw [takeCommand_of_ok hd] at h
      have hrange : i.outOfRange := outOfRange_of_exec_errCause hs h hcause herr
      cases i with
      | crcBit d => exact .inl ⟨d, hrange, .inl rfl⟩
      | ringRd d => exact .inl ⟨d, hrange, .inr rfl⟩
      | fixRd f k => exact .inr (.inl ⟨f, k, hrange, rfl⟩)
      | tmpRd f k => exact .inr (.inr ⟨f, k, hrange, rfl⟩)
      | _ => exact hrange.elim

end Sys2Proof.Machine
end

section
/-! What a push and a pop do to a whole ring, and from it the serial link's two UART events (40_serial_link.md R144, R145)
and its six commands (R150 to R155). -/

namespace Sys2Proof.Machine

/-! ### Words rejected for their reserved bits (30_encoding.md R105) -/

theorem rejectsImm_of_mem {op : Byte} (h : op ∈ Claims.opcodesN) : Claims.rejectsImm op :=
  reservedBitsRaiseReservedBits.1 op h

theorem rejectsHigh_of_mem {op : Byte} (h : op ∈ Claims.opcodesB) : Claims.rejectsHigh op :=
  reservedBitsRaiseReservedBits.2.1 op h

/-! ### Rings (R140 to R142) -/

theorem Ring.pop_of_empty {r : Ring} (h : r.contents = []) : r.pop = none :=
  r.pop_eq_none_iff.mpr (r.contents_eq_nil_iff.mp h)

/-- Everything a pop does to a ring with unread bytes (R142). -/
theorem Ring.pop_oldest {r : Ring} {b : Byte} {bs : List Byte} (h : r.contents = b :: bs) :
    ∃ r' : Ring, r.pop = some (b, r') ∧ r'.contents = bs ∧ r'.head = r.head ∧ r'.buf = r.buf ∧ r'.ovf = r.ovf ∧
      r'.tail.val = (r.tail.val + 1) % 96 := by
  obtain ⟨hpop, hbs⟩ := r.pop_of_contents b bs h
  exact ⟨_, hpop, hbs, rfl, rfl, rfl, fin96_succ_val r.tail⟩

/-- A push stores its byte unless it finds 95 unread bytes in drop mode (R141). -/
theorem Ring.push_of_stores {r : Ring} {mode : Bool} (b : Byte) (h : r.count < 95 ∨ mode = false) :
    r.push mode b = { r with buf := r.buf.set r.head.val b r.head.isLt, head := r.head + 1 } := by
  rcases h with hroom | rfl
  · exact r.push_room mode b hroom
  · exact r.push_silent b

theorem Ring.push_buf_of_stores {r : Ring} {mode : Bool} (b : Byte) (h : r.count < 95 ∨ mode = false) :
    (r.push mode b).buf = r.buf.set r.head.val b r.head.isLt := by
  rw [Ring.push_of_stores b h]

theorem Ring.push_head_of_stores {r : Ring} {mode : Bool} (b : Byte) (h : r.count < 95 ∨ mode = false) :
    (r.push mode b).head.val = (r.head.val + 1) % 96 := by
  rw [Ring.push_of_stores b h]
  exact fin96_succ_val r.head

theorem Ring.push_ovf_of_stores {r : Ring} {mode : Bool} (b : Byte) (h : r.count < 95 ∨ mode = false) :
    (r.push mode b).ovf = r.ovf := by
  rw [Ring.push_of_stores b h]

/-- A push in silent mode that finds 95 unread bytes makes the ring read as empty (R143). -/
theorem Ring.push_silent_full {r : Ring} (b : Byte) (h : r.count = 95) : (r.push false b).contents = [] := by
  rw [r.push_silent b, r.store_full b h]

/-- A push in drop mode that finds 95 unread bytes changes the overflow counter only (R141). -/
theorem Ring.push_dropped_frame {r : Ring} (b : Byte) (h : r.count = 95) :
    r.push true b = { r with ovf := (r.push true b).ovf } ∧
      (r.push true b).ovf.toNat = min (r.ovf.toNat + 1) 255 := by
  rw [r.push_dropped b h]
  exact ⟨rfl, satInc_toNat r.ovf⟩

/-- A push into an empty ring and the pop after it (R152's idle case): the byte comes out again and the ring is empty. -/
theorem Ring.pop_push_of_empty {r : Ring} {mode : Bool} (b : Byte) (h : r.head = r.tail) :
    ∃ r' : Ring, (r.push mode b).pop = some (b, r') ∧ r'.contents = [] ∧
      r'.buf = r.buf.set r.head.val b r.head.isLt ∧ r'.ovf = r.ovf ∧ r'.head.val = (r.head.val + 1) % 96 := by
  have hroom : r.count < 95 := by rw [r.count_eq_zero_iff.mpr h]; decide
  have hone : (r.push mode b).contents = [b] := by
    rw [r.push_contents mode b hroom, r.contents_eq_nil_iff.mpr h, List.nil_append]
  obtain ⟨r', hpop, hnil, hhead, hbuf, hovf, -⟩ := Ring.pop_oldest hone
  exact ⟨r', hpop, hnil, hbuf.trans (Ring.push_buf_of_stores b (.inl hroom)),
    hovf.trans (Ring.push_ovf_of_stores b (.inl hroom)),
    (congrArg Fin.val hhead).trans (Ring.push_head_of_stores b (.inl hroom))⟩

@[simp] theorem Ring.indices_high (r : Ring) : (r.indices.extractLsb' 8 8).toNat = r.head.val := by
  rw [Ring.indices, high_pair, BitVec.toNat_ofNat]
  exact Nat.mod_eq_of_lt (by omega)

@[simp] theorem Ring.indices_low (r : Ring) : (r.indices.extractLsb' 0 8).toNat = r.tail.val := by
  rw [Ring.indices, low_pair, BitVec.toNat_ofNat]
  exact Nat.mod_eq_of_lt (by omega)

/-- The number of unread bytes is read back from the two indices (R140, R155). -/
theorem Ring.count_eq_of_indices (r : Ring) :
    r.count = ((r.indices.extractLsb' 8 8).toNat + 96 - (r.indices.extractLsb' 0 8).toNat) % 96 := by
  rw [r.count_eq, r.indices_high, r.indices_low]
  congr 1
  omega

/-! ### The commands and events, by what the ring answers -/

theorem exec_rxPoll_of_none {s : State} (h : s.rx.pop = none) : exec .rxPoll s = .next { s with res := 0x0000#16 } := by
  rw [exec, execRxPoll, h]; rfl

theorem exec_rxPoll_of_some {s : State} {b : Byte} {r : Ring} (h : s.rx.pop = some (b, r)) :
    exec .rxPoll s = .next { s with res := polledWord b, rx := r } := by
  rw [exec, execRxPoll, h]; rfl

theorem exec_rxPollFeed_of_none {s : State} (h : s.rx.pop = none) :
    exec .rxPollFeed s = .next { s with res := 0x0000#16 } := by
  rw [exec, execRxPollFeed, h]; rfl

theorem exec_rxPollFeed_of_some {s : State} {b : Byte} {r : Ring} (h : s.rx.pop = some (b, r)) :
    exec .rxPollFeed s = .next (({ s with res := polledWord b, rx := r } : State).feed b) := by
  rw [exec, execRxPollFeed, h]; rfl

/-- TX_ENQ on a transmitter that is sending only pushes (R152). -/
theorem exec_txEnq_of_active {s : State} (d : Byte) (h : s.txAct = true) :
    exec (.txEnq d) s = .next { s with tx := s.tx.push s.txovm d } :=
  congrArg Host.Outcome.next (State.prime_of_active _ h)

/-- TX_ENQ on an idle transmitter hands over what the pop after its push answers (R152). -/
theorem exec_txEnq_of_idle {s : State} {v : Byte} {r : Ring} (d : Byte) (h : s.txAct = false)
    (hpop : (s.tx.push s.txovm d).pop = some (v, r)) :
    exec (.txEnq d) s = .next { s with tx := r, txAct := true, txTrace := s.txTrace ++ [v] } :=
  congrArg Host.Outcome.next (State.prime_of_pop _ v r h hpop)

theorem txEmptyEvent_of_none {s : State} (ha : s.txAct = true) (h : s.tx.pop = none) :
    txEmptyEvent s = { s with txAct := false } := by
  rw [txEmptyEvent, if_pos ha, h]

theorem txEmptyEvent_of_some {s : State} {v : Byte} {r : Ring} (ha : s.txAct = true) (h : s.tx.pop = some (v, r)) :
    txEmptyEvent s = { s with tx := r, txTrace := s.txTrace ++ [v] } := by
  rw [txEmptyEvent, if_pos ha, h]; rfl

/-! ### The obligations -/

/-- Settles O39: the two cases of the ring, by what its pop answers. -/
theorem pollsFollowTheirRules : Obligations.PollsFollowTheirRules := by
  refine ⟨fun s => ⟨fun hempty => ?_, fun b bs hbs => ?_⟩, rejectsImm_of_mem (by decide), rejectsImm_of_mem (by decide)⟩
  · have hpop := Ring.pop_of_empty hempty
    exact ⟨exec_rxPoll_of_none hpop, exec_rxPollFeed_of_none hpop⟩
  · obtain ⟨r, hpop, hcontents, hhead, hbuf, hovf, htail⟩ := Ring.pop_oldest hbs
    exact ⟨r, hcontents, hhead, hbuf, hovf, htail, exec_rxPoll_of_some hpop, exec_rxPollFeed_of_some hpop⟩

/-- Settles O40: idle, the ring is empty and the pushed byte is the one popped; sending, TX_ENQ is the push. -/
theorem enqueueFollowsItsRule : Obligations.EnqueueFollowsItsRule := by
  refine ⟨fun s d hidle => ?_, rejectsHigh_of_mem (by decide)⟩
  cases ha : s.txAct with
  | false =>
    obtain ⟨r, hpop, hnil, hbuf, hovf, hhead⟩ := Ring.pop_push_of_empty (mode := s.txovm) d (hidle ha)
    exact ⟨_, exec_txEnq_of_idle d ha hpop, rfl, fun _ => hbuf, fun _ => ⟨rfl, hnil, hovf, hhead⟩, nofun⟩
  | true =>
    refine ⟨_, exec_txEnq_of_active d ha, by rw [← ha], Ring.push_buf_of_stores d, nofun,
      fun _ => ⟨rfl, s.tx.push_tail _ d, fun hroom => ?_, fun hfull hsilent => ?_, fun hfull hdrop => ?_⟩⟩
    · exact ⟨s.tx.push_contents _ d hroom, Ring.push_ovf_of_stores d (.inl hroom)⟩
    · exact ⟨by rw [hsilent]; exact Ring.push_silent_full d hfull, Ring.push_ovf_of_stores d (.inr hsilent)⟩
    · rw [hdrop]; exact Ring.push_dropped_frame d hfull

/-- Settles O41: the result words are pairs of the counters and of the indices, and a silent push always stores. -/
theorem ringReadbackFollowsItsRules : Obligations.RingReadbackFollowsItsRules := by
  refine ⟨fun s => ⟨⟨_, rfl, high_pair _ _, low_pair _ _⟩, rfl, ?_, ?_, fun d hd => ?_⟩,
    fun r b => Ring.push_ovf_of_stores b (.inr rfl),
    rejectsImm_of_mem (by decide), rejectsImm_of_mem (by decide), rejectsHigh_of_mem (by decide)⟩
  · exact ⟨s.rx.indices, rfl, s.rx.indices_high, s.rx.indices_low, s.rx.count_eq_of_indices⟩
  · exact ⟨s.tx.indices, rfl, s.tx.indices_high, s.tx.indices_low, s.tx.count_eq_of_indices⟩
  · exact exec_of_outOfRange (i := .ringRd d) hd s

/-- Settles O42: the event is one push in the mode `CTRL` gives. -/
theorem receiveEventAppends : Obligations.ReceiveEventAppends := by
  refine fun s b => ⟨rxEvent b s, rfl, rfl, s.rx.push_tail _ b, Ring.push_buf_of_stores b, fun hroom => ?_,
    fun hfull hsilent => ?_, fun hfull hdrop => ?_⟩
  · exact ⟨s.rx.push_contents _ b hroom, Ring.push_ovf_of_stores b (.inl hroom),
      Ring.push_head_of_stores b (.inl hroom)⟩
  · exact ⟨by rw [rxEvent_rx, hsilent]; exact Ring.push_silent_full b hfull,
      Ring.push_ovf_of_stores b (.inr hsilent), Ring.push_head_of_stores b (.inr hsilent)⟩
  · rw [rxEvent_rx, hdrop]; exact Ring.push_dropped_frame b hfull

/-- Settles O43: the two cases of the ring, by what its pop answers. -/
theorem transmitEmptyEventSendsTheOldest : Obligations.TransmitEmptyEventSendsTheOldest := by
  refine fun s ha => ⟨fun hempty => ?_, fun v vs hvs => ?_⟩
  · exact congrArg Host.Outcome.next (txEmptyEvent_of_none ha (Ring.pop_of_empty hempty))
  · obtain ⟨r, hpop, hcontents, hhead, hbuf, hovf, htail⟩ := Ring.pop_oldest hvs
    exact ⟨r, hcontents, hhead, hbuf, hovf, htail, congrArg Host.Outcome.next (txEmptyEvent_of_some ha hpop)⟩

end Sys2Proof.Machine
end

section
/-! The position decoder: one character, a text of the identity section (41_position_decoder.md R181 to R189), and the five
commands (R200 to R204). -/

namespace Sys2Proof.Machine

/-! ### One character, by the cases of R182 -/

theorem State.feed_of_nul (s : State) : s.feed 0x00#8 = { s with stype := .none, comma := 0xFF#8, cidx := 0#8 } := rfl

theorem State.feed_of_dollar (s : State) : s.feed 0x24#8 = { s with stype := .none, comma := 0#8, cidx := 0#8 } := rfl

theorem State.feed_of_comma (s : State) : s.feed 0x2C#8 = { s with comma := satInc s.comma, cidx := 0#8 } := rfl

/-- The routing maps are the spec's seven rows (R181). -/
theorem route_eq_some_iff (ty : SentenceType) (comma : Byte) (fld : Field) :
    route ty comma = some fld ↔ (ty, comma, fld) ∈ Claims.routing := by
  have hcomma : comma = BitVec.ofNat 8 comma.toNat := by simp
  constructor
  · intro h
    cases ty with
    | none | ignored => cases h
    | gpgga | gprmc =>
      simp only [route] at h
      split at h <;> cases h
      all_goals
        rename_i hn
        rw [hcomma, hn]
        decide
  · intro h
    rw [Claims.routing] at h
    fin_cases h <;> rfl

theorem route_eq_none_iff (ty : SentenceType) (comma : Byte) :
    route ty comma = none ↔ ∀ fld : Field, (ty, comma, fld) ∉ Claims.routing := by
  simp only [← route_eq_some_iff, Option.eq_none_iff_forall_ne_some, ne_eq]

/-! ### The sentence type, by the cases of R186 -/

@[simp] theorem sniff_S (ty : SentenceType) : sniff ty 0x53#8 = .ignored := rfl

@[simp] theorem sniff_C (ty : SentenceType) : sniff ty 0x43#8 = .gprmc := rfl

theorem sniff_A {ty : SentenceType} (h : ty ≠ .ignored) : sniff ty 0x41#8 = .gpgga := by
  simp [sniff, h]

theorem sniff_other {b : Byte} (ty : SentenceType) (hS : b ≠ 0x53#8) (hC : b ≠ 0x43#8) (hA : b ≠ 0x41#8) :
    sniff ty b = ty := by
  simp [sniff, hS, hC, hA]

/-- Only `'C'` leaves Ignored. -/
theorem sniff_ignored {b : Byte} (hC : b ≠ 0x43#8) : sniff .ignored b = .ignored := by
  simp [sniff, hC]

/-- Only `'S'` and `'A'` leave GPRMC. -/
theorem sniff_gprmc {b : Byte} (hS : b ≠ 0x53#8) (hA : b ≠ 0x41#8) : sniff .gprmc b = .gprmc := by
  simp [sniff, hS, hA]

/-- A type that every character of a text keeps is kept by the text. -/
theorem foldl_sniff_eq_self {ty : SentenceType} {bs : List Byte} (h : ∀ b ∈ bs, sniff ty b = ty) :
    bs.foldl sniff ty = ty := by
  induction bs with
  | nil => rfl
  | cons b bs ih =>
    obtain ⟨hb, hbs⟩ := List.forall_mem_cons.mp h
    rw [List.foldl_cons, hb, ih hbs]

/-! ### A text of the identity section -/

/-- `b` is none of the three characters that move the cursor: NUL, `'$'` and `','` (R183 to R185). -/
abbrev IsTextByte (b : Byte) : Prop := b ≠ 0x00#8 ∧ b ≠ 0x24#8 ∧ b ≠ 0x2C#8

/-- A text of the identity section changes the sentence type only, character by character (R186). -/
theorem feedAll_identity {s : State} {bs : List Byte} (hc : s.comma = 0#8) (hbs : ∀ b ∈ bs, IsTextByte b) :
    Claims.feedAll s bs = { s with stype := bs.foldl sniff s.stype } := by
  induction bs generalizing s with
  | nil => rfl
  | cons b bs ih =>
    obtain ⟨⟨h0, h1, h2⟩, hbs⟩ := List.forall_mem_cons.mp hbs
    have hfeed : s.feed b = { s with stype := sniff s.stype b } := s.feed_identity b h0 h1 h2 hc
    calc Claims.feedAll s (b :: bs)
      _ = Claims.feedAll { s with stype := sniff s.stype b } bs := congrArg (Claims.feedAll · bs) hfeed
      _ = { s with stype := (b :: bs).foldl sniff s.stype } := ih hc hbs

theorem feedAll_identity_stype {s : State} {bs : List Byte} (hc : s.comma = 0#8) (hbs : ∀ b ∈ bs, IsTextByte b) :
    (Claims.feedAll s bs).stype = bs.foldl sniff s.stype := by
  rw [feedAll_identity hc hbs]

/-- From any state, `'$'` and a sentence's name give the type the name alone gives (R184, R186). -/
theorem feedAll_start_stype (s : State) (name : String) {ty : SentenceType}
    (hname : ∀ b ∈ Claims.ascii name, IsTextByte b) (hty : (Claims.ascii name).foldl sniff .none = ty) :
    (Claims.feedAll s (0x24#8 :: Claims.ascii name)).stype = ty :=
  (feedAll_identity_stype (s := s.feed 0x24#8) rfl hname).trans hty

/-! ### The reads of the two sets of fields -/

theorem FixSet.read_of_le (x : FixSet) {f i : Byte} {fld : Field} (hf : fieldOfCode f = some fld)
    (hi : i.toNat ≤ fld.len) : x.read f i = some ((x.get fld)[i.toNat]'(by omega)) := by
  simp [FixSet.read, hf, hi]

theorem TempSet.read_of_lt (t : TempSet) {f i : Byte} {fld : Field} (hf : fieldOfCode f = some fld)
    (hi : i.toNat < fld.len) : t.read f i = some ((t.get fld)[i.toNat]'hi) := by
  simp [TempSet.read, hf, hi]

/-- The last index in range reads the terminator slot (R202). -/
theorem FixSet.read_end (x : FixSet) (fld : Field) :
    x.read (codeOfField fld) (BitVec.ofNat 8 fld.len) = some (x.get fld)[fld.len] := by
  cases fld <;> rfl

theorem exec_fixRd_of_read {s : State} {f i b : Byte} (h : s.fix.read f i = some b) :
    exec (.fixRd f i) s = .next { s with res := b.zeroExtend 16 } := by
  rw [exec, execFixRd, h]; rfl

theorem exec_tmpRd_of_read {s : State} {f i b : Byte} (h : s.tmp.read f i = some b) :
    exec (.tmpRd f i) s = .next { s with res := b.zeroExtend 16 } := by
  rw [exec, execTmpRd, h]; rfl

/-! ### The obligations -/

/-- Settles O48: a case of R182 each; a routed character is `storeChar`'s. -/
theorem feedFollowsItsCases : Obligations.FeedFollowsItsCases := by
  refine fun s b => ⟨?nul, ?dollar, ?comma, fun h0 h1 h2 hc => ?identity, fun h0 h1 h2 hc => ⟨fun hr => ?unrouted,
    fun fld hr => ?routed⟩⟩
  case nul => rintro rfl; exact s.feed_of_nul
  case dollar => rintro rfl; exact s.feed_of_dollar
  case comma => rintro rfl; exact ⟨_, s.feed_of_comma, satInc_toNat s.comma⟩
  case identity =>
    refine ⟨_, s.feed_identity b h0 h1 h2 hc, ?_, ?_, ?_, ?_, sniff_other s.stype⟩
    · rintro rfl; exact sniff_S s.stype
    · rintro rfl; exact sniff_C s.stype
    · rintro rfl hi; rw [hi]; exact sniff_ignored (by decide)
    · rintro rfl hi; exact sniff_A hi
  case unrouted => exact s.feed_unrouted b h0 h1 h2 hc ((route_eq_none_iff _ _).mpr hr)
  case routed =>
    exact ⟨_, _, s.feed_routed b fld h0 h1 h2 hc ((route_eq_some_iff _ _ _).mpr hr), satInc_toNat s.cidx,
      fun g k hk => s.storeChar_get fld g b k hk⟩

/-- Settles O49: a text of the identity section folds `sniff` over the type; nothing after the last `'S'` leaves Ignored but
`'C'`, and nothing after the last `'C'` leaves GPRMC but `'S'` and `'A'`. -/
theorem identitySectionSetsTheType : Obligations.IdentitySectionSetsTheType := by
  refine ⟨fun s pre post hc htext => ?text, fun s => ?named, fun s b hc h0 h1 h2 => ?character⟩
  case text =>
    obtain ⟨hpre, hpost⟩ := List.forall_mem_append.mp htext
    have htype : ∀ b, IsTextByte b →
        (Claims.feedAll s (pre ++ b :: post)).stype = post.foldl sniff (sniff (pre.foldl sniff s.stype) b) := by
      intro b hb
      rw [feedAll_identity_stype hc (List.forall_mem_append.mpr ⟨hpre, List.forall_mem_cons.mpr ⟨hb, hpost⟩⟩),
        List.foldl_append, List.foldl_cons]
    refine ⟨fun hlast => ?_, fun hlast => ?_⟩
    · rw [htype _ (by decide), sniff_S]
      exact foldl_sniff_eq_self fun b hb => sniff_ignored (hlast b hb)
    · rw [htype _ (by decide), sniff_C]
      exact foldl_sniff_eq_self fun b hb => sniff_gprmc (hlast b hb).1 (hlast b hb).2
  case named =>
    exact ⟨feedAll_start_stype s "GPGGA" (by decide) (by decide),
      feedAll_start_stype s "GPRMC" (by decide) (by decide),
      feedAll_start_stype s "GPGSA" (by decide) (by decide),
      feedAll_start_stype s "GPGSV" (by decide) (by decide),
      feedAll_start_stype s "GPVTG" (by decide) (by decide),
      feedAll_start_stype s "GPGLL" (by decide) (by decide),
      feedAll_start_stype s "GPZDA" (by decide) (by decide)⟩
  case character => rw [s.feed_identity b h0 h1 h2 hc]; rfl

/-- Settles O52: the reads by what the field arrays answer, the terminator by the invariant's `fix_end`. -/
theorem positionCommandsFollowTheirRules : Obligations.PositionCommandsFollowTheirRules := by
  refine ⟨fun s d => rfl, fun s => ?commit, fun s f i fld hi hf => exec_fixRd_of_read (s.fix.read_of_le hf hi),
    fun s f i fld hi hf => exec_tmpRd_of_read (s.tmp.read_of_lt hf hi), fun s f i hrange => ?fixRange,
    fun s f i hrange => ?tmpRange, fun s fld hinv => ?terminator, fun s => ?cursor,
    rejectsHigh_of_mem (by decide), rejectsImm_of_mem (by decide), rejectsImm_of_mem (by decide)⟩
  case commit => exact ⟨s.commit, rfl, rfl, fun f => ⟨s.tmp.commit_end f, s.tmp.commit_getElem f⟩⟩
  case fixRange => exact exec_of_outOfRange (i := .fixRd f i) hrange s
  case tmpRange => exact exec_of_outOfRange (i := .tmpRd f i) hrange s
  case terminator =>
    rw [exec_fixRd_of_read (s.fix.read_end fld), hinv.fix_end fld]
    rfl
  case cursor => exact ⟨_, rfl, high_pair _ _, low_pair _ _⟩

end Sys2Proof.Machine
end

section
/-! The CRC-16 generator: its recurrence as the statements write it out (42_crc.md R220, R221) and its six commands
(R230 to R235). -/

namespace Sys2Proof.Machine

/-! ### The recurrence -/

/-- The bit R220 tests is 1 exactly when the bit shifted out differs from the operand. -/
theorem getLsbD_zero_xor_ofBool (c : Half) (bit : Bool) :
    (c ^^^ (BitVec.ofBool bit).zeroExtend 16).getLsbD 0 = (c.getLsbD 0 != bit) := by
  cases bit <;> simp

theorem crcStep_eq_crcStepOf (c : Half) (bit : Bool) : crcStep c bit = Claims.crcStepOf c bit := by
  simp only [crcStep, getLsbD_zero_xor_ofBool, Claims.crcStepOf, bne_iff_ne, ne_eq, ite_not]
  by_cases h : c.getLsbD 0 = bit
  · rw [if_pos h, if_pos h, BitVec.xor_zero]
  · rw [if_neg h, if_neg h, Config.crcPoly]

/-- The first `n` bits of `d`, least significant first, take a sequence that steps by R220 from `c 0` to `c n`. -/
theorem foldl_crcStep_range {d : Byte} {c : Nat → Half} {n : Nat}
    (hstep : ∀ k, k < n → c (k + 1) = Claims.crcStepOf (c k) (d.getLsbD k)) :
    (List.range n).foldl (fun x k => crcStep x (d.getLsbD k)) (c 0) = c n := by
  induction n with
  | zero => rfl
  | succ n ih =>
    rw [List.range_succ, List.foldl_append, ih fun k hk => hstep k (by omega), List.foldl_cons, List.foldl_nil,
      crcStep_eq_crcStepOf, hstep n n.lt_succ_self]

theorem crcByte_eq_of_steps {d : Byte} {c : Nat → Half}
    (hstep : ∀ k, k < 8 → c (k + 1) = Claims.crcStepOf (c k) (d.getLsbD k)) : crcByte (c 0) d = c 8 :=
  foldl_crcStep_range hstep

/-! ### The commands -/

theorem bitOperand_of_bit (bit : Bool) : bitOperand (if bit then 1#8 else 0#8) = some bit := by
  cases bit <;> rfl

theorem exec_crcBit_of_bitOperand {d : Byte} {bit : Bool} (h : bitOperand d = some bit) (s : State) :
    exec (.crcBit d) s = .next { s with crc := crcStep s.crc bit } := by
  rw [exec, execCrcBit, h]

theorem xor_crcXorOut (c : Half) : c ^^^ Config.crcXorOut = ~~~c :=
  BitVec.xor_allOnes

/-! ### The obligation -/

/-- Settles O19: CRC_BIT and CRC_BYTE by the recurrence, CRC_BIT's range check by `exec_of_outOfRange`, the reserved bits by
the decoder's check. -/
theorem crcCommandsFollowTheirRules : Obligations.CrcCommandsFollowTheirRules := by
  refine ⟨fun s => ⟨rfl, fun bit => ?bit, fun d c hc hstep => ?byte, rfl, ?fcs, fun w => rfl, fun d hd => ?range⟩,
    rejectsImm_of_mem (by decide), rejectsHigh_of_mem (by decide), rejectsHigh_of_mem (by decide),
    rejectsImm_of_mem (by decide), rejectsImm_of_mem (by decide)⟩
  case bit => rw [exec_crcBit_of_bitOperand (bitOperand_of_bit bit), crcStep_eq_crcStepOf]
  case byte => rw [exec, execCrcByte, ← hc, crcByte_eq_of_steps hstep]
  case fcs => rw [exec, execCrcFcs, xor_crcXorOut]; rfl
  case range => exact exec_of_outOfRange (i := .crcBit d) hd s

end Sys2Proof.Machine
end

section
/-! The encoder between two bytes: what `next_byte()` answers in each job (43_frame_encoder.md R257), what `finish()` leaves
(R259), and the sequencer's enabled turn (R258; 44_bitclock.md R300). -/

namespace Sys2Proof.Machine

/-! ### The next byte of a job -/

theorem State.nextByte_flags {s : State} (hj : s.encJob = .flags) (hn : s.encFlagsLeft ≠ 0) :
    s.nextByte = some ({ s with encFlagsLeft := s.encFlagsLeft - 1 }.loadByte 0x7E#8) := by
  rw [State.nextByte, hj]
  exact if_neg hn

theorem State.nextByte_flags_done {s : State} (hj : s.encJob = .flags) (hn : s.encFlagsLeft = 0) : s.nextByte = none := by
  rw [State.nextByte, hj]
  exact if_pos hn

theorem State.nextByte_byte {s : State} (hj : s.encJob = .byte) : s.nextByte = none := by
  rw [State.nextByte, hj]

theorem State.nextByte_fcsLow {s : State} (hj : s.encJob = .frameEnd) (he : s.encEndStage = 0) :
    s.nextByte = some ({ s with encEndStage := 1 }.loadByte (s.crc.extractLsb' 0 8)) := by
  rw [State.nextByte, hj, he]; rfl

theorem State.nextByte_fcsHigh {s : State} (hj : s.encJob = .frameEnd) (he : s.encEndStage = 1) :
    s.nextByte = some ({ s with encEndStage := 2 }.loadByte (s.crc.extractLsb' 8 8)) := by
  rw [State.nextByte, hj, he]; rfl

theorem State.nextByte_endFlag {s : State} (hj : s.encJob = .frameEnd) (he : s.encEndStage = 2) :
    s.nextByte = some ({ s with encEndStage := 3 }.loadByte 0x7E#8) := by
  rw [State.nextByte, hj, he]; rfl

theorem State.nextByte_frameEnd_done {s : State} (hj : s.encJob = .frameEnd) (he : s.encEndStage = 3) :
    s.nextByte = none := by
  rw [State.nextByte, hj, he]; rfl

/-! ### The end of a job -/

theorem State.finish_of_ne_frameEnd {s : State} (hj : s.encJob ≠ .frameEnd) :
    s.finish = { s with encJob := .none, busy := false } := by
  rw [State.finish, if_neg hj]

theorem State.finish_of_frameEnd {s : State} (hj : s.encJob = .frameEnd) :
    s.finish = { (s.setTxen false).setPtt false with encJob := .none, busy := false, frmAct := false } := by
  rw [State.finish, if_pos hj]

/-! ### The encoder step (R258) -/

theorem encStep_of_bitsLeft {s : State} (hones : s.ones.toNat ≤ 5) (hstuff : s.encStuff = false) (hbit : s.encBit ≠ 8) :
    encStep s = .next s.sendDataBit := by
  rw [encStep, if_neg (by omega), if_neg (by simp [hstuff]), if_neg hbit]

section
variable {s : State} (hones : s.ones.toNat ≤ 5) (hbit : s.encBit = 8) (hstuff : s.encStuff = false)
include hones hbit hstuff

/-- Between two bytes of a job with a byte left, the encoder step is the one of the state with that byte loaded. -/
theorem encStep_of_nextByte_some {u : State} (hu : s.nextByte = some u) : encStep s = encStep u := by
  have hload := (s.nextByte_some u hu).1
  have huOnes : u.ones = s.ones := by rw [hload]
  have huStuff : u.encStuff = s.encStuff := by rw [hload]
  have huBit : u.encBit = 0 := by rw [hload]
  rw [encStep_of_bitsLeft (huOnes ▸ hones) (huStuff.trans hstuff) (by rw [huBit]; decide), encStep, if_neg (by omega),
    if_neg (by simp [hstuff]), if_pos hbit, hu]

theorem encStep_of_nextByte_none (hu : s.nextByte = none) : encStep s = .next s.finish := by
  rw [encStep, if_neg (by omega), if_neg (by simp [hstuff]), if_pos hbit, hu]

end

/-! ### The sequencer's turn that ends a wait (44_bitclock.md R300) -/

theorem sequencerMove_wait {s : State} (hb : s.busy = true) (hd : s.dlFlag = false) (hj : s.encJob = .wait) :
    sequencerMove s = .next (endOfWait s) := by
  rw [sequencerMove, if_pos ⟨hb, hd⟩, hj]

/-! ### The obligation -/

/-- Settles O25: between bytes the step goes by what `next_byte()` answers: a load is `encStep_of_nextByte_some`, an end
`encStep_of_nextByte_none`. -/
theorem encoderLoadsTheBytesOfItsJob : Obligations.EncoderLoadsTheBytesOfItsJob := by
  refine ⟨fun s hb hd => ⟨fun hj => ?encoder, fun hj => sequencerMove_wait hb hd hj⟩, fun s hones hbit hstuff => ?_⟩
  case encoder => exact sequencerMove_enc s hb hd (by rcases hj with hj | hj | hj <;> rw [hj] <;> rfl)
  have hones5 : s.ones.toNat ≤ 5 := by omega
  have hloads {u : State} (hu : s.nextByte = some u) : encStep s = encStep u :=
    encStep_of_nextByte_some hones5 hbit hstuff hu
  have hends (hu : s.nextByte = none) : encStep s = .next s.finish := encStep_of_nextByte_none hones5 hbit hstuff hu
  refine ⟨fun hj hn => hloads (State.nextByte_flags hj hn), fun hj he => hloads (State.nextByte_fcsLow hj he),
    fun hj he => hloads (State.nextByte_fcsHigh hj he), fun hj he => hloads (State.nextByte_endFlag hj he),
    fun hj => ?jobEnds, fun hj he => ?frameEnds⟩
  case jobEnds =>
    rcases hj with hj | ⟨hj, hn⟩
    · rw [hends (State.nextByte_byte hj), State.finish_of_ne_frameEnd (by simp [hj])]
    · rw [hends (State.nextByte_flags_done hj hn), State.finish_of_ne_frameEnd (by simp [hj])]
  case frameEnds =>
    rw [hends (State.nextByte_frameEnd_done hj he), State.finish_of_frameEnd hj]
    refine ⟨_, rfl, rfl, ?txen, ?ptt, ?tone, ?high⟩
    case txen => exact (State.txen_setPtt _ _).trans (s.txen_setTxen false)
    case ptt => exact State.ptt_setPtt _ _
    case tone => exact (State.tone_setPtt _ _).trans (s.tone_setTxen false)
    case high =>
      exact (setBit_high _ 2 false 3 5 (by decide) (by decide)).trans
        (setBit_high s.ctrl 0 false 3 5 (by decide) (by decide))

end Sys2Proof.Machine
end

section
/-! The bit clock: one base tick (44_bitclock.md R295), a run of ticks up to a counter's expiry (R292), the commands WAIT,
CTRL_WR and CTRL_RD (R299, R310, R311), and what every step does to `TXEN` and `SMP_COUNT` (R296). -/

namespace Sys2Proof.Machine

/-! ### The two halves of a base tick (R295) -/

theorem expired_iff (n : Half) : expired n = true ↔ n.toNat ≤ 1 := by
  simp [expired]

theorem tickDeadline_of_expired {s : State} (h : s.dlCount.toNat ≤ 1) :
    tickDeadline s = { s with dlFlag := false, dlCount := s.cfg.idleTimeout } := by
  rw [tickDeadline, if_pos ((expired_iff _).mpr h)]

theorem tickDeadline_of_counting {s : State} (h : 1 < s.dlCount.toNat) :
    tickDeadline s = { s with dlCount := s.dlCount - 1#16 } := by
  rw [tickDeadline, if_neg (by rw [expired_iff]; omega)]

theorem tickSample_of_expired {s : State} (ht : s.txen = true) (h : s.smpCount.toNat ≤ 1) :
    tickSample s =
      { s with
        waveIdx := s.waveIdx + 1#4, dac := s.cfg.wave[(s.waveIdx + 1#4).toNat], smpCount := reload s.cfg s.tone
        dacTrace := s.dacTrace ++ [s.cfg.wave[(s.waveIdx + 1#4).toNat]] } := by
  rw [tickSample, if_pos ht, if_pos ((expired_iff _).mpr h)]

theorem tickSample_of_counting {s : State} (ht : s.txen = true) (h : 1 < s.smpCount.toNat) :
    tickSample s = { s with smpCount := s.smpCount - 1#16 } := by
  rw [tickSample, if_pos ht, if_neg (by rw [expired_iff]; omega)]

theorem tickSample_of_txen_off {s : State} (ht : s.txen = false) : tickSample s = s := by
  rw [tickSample, if_neg (by simp [ht])]

/-! ### One base tick, counter by counter -/

theorem toNat_sub_one {n : Half} (h : 1 < n.toNat) : (n - 1#16).toNat = n.toNat - 1 :=
  BitVec.toNat_sub_of_le (BitVec.le_def.mpr (Nat.le_of_lt h))

@[simp] theorem tickDeadline_txen (s : State) : (tickDeadline s).txen = s.txen :=
  State.txen_eq_of_ctrl (tickDeadline_ctrl s)

@[simp] theorem tickDeadline_tone (s : State) : (tickDeadline s).tone = s.tone :=
  State.tone_eq_of_ctrl (tickDeadline_ctrl s)

theorem tickEvent_deadline_expires {s : State} (h : s.dlCount.toNat ≤ 1) :
    (tickEvent s).dlFlag = false ∧ (tickEvent s).dlCount = s.cfg.idleTimeout := by
  simp [tickEvent, tickDeadline_of_expired h]

theorem tickEvent_deadline_counts {s : State} (h : 1 < s.dlCount.toNat) :
    (tickEvent s).dlFlag = s.dlFlag ∧ (tickEvent s).dlCount.toNat = s.dlCount.toNat - 1 := by
  simp only [tickEvent, tickSample_dlFlag, tickSample_dlCount, tickDeadline_of_counting h, toNat_sub_one h, and_self]

theorem tickEvent_sample_expires {s : State} (ht : s.txen = true) (h : s.smpCount.toNat ≤ 1) :
    (tickEvent s).waveIdx = s.waveIdx + 1#4 ∧ (tickEvent s).dac = s.cfg.wave[(s.waveIdx + 1#4).toNat] ∧
      (tickEvent s).smpCount = reload s.cfg s.tone ∧
      (tickEvent s).dacTrace = s.dacTrace ++ [s.cfg.wave[(s.waveIdx + 1#4).toNat]] := by
  simp [tickEvent, tickSample_of_expired (s := tickDeadline s) (by simpa using ht) (by simpa using h)]

theorem tickEvent_sample_counts {s : State} (ht : s.txen = true) (h : 1 < s.smpCount.toNat) :
    (tickEvent s).smpCount.toNat = s.smpCount.toNat - 1 ∧ (tickEvent s).waveIdx = s.waveIdx ∧
      (tickEvent s).dac = s.dac ∧ (tickEvent s).dacTrace = s.dacTrace := by
  simp [tickEvent, tickSample_of_counting (s := tickDeadline s) (by simpa using ht) (by simpa using h), toNat_sub_one h]

theorem tickEvent_sample_holds {s : State} (ht : s.txen = false) :
    (tickEvent s).smpCount = s.smpCount ∧ (tickEvent s).waveIdx = s.waveIdx ∧ (tickEvent s).dac = s.dac ∧
      (tickEvent s).dacTrace = s.dacTrace := by
  simp [tickEvent, tickSample_of_txen_off (s := tickDeadline s) (by simpa using ht)]

/-! ### A run of ticks (R292) -/

theorem ticks_succ (n : Nat) (s : State) : ticks (n + 1) s = tickEvent (ticks n s) := by
  induction n generalizing s with
  | zero => rfl
  | succ n ih => exact ih (tickEvent s)

@[simp] theorem ticks_cfg (n : Nat) (s : State) : (ticks n s).cfg = s.cfg := by
  induction n with
  | zero => rfl
  | succ n ih => rw [ticks_succ, tickEvent_cfg, ih]

@[simp] theorem ticks_ctrl (n : Nat) (s : State) : (ticks n s).ctrl = s.ctrl := by
  induction n with
  | zero => rfl
  | succ n ih => rw [ticks_succ, tickEvent_ctrl, ih]

@[simp] theorem ticks_txen (n : Nat) (s : State) : (ticks n s).txen = s.txen := State.txen_eq_of_ctrl (ticks_ctrl n s)

@[simp] theorem ticks_tone (n : Nat) (s : State) : (ticks n s).tone = s.tone := State.tone_eq_of_ctrl (ticks_ctrl n s)

/-- The last of `max n 1` ticks finds a counter that held `n` counted down to 1 or 0. -/
theorem exists_lastTick (n : Nat) : ∃ k, max n 1 = k + 1 ∧ k < max n 1 ∧ n - k ≤ 1 :=
  ⟨n - 1, by omega, by omega, by omega⟩

theorem ticks_deadline_counting {s : State} {k : Nat} (hk : k < max s.dlCount.toNat 1) :
    (ticks k s).dlFlag = s.dlFlag ∧ (ticks k s).dlCount.toNat = s.dlCount.toNat - k := by
  induction k with
  | zero => exact ⟨rfl, rfl⟩
  | succ k ih =>
    obtain ⟨hflag, hcount⟩ := ih (by omega)
    obtain ⟨hflag', hcount'⟩ := tickEvent_deadline_counts (s := ticks k s) (by omega)
    rw [ticks_succ]
    exact ⟨hflag'.trans hflag, by omega⟩

theorem ticks_deadline_expires (s : State) :
    (ticks (max s.dlCount.toNat 1) s).dlFlag = false ∧ (ticks (max s.dlCount.toNat 1) s).dlCount = s.cfg.idleTimeout := by
  obtain ⟨k, hmax, hk, hlast⟩ := exists_lastTick s.dlCount.toNat
  have hcount := (ticks_deadline_counting hk).2
  rw [hmax, ticks_succ, ← ticks_cfg k s]
  exact tickEvent_deadline_expires (by omega)

theorem ticks_sample_counting {s : State} {k : Nat} (ht : s.txen = true) (hk : k < max s.smpCount.toNat 1) :
    (ticks k s).smpCount.toNat = s.smpCount.toNat - k ∧ (ticks k s).waveIdx = s.waveIdx ∧
      (ticks k s).dacTrace = s.dacTrace := by
  induction k with
  | zero => exact ⟨rfl, rfl, rfl⟩
  | succ k ih =>
    obtain ⟨hcount, hidx, htrace⟩ := ih (by omega)
    obtain ⟨hcount', hidx', -, htrace'⟩ := tickEvent_sample_counts (s := ticks k s) (by simpa using ht) (by omega)
    rw [ticks_succ]
    exact ⟨by omega, hidx'.trans hidx, htrace'.trans htrace⟩

theorem ticks_sample_expires {s : State} (ht : s.txen = true) :
    (ticks (max s.smpCount.toNat 1) s).dacTrace = s.dacTrace ++ [s.cfg.wave[(s.waveIdx + 1#4).toNat]] ∧
      (ticks (max s.smpCount.toNat 1) s).smpCount = reload s.cfg s.tone := by
  obtain ⟨k, hmax, hk, hlast⟩ := exists_lastTick s.smpCount.toNat
  obtain ⟨hcount, hidx, htrace⟩ := ticks_sample_counting ht hk
  obtain ⟨-, -, hreload, hsample⟩ := tickEvent_sample_expires (s := ticks k s) (by simpa using ht) (by omega)
  rw [hmax, ticks_succ]
  exact ⟨by simp only [hsample, htrace, hidx, ticks_cfg], by rw [hreload, ticks_cfg, ticks_tone]⟩

/-! ### The commands (R310, R311) -/

/-- CTRL_WR with a proper operand: `SMP_COUNT` is reloaded for the written tone when `TXEN` goes from 0 to 1 (R296). -/
theorem exec_ctrlWr_of_ok {d : Byte} (h : d.extractLsb' 6 2 = 0#2) (s : State) :
    exec (.ctrlWr d) s = .next { s with ctrl := d, smpCount :=
      (if s.ctrl.getLsbD 0 = false ∧ d.getLsbD 0 = true then reload s.cfg (d.getLsbD 1) else s.smpCount) } := by
  rw [exec, execCtrlWr, if_pos (by simpa [ctrlOperandOk] using h)]
  simp only [State.txen, Bool.and_eq_true, Bool.not_eq_true']
  split <;> rfl

theorem zeroExtend_eq_pair (b : Byte) : b.zeroExtend 16 = pair 0x00#8 b := BitVec.setWidth_eq_append (by decide)

/-! ### The transmitter enable (R296) -/

/-- From `s` to `t`, `SMP_COUNT` is reloaded where `TXEN` goes from 0 to 1 and untouched where `TXEN` was 1. -/
structure EnableReloads (s t : State) : Prop where
  reloaded : s.txen = false → t.txen = true → t.smpCount = reload t.cfg t.tone
  untouched : s.txen = true → t.smpCount = s.smpCount

theorem EnableReloads.of_kept {s t : State} (hctrl : t.ctrl = s.ctrl) (hsmp : t.smpCount = s.smpCount) :
    EnableReloads s t :=
  ⟨fun hs ht => by simp [State.txen_eq_of_ctrl hctrl, hs] at ht, fun _ => hsmp⟩

/-- What FRM_START makes of `CTRL` and `SMP_COUNT` (43_frame_encoder.md R270). -/
theorem execFrmStart_sampler {w : Half} {s t : State} (h : execFrmStart w s = .next t) :
    t.cfg = s.cfg ∧ t.ctrl = (((s.setTone false).setTxen true).setPtt true).ctrl ∧
      t.smpCount = if s.txen then s.smpCount else s.cfg.reloadMark := by
  have htxen : s.txen = (s.setTone false).txen := (s.txen_setTone false).symm
  simp only [execFrmStart] at h
  rw [htxen]
  split at h <;> cases h <;> rename_i hon
  · exact ⟨rfl, rfl, (if_pos hon).symm⟩
  · exact ⟨rfl, rfl, (if_neg hon).symm⟩

/-- FRM_START sets mark, and reloads for it unless the transmitter is already on. -/
theorem execFrmStart_enableReloads {w : Half} {s t : State} (h : execFrmStart w s = .next t) : EnableReloads s t := by
  obtain ⟨hcfg, hctrl, hcount⟩ := execFrmStart_sampler h
  have hmark : t.tone = false := (State.tone_eq_of_ctrl hctrl).trans (by simp)
  refine ⟨fun hs _ => ?_, fun hs => by rw [hcount, if_pos hs]⟩
  rw [hcount, hcfg, hmark, if_neg (by simp [hs])]
  rfl

/-- CTRL_WR reloads for the tone it writes (R311). -/
theorem exec_ctrlWr_enableReloads {d : Byte} {s t : State} (h : exec (.ctrlWr d) s = .next t) : EnableReloads s t := by
  by_cases hd : d.extractLsb' 6 2 = 0#2
  · rw [exec_ctrlWr_of_ok hd] at h
    cases h
    exact ⟨fun hs ht => if_pos ⟨hs, ht⟩, fun hs => if_neg fun hoff => absurd (hoff.1.symm.trans hs) (by decide)⟩
  · rw [exec_ctrlWr_of_reserved hd] at h
    cases h
    exact .of_kept (s.raiseCmdError_ctrl .reservedBits 0x31#8) (s.raiseCmdError_smpCount .reservedBits 0x31#8)

/-- Every command but FRM_START and CTRL_WR keeps both registers, on each of its paths. -/
theorem exec_enableReloads {i : Instr} {s t : State} (h : exec i s = .next t) : EnableReloads s t := by
  cases i with
  | frmStart _ => exact execFrmStart_enableReloads h
  | ctrlWr _ => exact exec_ctrlWr_enableReloads h
  | nop | statRd | errRd | errClr | crcInit | crcByte _ | crcRd | crcFcs | crcWr _ | frmByte _ | frmEnd | wait _ | ctrlRd
  | ovfRd | ovfClr | nmeaCommit | curRd => cases h; exact .of_kept rfl rfl
  | txEnq _ | nmeaFeed _ => cases h; exact .of_kept (by simp) (by simp)
  | crcBit _ | ringRd _ | fixRd _ _ | tmpRd _ _ | rxPoll | rxPollFeed =>
    simp only [exec, execCrcBit, execRingRd, execFixRd, execTmpRd, execRxPoll, execRxPollFeed] at h
    split at h <;> cases h <;> exact .of_kept (by simp) (by simp)

@[simp] theorem State.sendDataBit_txen (s : State) : s.sendDataBit.txen = s.txen := by
  rw [State.txen, s.sendDataBit_ctrl]
  split
  · rfl
  · exact s.txen_setTone _

@[simp] theorem State.sendStuffedZero_txen (s : State) : s.sendStuffedZero.txen = s.txen := s.txen_setTone _

theorem State.txen_of_finish_txen (s : State) (h : s.finish.txen = true) : s.txen = true := by
  by_cases hj : s.encJob = .frameEnd
  · rw [State.finish_of_frameEnd hj] at h
    have hoff : ((s.setTxen false).setPtt false).txen = false := by simp
    exact absurd (hoff.symm.trans h) (by decide)
  · rwa [State.finish_of_ne_frameEnd hj] at h

/-- An encoder step does not enable the transmitter (43_frame_encoder.md R258, R259). -/
theorem encStep_txen {s t : State} (h : encStep s = .next t) (ht : t.txen = true) : s.txen = true := by
  rcases (encStep_next_cases s t h).2 with ⟨-, rfl⟩ | ⟨-, -, rfl⟩ | ⟨-, -, u, hu, rfl⟩ | ⟨-, -, -, rfl⟩
  · simpa using ht
  · simpa using ht
  · rw [State.sendDataBit_txen, (s.nextByte_some u hu).1] at ht
    exact ht
  · exact s.txen_of_finish_txen ht

@[simp] theorem resetEvent_txen (s : State) : (resetEvent s).txen = false := by
  simp [State.txen, resetEvent, State.powerOn]

/-- A step that enables the transmitter is a command's, and it reloads `SMP_COUNT` for the tone it leaves (R296). -/
theorem step_enable_reloads {s t : State} (h : step s = .next t) (hs : s.txen = false) (ht : t.txen = true) :
    t.smpCount = reload t.cfg t.tone := by
  have hkept {u : State} (hu : u.ctrl = s.ctrl) (hon : u.txen = true) : False := by
    simp [State.txen_eq_of_ctrl hu, hs] at hon
  rcases step_cases s t h with ⟨-, rfl⟩ | ⟨-, -, w, ws, i, -, -, -, he⟩ | ⟨-, -, w, ws, c, -, -, rfl⟩ | ⟨-, rfl⟩ |
    ⟨-, -, -, -, he⟩ | ⟨-, -, -, -, rfl⟩ | ⟨-, rfl⟩ | ⟨b, -, rfl⟩ | ⟨-, rfl⟩ | ⟨-, rfl⟩ | ⟨-, rfl⟩
  · exact (hkept rfl ht).elim
  · exact (exec_enableReloads he).reloaded hs ht
  · exact (hkept (by simp) ht).elim
  · exact (hkept rfl ht).elim
  · exact (hkept (u := s.turnTaken) rfl (encStep_txen he ht)).elim
  · exact (hkept rfl ht).elim
  · exact (hkept (by simp) ht).elim
  · exact (hkept rfl ht).elim
  · exact (hkept (by simp) ht).elim
  · exact (hkept (by simp) ht).elim
  · simp at ht

theorem reload_pos {p : Config.Params} (h : p.legal = true) (tone : Bool) : 0 < (reload p tone).toNat := by
  simp only [Config.Params.legal, Bool.and_eq_true, decide_eq_true_eq] at h
  obtain ⟨⟨⟨⟨-, hmark⟩, hspace⟩, -⟩, -⟩ := h
  cases tone
  · exact BitVec.toNat_pos_of_ne_zero hmark
  · exact BitVec.toNat_pos_of_ne_zero hspace

/-- From a counter that holds `n` in 1..65535, the first sample comes on tick `n` (R292). -/
theorem ticks_first_sample {s : State} {k : Nat} (ht : s.txen = true) (hpos : 0 < s.smpCount.toNat)
    (hk : k ≤ s.smpCount.toNat) :
    (ticks k s).dacTrace.length = s.dacTrace.length + if k = s.smpCount.toNat then 1 else 0 := by
  have hmax : max s.smpCount.toNat 1 = s.smpCount.toNat := by omega
  by_cases hlast : k = s.smpCount.toNat
  · rw [if_pos hlast, hlast, ← hmax, (ticks_sample_expires ht).1, List.length_append, List.length_singleton]
  · rw [if_neg hlast, (ticks_sample_counting ht (by omega)).2.2, Nat.add_zero]

/-! ### The obligations -/

/-- Settles O33: CTRL_WR by its operand check, CTRL_RD's word as the pair of a zero byte and `CTRL`. -/
theorem clockCommandsFollowTheirRules : Obligations.ClockCommandsFollowTheirRules := by
  refine ⟨fun s w => rfl, fun s d hd => exec_ctrlWr_of_ok hd s, fun s d hd => exec_ctrlWr_of_reserved hd s,
    fun s => ⟨_, rfl, ?_, ?_, fun hinv => ?_⟩, rejectsHigh_of_mem (by decide), rejectsImm_of_mem (by decide)⟩
  · rw [zeroExtend_eq_pair, low_pair]
  · rw [zeroExtend_eq_pair, high_pair]
  · exact (BitVec.extractLsb'_setWidth_of_le (by decide)).trans hinv.ctrl_reserved

/-- Settles O34: the tick's halves, counter by counter. -/
theorem tickFollowsItsRule : Obligations.TickFollowsItsRule := by
  refine fun s => ⟨tickEvent s, rfl, tickEvent_eq s, tickEvent_deadline_expires, tickEvent_deadline_counts,
    fun ht hn => ?_, tickEvent_sample_counts, tickEvent_sample_holds⟩
  obtain ⟨hidx, hdac, hcount, htrace⟩ := tickEvent_sample_expires ht hn
  refine ⟨by rw [hidx]; rfl, ?_, hcount, by rw [htrace, hdac]⟩
  rw [hidx, hdac, Vector.getElem?_eq_getElem]

/-- Settles O35: the counter counts down up to its last tick, which finds it at 1 or 0. -/
theorem countersExpireOnTheirTick : Obligations.CountersExpireOnTheirTick := by
  refine fun s => ⟨fun k => ticks_deadline_counting, (ticks_deadline_expires s).1, (ticks_deadline_expires s).2,
    fun ht => ⟨fun k hk => ?_, (ticks_sample_expires ht).1, (ticks_sample_expires ht).2⟩⟩
  obtain ⟨hcount, -, htrace⟩ := ticks_sample_counting ht hk
  exact ⟨htrace, hcount⟩

/-- Settles O38: only commands enable the transmitter, and the reload they leave is the count to the first sample. -/
theorem transmitterEnableReloadsTheSampleCounter : Obligations.TransmitterEnableReloadsTheSampleCounter := by
  refine ⟨fun s t => step_enable_reloads, fun i s t h => (exec_enableReloads h).untouched,
    fun s t h hs ht hlegal k hk => ?_⟩
  have hcount : t.smpCount = reload t.cfg t.tone := step_enable_reloads h hs ht
  rw [← hcount] at hk ⊢
  exact ticks_first_sample ht (hcount ▸ reload_pos hlegal t.tone) hk

end Sys2Proof.Machine
end

section
/-! The system commands (45_system.md R330 to R333): what each leaves, and the fields of `STATUS` (10_state.md R70). -/

namespace Sys2Proof.Machine

/-! ### The fields of STATUS -/

/-- `STATUS` with its low four flags and its top flag each a bit put below the bits above it. -/
theorem State.statusWord_eq_concat (s : State) : s.statusWord =
    (((((0#9).concat s.txne ++ s.stype.code).concat s.err).concat s.frmAct).concat s.txAct).concat s.rxne := rfl

theorem extractLsb'_concat_succ {n : Nat} (x : BitVec n) (b : Bool) (start len : Nat) :
    (x.concat b).extractLsb' (start + 1) len = x.extractLsb' start len :=
  BitVec.extractLsb'_append_eq_of_le start.succ_pos

theorem State.statusWord_rxne (s : State) : s.statusWord.getLsbD 0 = s.rxne := by
  simp only [s.statusWord_eq_concat, BitVec.getLsbD_concat_zero]

theorem State.statusWord_txAct (s : State) : s.statusWord.getLsbD 1 = s.txAct := by
  simp only [s.statusWord_eq_concat, BitVec.getLsbD_concat_succ, BitVec.getLsbD_concat_zero]

theorem State.statusWord_frmAct (s : State) : s.statusWord.getLsbD 2 = s.frmAct := by
  simp only [s.statusWord_eq_concat, BitVec.getLsbD_concat_succ, BitVec.getLsbD_concat_zero]

theorem State.statusWord_err (s : State) : s.statusWord.getLsbD 3 = s.err := by
  simp only [s.statusWord_eq_concat, BitVec.getLsbD_concat_succ, BitVec.getLsbD_concat_zero]

/-- Above the four low flags stand `STYPE`, TXNE and the zero bits. -/
theorem State.statusWord_above_flags (s : State) (start len : Nat) :
    s.statusWord.extractLsb' (start + 4) len = ((0#9).concat s.txne ++ s.stype.code).extractLsb' start len := by
  simp only [s.statusWord_eq_concat, extractLsb'_concat_succ]

theorem State.statusWord_stype (s : State) : s.statusWord.extractLsb' 4 2 = s.stype.code := by
  rw [s.statusWord_above_flags 0, BitVec.extractLsb'_append_eq_of_add_le (by decide), BitVec.extractLsb'_eq_self]

theorem State.statusWord_txne (s : State) : s.statusWord.getLsbD 6 = s.txne := by
  simp only [s.statusWord_eq_concat, BitVec.getLsbD_concat_succ]
  rw [BitVec.getLsbD_append, if_neg (by decide), BitVec.getLsbD_concat_zero]

theorem State.statusWord_reserved (s : State) : s.statusWord.extractLsb' 7 9 = 0#9 := by
  rw [s.statusWord_above_flags 3, BitVec.extractLsb'_append_eq_of_le (by decide), extractLsb'_concat_succ,
    BitVec.extractLsb'_eq_self]

/-! ### The error record as ERR_RD reads it (R332) -/

theorem State.Inv.errRecord_zero {s : State} (hinv : s.Inv) (h : s.err = false) : pair s.errOp s.errCause = 0 := by
  obtain ⟨hcause, hop⟩ := hinv.err_clear h
  rw [hcause, hop]; rfl

/-! ### The obligation -/

/-- Settles O18: STAT_RD by the fields of `STATUS`, ERR_RD's word as a pair that the invariant makes zero when no error is
recorded, the reserved bits by the decoder's check. -/
theorem systemCommandsFollowTheirRules : Obligations.SystemCommandsFollowTheirRules := by
  refine ⟨fun s => ⟨rfl, ⟨s.statusWord, rfl, s.statusWord_rxne, s.statusWord_txAct, s.statusWord_frmAct, s.statusWord_err,
      s.statusWord_stype, s.statusWord_txne, s.statusWord_reserved⟩,
      ⟨pair s.errOp s.errCause, rfl, high_pair _ _, low_pair _ _, State.Inv.errRecord_zero⟩, rfl⟩, rfl,
    rejectsImm_of_mem (by decide), rejectsImm_of_mem (by decide), rejectsImm_of_mem (by decide),
    rejectsImm_of_mem (by decide)⟩

end Sys2Proof.Machine
end

section
/-! Rejected words (30_encoding.md R107, 60_exceptions.md R352): the first check a word fails, read off the decoder's answer,
and what taking the word does then. -/

namespace Sys2Proof

/-! ### The opcode of a decoded command (R103) -/

/-- Every command the form makes has the opcode `op`. -/
def Form.hasOpcode (op : Byte) : Form → Prop
  | .n i => i.opcode = op
  | .b mk => ∀ d, (mk d).opcode = op
  | .w mk => ∀ v, (mk v).opcode = op
  | .f mk => ∀ f k, (mk f k).opcode = op

theorem formOf_hasOpcode {op : Byte} {fm : Form} (h : formOf op = some fm) : fm.hasOpcode op := by
  have hop : op = BitVec.ofNat 8 op.toNat := by simp
  unfold formOf at h
  split at h
  case h_28 => cases h
  all_goals
    rename_i hn
    rw [hop, hn]
    cases h
    simp [Form.hasOpcode, Instr.opcode]

theorem opcode_of_decode {w : Cmd} {i : Instr} (h : decode w = .ok i) : i.opcode = opField w := by
  cases hf : formOf (opField w) with
  | none => rw [decode_of_formOf_none hf] at h; cases h
  | some fm =>
    have hop := formOf_hasOpcode hf
    cases fm with
    | n j => rw [decode_of_formN hf] at h; split at h <;> cases h; exact hop
    | b mk => rw [decode_of_formB hf] at h; split at h <;> cases h; exact hop _
    | w mk => rw [decode_of_formW hf] at h; cases h; exact hop _
    | f mk => rw [decode_of_formF hf] at h; cases h; exact hop _ _

/-! ### Reserved bits (R105) -/

/-- A bit that R105 reserves is 1: in the operand field of format N, the high byte of format B, or CTRL_WR's `d[7:6]`. -/
def reservedBitsSet (w : Cmd) : Prop :=
  (opField w ∈ Claims.opcodesN ∧ immField w ≠ 0) ∨ (opField w ∈ Claims.opcodesB ∧ immHigh w ≠ 0) ∨
    (opField w = 0x31#8 ∧ (immLow w).extractLsb' 6 2 ≠ 0#2)

theorem decode_of_ctrlWr_opcode {w : Cmd} (h : opField w = 0x31#8) :
    decode w = if immHigh w = 0 then .ok (.ctrlWr (immLow w)) else .error .reservedBits :=
  decode_of_formB (by rw [h]; rfl)

theorem reservedBitsSet_of_decode_error {w : Cmd} (h : decode w = .error .reservedBits) : reservedBitsSet w := by
  obtain ⟨hc, -⟩ | ⟨-, fm, hfm⟩ := decode_error_cases h
  · cases hc
  · have hop := mem_opcodes_of_formOf hfm
    simp only [Claims.opcodes, List.mem_append] at hop
    rcases hop with ((hN | hB) | hW) | hF
    · obtain ⟨i, hi⟩ := formOf_of_mem_opcodesN hN
      refine .inl ⟨hN, fun himm => ?_⟩
      rw [decode_of_formN hi, if_pos himm] at h; cases h
    · obtain ⟨mk, hmk⟩ := formOf_of_mem_opcodesB hB
      refine .inr (.inl ⟨hB, fun hhigh => ?_⟩)
      rw [decode_of_formB hmk, if_pos hhigh] at h; cases h
    · obtain ⟨mk, hmk⟩ := formOf_of_mem_opcodesW hW
      rw [decode_of_formW hmk] at h; cases h
    · obtain ⟨mk, hmk⟩ := formOf_of_mem_opcodesF hF
      rw [decode_of_formF hmk] at h; cases h

/-- The decoder rejects a word with a reserved bit set, except that it leaves CTRL_WR's `d[7:6]` to the command (log 10). -/
theorem reservedBitsSet_iff (w : Cmd) : reservedBitsSet w ↔
    decode w = .error .reservedBits ∨ ∃ d, decode w = .ok (.ctrlWr d) ∧ d.extractLsb' 6 2 ≠ 0#2 := by
  constructor
  · rintro (⟨hN, himm⟩ | ⟨hB, hhigh⟩ | ⟨hop, hd⟩)
    · obtain ⟨i, hi⟩ := formOf_of_mem_opcodesN hN
      exact .inl (by rw [decode_of_formN hi, if_neg himm])
    · obtain ⟨mk, hmk⟩ := formOf_of_mem_opcodesB hB
      exact .inl (by rw [decode_of_formB hmk, if_neg hhigh])
    · rw [decode_of_ctrlWr_opcode hop]
      split
      · exact .inr ⟨_, rfl, hd⟩
      · exact .inl rfl
  · rintro (herr | ⟨d, hok, hd⟩)
    · exact reservedBitsSet_of_decode_error herr
    · have hop : opField w = 0x31#8 := (opcode_of_decode hok).symm
      rw [decode_of_ctrlWr_opcode hop] at hok
      split at hok <;> cases hok
      exact .inr (.inr ⟨hop, hd⟩)

/-! ### Well-formed commands (R105, R106) -/

theorem commitLen_getElem? (f : Byte) : Config.commitLen[f.toNat]? = (Machine.fieldOfCode f).map Field.len := by
  cases hf : Machine.fieldOfCode f with
  | none => exact List.getElem?_eq_none ((Machine.fieldOfCode_eq_none_iff f).mp hf)
  | some fld =>
    unfold Machine.fieldOfCode at hf
    split at hf
    case h_8 => cases hf
    all_goals
      rename_i hcode
      rw [hcode]
      cases hf
      rfl

theorem fixOperandOk_eq_false_iff (f k : Byte) : fixOperandOk f k = false ↔ (Instr.fixRd f k).outOfRange := by
  rw [fixOperandOk, commitLen_getElem?]
  cases hf : Machine.fieldOfCode f <;> simp [Instr.outOfRange, hf]

theorem tmpOperandOk_eq_false_iff (f k : Byte) : tmpOperandOk f k = false ↔ (Instr.tmpRd f k).outOfRange := by
  rw [tmpOperandOk, commitLen_getElem?]
  cases hf : Machine.fieldOfCode f with
  | none => simp [Instr.outOfRange, hf]
  | some fld =>
    have hpos := Machine.Field.len_pos fld
    simp only [Instr.outOfRange, hf, Option.map_some, Option.some.injEq, forall_eq', decide_eq_false_iff_not]
    omega

theorem ctrlReserved_eq_zero_iff (d : Byte) : d.extractLsb' 6 2 = 0#2 ↔ d.toNat < 64 := by
  have hd := d.isLt
  have hbits : (d.extractLsb' 6 2).toNat = d.toNat / 64 % 4 := by
    rw [BitVec.extractLsb'_toNat, Nat.shiftRight_eq_div_pow]
  rw [← BitVec.toNat_inj, hbits, BitVec.toNat_ofNat]
  omega

theorem wellFormed_eq_false_iff (i : Instr) :
    i.wellFormed = false ↔ i.outOfRange ∨ ∃ d, i = .ctrlWr d ∧ d.extractLsb' 6 2 ≠ 0#2 := by
  cases i with
  | crcBit d | ringRd d => simp [Instr.wellFormed, Instr.outOfRange]
  | ctrlWr d => simp [Instr.wellFormed, Instr.outOfRange, ctrlReserved_eq_zero_iff]
  | fixRd f k => simp [Instr.wellFormed, fixOperandOk_eq_false_iff]
  | tmpRd f k => simp [Instr.wellFormed, tmpOperandOk_eq_false_iff]
  | _ => simp [Instr.wellFormed, Instr.outOfRange]

/-! ### The first check that fails (R107) -/

/-- The first check the word fails, in the order opcode, reserved bits, range, is the one that raises the cause. -/
def failsFirst (w : Cmd) : Cause → Prop
  | .illegalOpcode => opField w ∉ Claims.opcodes
  | .reservedBits => reservedBitsSet w
  | .operandRange => ∃ i, decode w = .ok i ∧ i.outOfRange

theorem exists_failsFirst {w : Cmd} (h : ∀ i, decode w = .ok i → i.wellFormed = false) : ∃ c, failsFirst w c := by
  cases hd : decode w with
  | error c =>
    obtain ⟨rfl, -⟩ | ⟨rfl, -⟩ := decode_error_cases hd
    · exact ⟨.illegalOpcode, (decode_eq_illegalOpcode_iff w).mp hd⟩
    · exact ⟨.reservedBits, (reservedBitsSet_iff w).mpr (.inl hd)⟩
  | ok i =>
    obtain hrange | ⟨d, rfl, hbits⟩ := (wellFormed_eq_false_iff i).mp (h i hd)
    · exact ⟨.operandRange, i, hd, hrange⟩
    · exact ⟨.reservedBits, (reservedBitsSet_iff w).mpr (.inr ⟨d, hd, hbits⟩)⟩

/-- What the decoder answers for a word whose first failing check raises `c`. -/
theorem failsFirst_cases {w : Cmd} {c : Cause} (h : failsFirst w c) :
    decode w = .error c ∨
    (c = .reservedBits ∧ ∃ d, decode w = .ok (.ctrlWr d) ∧ d.extractLsb' 6 2 ≠ 0#2) ∨
    (c = .operandRange ∧ ∃ i, decode w = .ok i ∧ i.outOfRange) := by
  cases c with
  | illegalOpcode => exact .inl ((decode_eq_illegalOpcode_iff w).mpr h)
  | reservedBits => exact ((reservedBitsSet_iff w).mp h).imp_right fun hctrl => .inl ⟨rfl, hctrl⟩
  | operandRange => exact .inr (.inr ⟨rfl, h⟩)

theorem failsFirst_unique {w : Cmd} {c c' : Cause} (h : failsFirst w c) (h' : failsFirst w c') : c = c' := by
  rcases failsFirst_cases h with hd | ⟨rfl, d, hd, -⟩ | ⟨rfl, i, hd, hi⟩
  · rcases failsFirst_cases h' with hd' | ⟨-, d', hd', -⟩ | ⟨-, i', hd', -⟩ <;> cases hd.symm.trans hd'
    rfl
  · rcases failsFirst_cases h' with hd' | ⟨rfl, -⟩ | ⟨-, i', hd', hi'⟩
    · cases hd.symm.trans hd'
    · rfl
    · cases hd.symm.trans hd'; exact hi'.elim
  · rcases failsFirst_cases h' with hd' | ⟨-, d', hd', -⟩ | ⟨rfl, -⟩
    · cases hd.symm.trans hd'
    · cases hd.symm.trans hd'; exact hi.elim
    · rfl

end Sys2Proof

namespace Sys2Proof.Machine

theorem takeCommand_of_failsFirst {w : Cmd} {c : Cause} (h : failsFirst w c) (s : State) :
    takeCommand w s = .next (Claims.recorded s (causeCode c) (opField w)) := by
  rcases failsFirst_cases h with hd | ⟨rfl, d, hd, hbits⟩ | ⟨rfl, i, hd, hrange⟩
  · exact takeCommand_of_error hd s
  · rw [takeCommand_of_ok hd, exec_ctrlWr_of_reserved hbits, ← opcode_of_decode hd]; rfl
  · rw [takeCommand_of_ok hd, exec_of_outOfRange hrange, opcode_of_decode hd]; rfl

theorem causeCode_injective : Function.Injective causeCode := by
  intro c c'
  cases c <;> cases c' <;> decide

/-- The code recorded is a check's own exactly where that check is the first to fail. -/
theorem causeCode_eq_iff_failsFirst {w : Cmd} {c : Cause} (h : failsFirst w c) (c' : Cause) :
    causeCode c = causeCode c' ↔ failsFirst w c' :=
  ⟨fun heq => causeCode_injective heq ▸ h, fun h' => congrArg causeCode (failsFirst_unique h h')⟩

/-! ### The obligation -/

/-- Settles O7: a rejected word has a first failing check, that check is unique, and taking the word records its code. -/
theorem rejectedWordChangesOnlyTheErrorRecord : Obligations.RejectedWordChangesOnlyTheErrorRecord := by
  intro w s hrej
  obtain ⟨c, hc⟩ := exists_failsFirst hrej
  refine ⟨causeCode c, causeCode_eq_iff_failsFirst hc .illegalOpcode, causeCode_eq_iff_failsFirst hc .reservedBits, ?_,
    takeCommand_of_failsFirst hc s⟩
  cases c with
  | illegalOpcode => exact .inl rfl
  | reservedBits => exact .inr (.inl rfl)
  | operandRange => exact .inr (.inr rfl)

end Sys2Proof.Machine
end

section
/-! The reset event (70_reset_and_hazards.md R390): the reset value of every slot of the two field sets, and of every
register. -/

namespace Sys2Proof.Machine

/-! ### The field sets at reset (10_state.md R47, R48) -/

@[simp] theorem TempSet.zero_get (f : Field) : TempSet.zero.get f = Vector.replicate f.len 0x00#8 := by
  cases f <;> rfl

@[simp] theorem FixSet.zero_get (f : Field) : FixSet.zero.get f = Vector.replicate (f.len + 1) 0x00#8 := by
  cases f <;> rfl

/-! ### What the reset event writes, and the ring storage it keeps -/

@[simp] theorem resetEvent_rx (s : State) : (resetEvent s).rx = { buf := s.rx.buf, head := 0, tail := 0, ovf := 0 } := rfl

@[simp] theorem resetEvent_tx (s : State) : (resetEvent s).tx = { buf := s.tx.buf, head := 0, tail := 0, ovf := 0 } := rfl

@[simp] theorem resetEvent_tmp (s : State) : (resetEvent s).tmp = TempSet.zero := rfl

@[simp] theorem resetEvent_fix (s : State) : (resetEvent s).fix = FixSet.zero := rfl

/-! ### The obligation -/

/-- Settles O13: the event's state holds each reset value as its own field, but for the two field sets, which hold theirs
slot by slot (`TempSet.zero_get`, `FixSet.zero_get`). -/
theorem resetEventRestoresTheResetValues : Obligations.ResetEventRestoresTheResetValues := by
  intro s
  have htmp (f : Field) (k : Nat) (h : k < f.len) : ((resetEvent s).tmp.get f)[k] = 0 := by simp
  have hfix (f : Field) (k : Nat) (h : k < f.len + 1) : ((resetEvent s).fix.get f)[k] = 0 := by simp
  refine ⟨resetEvent s, rfl, ?_⟩
  rw [resetEvent_rx, resetEvent_tx]
  exact ⟨rfl, rfl, rfl, rfl, rfl, rfl, rfl, rfl, rfl, rfl, rfl, rfl, htmp, hfix,
    rfl, rfl, rfl, rfl, rfl, rfl, rfl, rfl, rfl, rfl, rfl, rfl, rfl, rfl, rfl, rfl, rfl, rfl, rfl, rfl, rfl⟩

end Sys2Proof.Machine
end

section
/-! The decoder and the encoder are inverse to each other (30_encoding.md R100 to R105), and the worked encodings of R111. -/

namespace Sys2Proof

/-! ### The word of a command, by format (R101) -/

theorem decode_bareCommand {op : Byte} {i : Instr} (h : formOf op = some (.n i)) : decode (cmdWord op 0x0000#16) = .ok i := by
  rw [decode_of_formN (i := i) (by simpa using h), immField_word]; rfl

theorem decode_halfCommand {op : Byte} {mk : Half → Instr} (h : formOf op = some (.w mk)) (v : Half) :
    decode (cmdWord op v) = .ok (mk v) := by
  rw [decode_of_formW (mk := mk) (by simpa using h), immField_word]

theorem decode_encode (i : Instr) : decode (encode i) = .ok i := by
  cases i with
  | nop | statRd | errRd | errClr | crcInit | crcRd | crcFcs | frmEnd | ctrlRd | rxPoll | rxPollFeed | ovfRd | ovfClr
  | nmeaCommit | curRd => exact decode_bareCommand rfl
  | crcBit d | crcByte d | frmByte d | ctrlWr d | txEnq d | ringRd d | nmeaFeed d => exact decode_byteCommand rfl d
  | crcWr w | frmStart w | wait w => exact decode_halfCommand rfl w
  | fixRd f k | tmpRd f k => exact decode_fieldCommand rfl f k

/-- A table row's word of 24 bits is the command word itself. -/
theorem tableWord_toNat (w : Cmd) : BitVec.ofNat 24 (w.toNat % 2 ^ 24) = w := by
  rw [Nat.mod_eq_of_lt w.isLt, BitVec.ofNat_toNat, BitVec.setWidth_eq]

theorem decodeTableWord_toNat (w : Cmd) : decodeTableWord 24 w.toNat = (decode w).toOption := by
  rw [decodeTableWord, if_neg (by decide), tableWord_toNat]

/-! ### The operand field of a decoded command (R101) -/

/-- Every command the form makes of its operands has those operands in its operand field. -/
def Form.hasImm : Form → Prop
  | .n i => i.imm = 0x0000#16
  | .b mk => ∀ d, (mk d).imm = pair 0x00#8 d
  | .w mk => ∀ v, (mk v).imm = v
  | .f mk => ∀ f k, (mk f k).imm = pair f k

theorem formOf_hasImm {op : Byte} {fm : Form} (h : formOf op = some fm) : fm.hasImm := by
  unfold formOf at h
  split at h
  case h_28 => cases h
  all_goals
    cases h
    simp [Form.hasImm, Instr.imm]

theorem imm_of_decode {w : Cmd} {i : Instr} (h : decode w = .ok i) : i.imm = immField w := by
  cases hf : formOf (opField w) with
  | none => rw [decode_of_formOf_none hf] at h; cases h
  | some fm =>
    have himm := formOf_hasImm hf
    cases fm with
    | n j =>
      rw [decode_of_formN hf] at h
      split at h <;> cases h
      rename_i hzero
      exact himm.trans hzero.symm
    | b mk =>
      rw [decode_of_formB hf] at h
      split at h <;> cases h
      rename_i hhigh
      rw [himm, ← imm_parts, hhigh]; rfl
    | w mk => rw [decode_of_formW hf] at h; cases h; exact himm _
    | f mk => rw [decode_of_formF hf] at h; cases h; rw [himm, imm_parts]

end Sys2Proof

namespace Sys2Proof.Machine

/-! ### The obligations -/

/-- Settles O1: format by format, the decoder takes apart what the encoder put together. -/
theorem encodedCommandDecodesToItself : Obligations.EncodedCommandDecodesToItself := by
  refine fun i => ⟨decode_encode i, ?_⟩
  rw [decodeTableWord_toNat, decode_encode]; rfl

/-- Settles O2: a decoded command has the word's opcode byte and its operand field, and a word is no more than those. -/
theorem acceptedWordEncodesItsCommand : Obligations.AcceptedWordEncodesItsCommand := by
  intro w i h
  rw [encode, opcode_of_decode h, imm_of_decode h, word_parts]

/-- Settles O3: the accepted words by evaluation; of the three errors the decoder finds the first two, the command the last. -/
theorem workedEncodingsRead : Obligations.WorkedEncodingsRead := by
  refine ⟨rfl, rfl, rfl, rfl, rfl, rfl, rfl, rfl, fun s hs => ?_⟩
  have hrecorded (code op : Byte) :
      Claims.recorded s code op = { s with err := true, errCause := code, errOp := op } := if_neg (by simp [hs])
  refine ⟨?opcode, ?reserved, ?range⟩
  case opcode => rw [takeCommand_of_error (c := .illegalOpcode) rfl, hrecorded]; rfl
  case reserved => rw [takeCommand_of_error (c := .reservedBits) rfl, hrecorded]; rfl
  case range =>
    rw [takeCommand_of_ok (i := .crcBit 2#8) rfl, exec_of_outOfRange (i := .crcBit 2#8) (show 1 < (2#8 : Byte).toNat by decide),
      hrecorded]; rfl

end Sys2Proof.Machine
end

section
/-! The CRC-16 generator: flipping bits of the accumulator and of the data together (42_crc.md R220, R221), and from it the
table form (R222), the residue (R224) and the command sequence (R223). -/

namespace Sys2Proof.Machine

/-! ### Bits flipped in the accumulator and in the data together -/

/-- A flip that the data bit repeats at the bottom of the accumulator only shifts through the recurrence. -/
theorem crcStep_xor (c e : Half) (bit : Bool) : crcStep (c ^^^ e) (bit ^^ e.getLsbD 0) = crcStep c bit ^^^ (e >>> 1) := by
  have htest : ((c ^^^ e).getLsbD 0 = (bit ^^ e.getLsbD 0)) ↔ (c.getLsbD 0 = bit) := by
    rw [BitVec.getLsbD_xor]
    exact Bool.xor_left_inj
  simp only [crcStep_eq_crcStepOf, Claims.crcStepOf, htest, BitVec.ushiftRight_xor_distrib]
  ac_rfl

theorem foldl_crcStep_xor (c e : Half) (d : Byte) (n : Nat) (hn : n ≤ 8) :
    (List.range n).foldl (fun c k => crcStep c ((d ^^^ e.extractLsb' 0 8).getLsbD k)) (c ^^^ e) =
      (List.range n).foldl (fun c k => crcStep c (d.getLsbD k)) c ^^^ (e >>> n) := by
  induction n with
  | zero => simp
  | succ n ih =>
    have hbit : (d ^^^ e.extractLsb' 0 8).getLsbD n = (d.getLsbD n ^^ (e >>> n).getLsbD 0) := by
      simp [show n < 8 by omega]
    rw [List.range_succ, List.foldl_append, List.foldl_append, ih (by omega)]
    simp only [List.foldl_cons, List.foldl_nil]
    rw [hbit, crcStep_xor, ← BitVec.shiftRight_add]

theorem crcByte_xor (c e : Half) (d : Byte) : crcByte (c ^^^ e) (d ^^^ e.extractLsb' 0 8) = crcByte c d ^^^ (e >>> 8) :=
  foldl_crcStep_xor c e d 8 le_rfl

/-- The same over two bytes: a flip of the whole accumulator that both bytes repeat is shifted out. -/
theorem crcBytes_xor_pair (c e : Half) :
    crcBytes (c ^^^ e) [e.extractLsb' 0 8, e.extractLsb' 8 8] = crcBytes c [0x00#8, 0x00#8] := by
  have hhigh : e.extractLsb' 8 8 = 0x00#8 ^^^ (e >>> 8).extractLsb' 0 8 := by
    rw [BitVec.zero_xor]
    apply BitVec.eq_of_getLsbD_eq
    intro k hk
    simp [hk]
  have hlow : crcByte (c ^^^ e) (e.extractLsb' 0 8) = crcByte c 0x00#8 ^^^ (e >>> 8) := by
    simpa using crcByte_xor c e 0x00#8
  have hgone : e >>> 8 >>> 8 = 0#16 := by
    rw [← BitVec.shiftRight_add]
    exact BitVec.ushiftRight_eq_zero (by decide)
  calc crcBytes (c ^^^ e) [e.extractLsb' 0 8, e.extractLsb' 8 8]
    _ = crcByte (crcByte c 0x00#8 ^^^ (e >>> 8)) (0x00#8 ^^^ (e >>> 8).extractLsb' 0 8) := by
      simp only [crcBytes, List.foldl_cons, List.foldl_nil, hlow, hhigh]
    _ = crcByte (crcByte c 0x00#8) 0x00#8 := by rw [crcByte_xor, hgone, BitVec.xor_zero]

theorem crcBytes_append (c : Half) (m m' : List Byte) : crcBytes c (m ++ m') = crcBytes (crcBytes c m) m' :=
  List.foldl_append

/-! ### The commands -/

/-- The CRC_BYTE commands of a message, before any others (R223). -/
theorem execAll_crcStr_append (m : List Byte) (is : List Instr) (s : State) :
    execAll (crcStr m ++ is) s = execAll is { s with crc := crcBytes s.crc m } := by
  induction m generalizing s with
  | nil => rfl
  | cons d m ih => exact ih { s with crc := crcByte s.crc d }

/-! ### The obligations -/

/-- Settles O20: with the flip the accumulator itself, the recurrence starts from 0 on the byte that is left. -/
theorem crcByteEqualsTableForm : Obligations.CrcByteEqualsTableForm := by
  refine ⟨fun c d => ?_, by decide, by decide, by decide, by decide, by decide, by decide⟩
  have hbyte : ((c ^^^ d.zeroExtend 16) &&& 0xFF#16).truncate 8 = d ^^^ c.extractLsb' 0 8 := by
    apply BitVec.eq_of_getLsbD_eq
    intro k hk
    interval_cases k <;> simp [Bool.xor_comm]
  have hself := crcByte_xor c c d
  rw [BitVec.xor_self] at hself
  rw [hbyte, hself, BitVec.xor_comm (c >>> 8), BitVec.xor_assoc, BitVec.xor_self, BitVec.xor_zero]

/-- Settles O21: the FCS is the flip that takes the message's accumulator to 0xFFFF, so the two bytes leave what two zero
bytes leave from 0xFFFF. -/
theorem fcsResidueIsConstant : Obligations.FcsResidueIsConstant := by
  intro m
  have hflip : crcBytes 0xFFFF#16 m = 0xFFFF#16 ^^^ fcs m := by
    rw [fcs, Config.crcXorOut, BitVec.xor_comm (crcBytes _ m), ← BitVec.xor_assoc, BitVec.xor_self, BitVec.zero_xor]
    rfl
  rw [crcBytes_append, hflip, crcBytes_xor_pair]
  decide +kernel

/-- Settles O22: the CRC_BYTE commands fold the message; the check values by evaluation. -/
theorem crcCommandSequenceComputesTheFcs : Obligations.CrcCommandSequenceComputesTheFcs := by
  refine ⟨fun m s => ?_, fun m => rfl, by decide +kernel, by decide +kernel⟩
  exact execAll_crcStr_append m [.crcFcs] { s with crc := Config.crcInit }

end Sys2Proof.Machine
end

section
/-! The invariant of every reachable state (10_state.md R69): it holds after reset (70_reset_and_hazards.md R390), every
command and every agent's step keep it, and a state that meets it never stops (60_exceptions.md R363). -/

namespace Sys2Proof.Machine

/-! ### After reset -/

theorem tickCount_ne_zero (k : Fin 65535) : Config.tickCount k ≠ 0#16 := by
  have hk := k.isLt
  rw [Config.tickCount, ne_eq, ← BitVec.toNat_inj, BitVec.toNat_ofNat, BitVec.toNat_ofNat]
  omega

/-- The block's own parameters meet the constraints of 00_scope.md R6, whatever the opaque constants are. -/
theorem params_legal : Config.params.legal = true := by
  have htick : 0 < Config.params.fTick :=
    div_pos (Nat.cast_pos.mpr (Nat.succ_pos _)) (Nat.cast_pos.mpr (Nat.succ_pos _))
  simp only [Config.Params.legal, htick, Bool.and_eq_true, decide_eq_true_eq]
  exact ⟨⟨⟨⟨trivial, tickCount_ne_zero _⟩, tickCount_ne_zero _⟩, tickCount_ne_zero _⟩, tickCount_ne_zero _⟩

theorem State.powerOn_inv {p : Config.Params} (h : p.legal = true) : (State.powerOn p).Inv where
  cfg_legal := h
  ones_le := by simp [State.powerOn]
  ones_stuff := by simp [State.powerOn]
  stuff_job := nofun
  crcEn_byte := nofun
  job_busy := by simp [State.powerOn]
  dl_idle := fun _ => rfl
  tx_idle := fun _ => rfl
  fix_end := fun f => by cases f <;> rfl
  ctrl_reserved := by simp [State.powerOn]
  err_clear := fun _ => ⟨rfl, rfl⟩
  err_cause := nofun

theorem resetEvent_inv {s : State} (h : s.Inv) : (resetEvent s).Inv :=
  { State.powerOn_inv h.cfg_legal with tx_idle := fun _ => rfl }

/-! ### What the invariant says of the block between commands and inside a job -/

theorem State.Inv.idle_stuff {s : State} (h : s.Inv) (hb : s.busy = false) : s.encStuff = false := by
  by_contra hstuff
  have hjob := h.stuff_job (by simpa using hstuff)
  rw [h.job_busy.mpr hb] at hjob
  cases hjob

theorem State.Inv.ones_ne_five {s : State} (h : s.Inv) (hstuff : s.encStuff = false) : s.ones ≠ 5#3 :=
  fun hones => by simp [h.ones_stuff.mp hones] at hstuff

theorem State.Inv.ones_le_four {s : State} (h : s.Inv) (hstuff : s.encStuff = false) : s.ones.toNat ≤ 4 := by
  have hne : s.ones.toNat ≠ 5 := fun he => h.ones_ne_five hstuff (BitVec.eq_of_toNat_eq he)
  have hle := h.ones_le
  omega

/-! ### The shared operations keep it -/

theorem State.Inv.turnTaken {s : State} (h : s.Inv) : s.turnTaken.Inv := { h with }

theorem State.Inv.withCmds {s : State} (h : s.Inv) (ws : List Cmd) : ({ s with cmds := ws } : State).Inv := { h with }

theorem State.Inv.setRes {s : State} (h : s.Inv) (v : Half) : (s.setRes v).Inv := { h with }

theorem State.Inv.withRx {s : State} (h : s.Inv) (r : Ring) : ({ s with rx := r } : State).Inv := { h with }

theorem State.Inv.withCrc {s : State} (h : s.Inv) (c : Half) : ({ s with crc := c } : State).Inv := { h with }

theorem causeCode_mem (c : Cause) : causeCode c = 0x01#8 ∨ causeCode c = 0x02#8 ∨ causeCode c = 0x03#8 := by
  cases c <;> decide

theorem State.Inv.raiseCmdError {s : State} (h : s.Inv) (c : Cause) (op : Byte) : (s.raiseCmdError c op).Inv := by
  cases herr : s.err with
  | true => rwa [s.raiseCmdError_of_err c op herr]
  | false =>
    rw [s.raiseCmdError_of_clear c op herr]
    exact { h with err_clear := nofun, err_cause := fun _ => causeCode_mem c }

/-- Everything one character leaves alone (41_position_decoder.md R182). -/
theorem State.feed_eq (s : State) (b : Byte) :
    s.feed b =
      { s with
        stype := (s.feed b).stype, comma := (s.feed b).comma, cidx := (s.feed b).cidx, tmp := (s.feed b).tmp } := by
  unfold State.feed State.storeChar
  repeat' split
  all_goals rfl

theorem State.Inv.feed {s : State} (h : s.Inv) (b : Byte) : (s.feed b).Inv := by
  rw [s.feed_eq b]
  exact { h with }

theorem State.Inv.commit {s : State} (h : s.Inv) : s.commit.Inv := { h with fix_end := s.tmp.commit_end }

theorem State.Inv.withSampler {s : State} (h : s.Inv) {c : Byte} (hc : c.extractLsb' 6 2 = 0#2) (n : Half) :
    ({ s with ctrl := c, smpCount := n } : State).Inv := { h with ctrl_reserved := hc }

/-- The bits of `CTRL` that read as 0 are none that the encoder writes (10_state.md R58). -/
theorem State.Inv.setBit_reserved {s : State} (h : s.Inv) (k : Nat) (v : Bool) (hk : k < 6) :
    (setBit s.ctrl k v).extractLsb' 6 2 = 0#2 :=
  (setBit_high s.ctrl k v 6 2 hk (by decide)).trans h.ctrl_reserved

theorem State.Inv.setTone {s : State} (h : s.Inv) (v : Bool) : (s.setTone v).Inv :=
  { h with ctrl_reserved := h.setBit_reserved 1 v (by decide) }

theorem State.Inv.setTxen {s : State} (h : s.Inv) (v : Bool) : (s.setTxen v).Inv :=
  { h with ctrl_reserved := h.setBit_reserved 0 v (by decide) }

theorem State.Inv.setPtt {s : State} (h : s.Inv) (v : Bool) : (s.setPtt v).Inv :=
  { h with ctrl_reserved := h.setBit_reserved 2 v (by decide) }

/-! ### The commands keep it -/

theorem execCrcBit_inv {d : Byte} {s t : State} (hs : s.Inv) (h : execCrcBit d s = .next t) : t.Inv := by
  unfold execCrcBit at h
  split at h <;> cases h
  · exact hs.withCrc _
  · exact hs.raiseCmdError _ _

theorem execRingRd_inv {d : Byte} {s t : State} (hs : s.Inv) (h : execRingRd d s = .next t) : t.Inv := by
  unfold execRingRd at h
  split at h <;> cases h
  · exact hs.setRes _
  · exact hs.setRes _
  · exact hs.raiseCmdError _ _

theorem execFixRd_inv {f k : Byte} {s t : State} (hs : s.Inv) (h : execFixRd f k s = .next t) : t.Inv := by
  unfold execFixRd at h
  split at h <;> cases h
  · exact hs.setRes _
  · exact hs.raiseCmdError _ _

theorem execTmpRd_inv {f k : Byte} {s t : State} (hs : s.Inv) (h : execTmpRd f k s = .next t) : t.Inv := by
  unfold execTmpRd at h
  split at h <;> cases h
  · exact hs.setRes _
  · exact hs.raiseCmdError _ _

theorem execRxPoll_inv {s t : State} (hs : s.Inv) (h : execRxPoll s = .next t) : t.Inv := by
  unfold execRxPoll at h
  split at h <;> cases h
  · exact (hs.withRx _).setRes _
  · exact hs.setRes _

theorem execRxPollFeed_inv {s t : State} (hs : s.Inv) (h : execRxPollFeed s = .next t) : t.Inv := by
  unfold execRxPollFeed at h
  split at h <;> cases h
  · exact ((hs.withRx _).setRes _).feed _
  · exact hs.setRes _

theorem exec_ctrlWr_inv {d : Byte} {s t : State} (hs : s.Inv) (h : exec (.ctrlWr d) s = .next t) : t.Inv := by
  by_cases hd : d.extractLsb' 6 2 = 0#2
  · rw [exec_ctrlWr_of_ok hd] at h
    cases h
    exact hs.withSampler hd _
  · rw [exec_ctrlWr_of_reserved hd] at h
    cases h
    exact hs.raiseCmdError .reservedBits 0x31#8

/-- After `prime` an idle transmitter has an empty ring (40_serial_link.md R146, R147). -/
theorem State.prime_idle (s : State) (h : s.prime.txAct = false) : s.prime.tx.head = s.prime.tx.tail := by
  cases ha : s.txAct with
  | true => rw [s.prime_of_active ha, ha] at h; cases h
  | false =>
    cases hp : s.tx.pop with
    | none => rw [s.prime_of_empty hp]; exact s.tx.pop_eq_none_iff.mp hp
    | some vr => rw [s.prime_of_pop vr.1 vr.2 ha hp] at h; cases h

/-- Everything `prime` leaves alone (R146). -/
theorem State.prime_eq (s : State) :
    s.prime = { s with tx := s.prime.tx, txAct := s.prime.txAct, txTrace := s.prime.txTrace } := by
  unfold State.prime
  repeat' split
  all_goals rfl

theorem exec_txEnq_inv {d : Byte} {s t : State} (hs : s.Inv) (h : exec (.txEnq d) s = .next t) : t.Inv := by
  cases h
  have hidle := State.prime_idle { s with tx := s.tx.push s.txovm d }
  rw [State.prime_eq]
  exact { hs with tx_idle := hidle }

theorem exec_frmStart_inv {w : Half} {s t : State} (hs : s.Inv) (h : exec (.frmStart w) s = .next t) : t.Inv := by
  obtain ⟨-, hctrl, -⟩ := execFrmStart_sampler h
  have hreserved : t.ctrl.extractLsb' 6 2 = 0#2 := by
    rw [hctrl]; exact (((hs.setTone false).setTxen true).setPtt true).ctrl_reserved
  simp only [exec, execFrmStart] at h
  split at h <;> cases h <;>
    exact { hs with
      ones_le := by simp
      ones_stuff := by simp
      stuff_job := nofun
      job_busy := by simp
      dl_idle := nofun
      ctrl_reserved := hreserved }

section
variable {s t : State} (hs : s.Inv) (hb : s.busy = false)
include hs hb

theorem exec_frmByte_inv {d : Byte} (h : exec (.frmByte d) s = .next t) : t.Inv := by
  have hones := hs.ones_ne_five (hs.idle_stuff hb)
  cases h
  exact { hs with
    ones_stuff := by simpa using hones
    stuff_job := nofun
    crcEn_byte := by simp [isFlag]
    job_busy := by simp
    dl_idle := nofun }

theorem exec_frmEnd_inv (h : exec .frmEnd s = .next t) : t.Inv := by
  have hones := hs.ones_ne_five (hs.idle_stuff hb)
  cases h
  exact { hs with
    ones_stuff := by simpa using hones
    stuff_job := nofun
    job_busy := by simp
    dl_idle := nofun }

theorem exec_wait_inv {w : Half} (h : exec (.wait w) s = .next t) : t.Inv := by
  have hstuff := hs.idle_stuff hb
  cases h
  exact { hs with
    stuff_job := fun hon => by simp [hstuff] at hon
    job_busy := by simp
    dl_idle := nofun }

theorem exec_inv {i : Instr} (h : exec i s = .next t) : t.Inv := by
  cases i with
  | nop => cases h; exact hs
  | statRd | errRd | crcRd | crcFcs | ctrlRd | ovfRd | curRd => cases h; exact hs.setRes _
  | crcInit | crcByte _ | crcWr _ => cases h; exact hs.withCrc _
  | errClr => cases h; exact { hs with err_clear := fun _ => ⟨rfl, rfl⟩, err_cause := nofun }
  | crcBit _ => exact execCrcBit_inv hs h
  | frmStart _ => exact exec_frmStart_inv hs h
  | frmByte _ => exact exec_frmByte_inv hs hb h
  | frmEnd => exact exec_frmEnd_inv hs hb h
  | wait _ => exact exec_wait_inv hs hb h
  | ctrlWr _ => exact exec_ctrlWr_inv hs h
  | rxPoll => exact execRxPoll_inv hs h
  | rxPollFeed => exact execRxPollFeed_inv hs h
  | txEnq _ => exact exec_txEnq_inv hs h
  | ovfClr => cases h; exact { hs with }
  | ringRd _ => exact execRingRd_inv hs h
  | nmeaFeed d => cases h; exact hs.feed d
  | nmeaCommit => cases h; exact hs.commit
  | fixRd _ _ => exact execFixRd_inv hs h
  | tmpRd _ _ => exact execTmpRd_inv hs h

end

/-! ### The agents keep it -/

section
variable {s : State} (hs : s.Inv)
include hs

/-- The line bit of a data bit raises `ONES` by at most one, and a stuffed zero falls due where it reaches 5 (R253). -/
theorem State.Inv.sendDataBit (hstuff : s.encStuff = false) (hjob : s.encJob.sendsBits = true) : s.sendDataBit.Inv := by
  have hfour := hs.ones_le_four hstuff
  have hsucc : (s.ones + 1#3).toNat = s.ones.toNat + 1 := by
    rw [BitVec.toNat_add, BitVec.toNat_ofNat]; omega
  have hones : s.sendDataBit.ones.toNat ≤ 5 := by
    rw [s.sendDataBit_ones]
    repeat' split
    · simp
    · omega
    · simp
  have hdue : s.sendDataBit.ones = 5#3 ↔ s.sendDataBit.encStuff = true := by
    rw [s.sendDataBit_encStuff, hstuff]
    cases hflag : isFlag s.encByte with
    | true => rw [s.sendDataBit_ones, hflag]; split <;> simp
    | false => simp
  have hreserved : s.sendDataBit.ctrl.extractLsb' 6 2 = 0#2 := by
    rw [s.sendDataBit_ctrl]
    split
    · exact hs.ctrl_reserved
    · exact hs.setBit_reserved 1 _ (by decide)
  have hidle (hb : s.busy = false) : true = false := by
    rw [hs.job_busy.mpr hb] at hjob; cases hjob
  rw [s.sendDataBit_eq]
  exact { hs with
    ones_le := hones
    ones_stuff := hdue
    stuff_job := fun _ => hjob
    dl_idle := hidle
    ctrl_reserved := hreserved }

theorem State.Inv.sendStuffedZero (hjob : s.encJob.sendsBits = true) : s.sendStuffedZero.Inv := by
  have hidle (hb : s.busy = false) : true = false := by
    rw [hs.job_busy.mpr hb] at hjob; cases hjob
  rw [s.sendStuffedZero_eq]
  exact { hs with
    ones_le := by simp
    ones_stuff := by simp
    stuff_job := nofun
    dl_idle := hidle
    ctrl_reserved := hs.setBit_reserved 1 _ (by decide) }

theorem State.Inv.nextByte {u : State} (hu : s.nextByte = some u) : u.Inv := by
  rw [(s.nextByte_some u hu).1]
  exact { hs with crcEn_byte := nofun }

theorem State.Inv.goIdle (hstuff : s.encStuff = false) (hd : s.dlFlag = false) :
    ({ s with encJob := .none, busy := false } : State).Inv :=
  { hs with
    stuff_job := fun hon => by simp [hstuff] at hon
    job_busy := by simp
    dl_idle := fun _ => hd }

theorem State.Inv.finish (hstuff : s.encStuff = false) (hd : s.dlFlag = false) : s.finish.Inv := by
  by_cases hj : s.encJob = .frameEnd
  · rw [State.finish_of_frameEnd hj]
    exact { ((hs.setTxen false).setPtt false).goIdle hstuff hd with }
  · rw [State.finish_of_ne_frameEnd hj]
    exact hs.goIdle hstuff hd

theorem encStep_inv {t : State} (hjob : s.encJob.sendsBits = true) (hd : s.dlFlag = false)
    (h : encStep s = .next t) : t.Inv := by
  rcases (encStep_next_cases s t h).2 with ⟨-, rfl⟩ | ⟨hstuff, -, rfl⟩ | ⟨hstuff, -, u, hu, rfl⟩ | ⟨hstuff, -, -, rfl⟩
  · exact hs.sendStuffedZero hjob
  · exact hs.sendDataBit hstuff hjob
  · have hload := (s.nextByte_some u hu).1
    refine (hs.nextByte hu).sendDataBit ?_ ?_
    · rw [hload]; exact hstuff
    · rw [hload]; exact hjob
  · exact hs.finish hstuff hd

theorem endOfWait_inv (hjob : s.encJob = .wait) (hd : s.dlFlag = false) : (endOfWait s).Inv := by
  refine hs.goIdle ?_ hd
  by_contra hstuff
  have hsends := hs.stuff_job (by simpa using hstuff)
  rw [hjob] at hsends
  cases hsends

theorem feederStep_inv : (feederStep s).Inv := by
  rcases feederStep_cases s with e | ⟨-, -, b, r, -, e⟩
  · rwa [e]
  · rw [e]; exact (hs.withRx r).feed b

theorem txEmptyEvent_inv : (txEmptyEvent s).Inv := by
  rcases txEmptyEvent_cases s with e | ⟨-, hempty, e⟩ | ⟨ha, v, r, -, e⟩
  · rwa [e]
  · rw [e]; exact { hs with tx_idle := fun _ => hempty }
  · rw [e]; exact { hs with tx_idle := fun hoff => absurd (ha.symm.trans hoff) (by decide) }

theorem tickEvent_inv : (tickEvent s).Inv := by
  have hidle (hb : s.busy = false) : (tickEvent s).dlFlag = false := tickEvent_dlFlag_of_clear (hs.dl_idle hb)
  rw [tickEvent_eq]
  exact { hs with dl_idle := hidle }

theorem step_inv {t : State} (h : step s = .next t) : t.Inv := by
  have hturn := hs.turnTaken
  rcases step_cases s t h with ⟨-, rfl⟩ | ⟨-, hb, w, ws, i, -, -, -, he⟩ | ⟨-, -, w, ws, c, -, -, rfl⟩ | ⟨-, rfl⟩ |
    ⟨-, -, hd, hjob, he⟩ | ⟨-, -, hd, hjob, rfl⟩ | ⟨-, rfl⟩ | ⟨b, -, rfl⟩ | ⟨-, rfl⟩ | ⟨-, rfl⟩ | ⟨-, rfl⟩
  · exact hturn
  · exact exec_inv (hturn.withCmds ws) hb he
  · exact (hturn.withCmds ws).raiseCmdError c _
  · exact hturn
  · exact encStep_inv hturn hjob hd he
  · exact endOfWait_inv hturn hjob hd
  · exact feederStep_inv hturn
  · exact hturn.withRx _
  · exact txEmptyEvent_inv hturn
  · exact tickEvent_inv hturn
  · exact resetEvent_inv hturn

end

/-! ### Every reachable state meets it -/

theorem steps_inv {n : Nat} {s t : State} (hs : s.Inv) (h : steps n s = .next t) : t.Inv := by
  induction n generalizing s with
  | zero => cases h; exact hs
  | succ n ih =>
    rw [steps] at h
    split at h
    · rename_i u hu; exact ih (step_inv hs hu) h
    · cases h
    · cases h

theorem State.Reachable.inv {s : State} (h : s.Reachable) : s.Inv := by
  obtain ⟨cmds, agenda, n, hn⟩ := h
  have hstart : ({ State.reset with cmds := cmds, agenda := agenda } : State).Inv :=
    { State.powerOn_inv params_legal with }
  exact steps_inv hstart hn

/-! ### No state stops but the sequencer's at `ONES > 5` -/

theorem exec_next (i : Instr) (s : State) : ∃ t, exec i s = .next t := by
  cases i with
  | ctrlWr _ | crcBit _ | ringRd _ | fixRd _ _ | tmpRd _ _ | rxPoll | rxPollFeed =>
    simp only [exec, execCtrlWr, execCrcBit, execRingRd, execFixRd, execTmpRd, execRxPoll, execRxPollFeed]
    split <;> exact ⟨_, rfl⟩
  | _ => exact ⟨_, rfl⟩

theorem takeCommand_next (w : Cmd) (s : State) : ∃ t, takeCommand w s = .next t := by
  cases hd : decode w with
  | ok i => rw [takeCommand_of_ok hd]; exact exec_next i s
  | error c => exact ⟨_, takeCommand_of_error hd s⟩

theorem controllerMove_next (s : State) : ∃ t, controllerMove s = .next t := by
  cases hb : s.busy with
  | true => exact ⟨s, controllerMove_busy s hb⟩
  | false =>
    cases hc : s.cmds with
    | nil => exact ⟨s, controllerMove_no_word s hc⟩
    | cons w ws => rw [controllerMove_takes s w ws hb hc]; exact takeCommand_next w _

theorem encStep_of_ones_gt {s : State} (h : 5 < s.ones.toNat) : encStep s = .fault .onesOutOfRange := by
  rw [encStep, if_pos h]

/-- The sequencer's turn goes on, or it is an encoder step at `ONES > 5` (60_exceptions.md R363, log 8). -/
theorem sequencerMove_next_or_fault (s : State) :
    (∃ t, sequencerMove s = .next t) ∨ (5 < s.ones.toNat ∧ sequencerMove s = .fault .onesOutOfRange) := by
  have hcode : (∃ t, encStep s = .next t) ∨ (5 < s.ones.toNat ∧ encStep s = .fault .onesOutOfRange) := by
    by_cases h : 5 < s.ones.toNat
    · exact .inr ⟨h, encStep_of_ones_gt h⟩
    · exact .inl (encStep_next_of_ones s (by omega))
  unfold sequencerMove
  split
  · cases s.encJob with
    | flags | byte | frameEnd => exact hcode
    | none | wait => exact .inl ⟨_, rfl⟩
  · exact .inl ⟨_, rfl⟩

theorem step_next_or_fault (s : State) :
    (∃ t, step s = .next t) ∨ (s.turn = .sequencer ∧ 5 < s.ones.toNat ∧ step s = .fault .onesOutOfRange) := by
  rw [step_eq]
  cases s.turn with
  | controller => exact .inl (controllerMove_next s.turnTaken)
  | sequencer => exact (sequencerMove_next_or_fault s.turnTaken).imp_right fun hf => ⟨rfl, hf⟩
  | feeder | rxByte _ | txEmpty | tick | reset => exact .inl ⟨_, rfl⟩

/-! ### The obligations -/

/-- Settles O14: the parameters are legal by construction, and every register stands at its reset value. -/
theorem resetMeetsTheInvariant : Obligations.ResetMeetsTheInvariant :=
  ⟨State.powerOn_inv params_legal, fun _ => State.powerOn_inv⟩

/-- Settles O15: agent by agent, and for a command taken by `exec_inv`. -/
theorem everyStepKeepsTheInvariant : Obligations.EveryStepKeepsTheInvariant :=
  fun _ _ hs h => step_inv hs h

/-- Settles O16: a reachable state meets `State.Inv`; the bounds on the indices and on `ENC_BIT` are their types'. -/
theorem reachableStatesMeetTheDerivedInvariants : Obligations.ReachableStatesMeetTheDerivedInvariants := by
  intro s hs
  have hinv := hs.inv
  exact ⟨hinv.ones_le, Fin.is_le _, Fin.is_le _, Fin.is_le _, Fin.is_le _, Fin.is_le _,
    fun hb => ⟨hinv.dl_idle hb, hinv.job_busy.mpr hb⟩, hinv.tx_idle, hinv.fix_end⟩

/-- Settles O17: the one stop there is needs `ONES > 5`, which the invariant excludes. -/
theorem invariantStatesNeverStop : Obligations.InvariantStatesNeverStop := by
  refine ⟨fun s hs => ?_, fun s hstop => (step_next_or_fault s).resolve_left fun ⟨t, ht⟩ => hstop t ht⟩
  exact (step_next_or_fault s).resolve_right fun ⟨_, hgt, _⟩ => absurd hs.ones_le (by omega)

/-- Settles O8: every command answers a next state, and one that passes its operand checks keeps the error record. -/
theorem wellFormedCommandCompletesWithoutError : Obligations.WellFormedCommandCompletesWithoutError := by
  intro i s hwf
  obtain ⟨t, ht⟩ := exec_next i s
  refine ⟨t, ht, fun hclr => ?_⟩
  have hpasses : ¬ (i.outOfRange ∨ ∃ d, i = .ctrlWr d ∧ d.extractLsb' 6 2 ≠ 0#2) := by
    rw [← wellFormed_eq_false_iff, hwf]; simp
  obtain ⟨hrange, hctrl⟩ := not_or.mp hpasses
  have hkept : ErrorKept s t := exec_errorKept hclr (fun d hd => by_contra fun hbits => hctrl ⟨d, hd, hbits⟩) hrange ht
  exact ⟨hkept.err, hkept.errCause, hkept.errOp⟩

end Sys2Proof.Machine
end

section
/-! The line coder (43_frame_encoder.md R250 to R256): a byte as the passes of its bits, what each pass adds to the line, and
from it the statements about the symbols (R273, R274), the receiver (R251 to R253) and the CRC (R254, R275). -/

namespace Sys2Proof.Machine

/-! ### A byte as its bits -/

theorem isFlag_eq_false_iff (d : Byte) : isFlag d = false ↔ d ≠ 0x7E#8 := by
  rw [isFlag, decide_eq_false_iff_not]; rfl

/-- The passes of `send_byte`'s loop over any bits, none of a flag byte. -/
def Line.sendBits (l : Line) (crcEn : Bool) (bits : List Bool) : Line :=
  bits.foldl (fun l bit => l.sendBit false crcEn bit) l

theorem Line.sendByte_eq_sendBits (l : Line) {d : Byte} (crcEn : Bool) (hd : d ≠ 0x7E#8) :
    l.sendByte d crcEn = l.sendBits crcEn (lineBits d) := by
  rw [Line.sendByte, (isFlag_eq_false_iff d).mpr hd, Line.sendBits, lineBits, List.foldl_map]

/-- A sequence of non-flag bytes is the sequence of their bits. -/
theorem Line.foldl_sendByte_eq_sendBits (l : Line) {m : List Byte} (crcEn : Bool) (hm : ∀ d ∈ m, d ≠ 0x7E#8) :
    m.foldl (fun l d => l.sendByte d crcEn) l = l.sendBits crcEn (m.flatMap lineBits) := by
  induction m generalizing l with
  | nil => rfl
  | cons d m ih =>
    obtain ⟨hd, hm⟩ := List.forall_mem_cons.mp hm
    rw [List.foldl_cons, ih _ hm, l.sendByte_eq_sendBits crcEn hd, List.flatMap_cons, Line.sendBits, Line.sendBits,
      Line.sendBits, List.foldl_append]

/-! ### One pass: a zero, a one, and the one that makes a stuffed zero due (R251 to R253) -/

/-- `CRC` after a pass. -/
def Line.crcAfter (l : Line) (crcEn bit : Bool) : Half := if crcEn then crcStep l.crc bit else l.crc

theorem Line.sendBit_zero (l : Line) (crcEn : Bool) :
    l.sendBit false crcEn false =
      { crc := l.crcAfter crcEn false, tone := !l.tone, ones := 0#3, symbols := l.symbols ++ [!l.tone] } := by
  cases crcEn <;> rfl

theorem Line.sendBit_one (l : Line) (crcEn : Bool) (h : l.ones.toNat ≤ 3) :
    l.sendBit false crcEn true =
      { crc := l.crcAfter crcEn true, tone := l.tone, ones := l.ones + 1#3, symbols := l.symbols ++ [l.tone] } := by
  have hne : l.ones + 1#3 ≠ 5#3 := by bv_omega
  cases crcEn <;> simp [Line.sendBit, Line.emit, Line.crcAfter, hne]

theorem Line.sendBit_stuffed (l : Line) (crcEn : Bool) (h : l.ones = 4#3) :
    l.sendBit false crcEn true =
      { crc := l.crcAfter crcEn true, tone := !l.tone, ones := 0#3, symbols := l.symbols ++ [l.tone, !l.tone] } := by
  cases crcEn <;> simp [Line.sendBit, Line.emit, Line.crcAfter, h]

/-- The symbols of data bits, a stuffed zero after every fifth one (R251, R253): `run` is the number of ones just before. -/
def stuffedSymbols (tone : Bool) (run : Nat) : List Bool → List Bool
  | [] => []
  | false :: bits => (!tone) :: stuffedSymbols (!tone) 0 bits
  | true :: bits =>
    if run = 4 then tone :: (!tone) :: stuffedSymbols (!tone) 0 bits else tone :: stuffedSymbols tone (run + 1) bits

theorem Line.sendBits_symbols (l : Line) (crcEn : Bool) (bits : List Bool) (h : l.ones.toNat ≤ 4) :
    (l.sendBits crcEn bits).symbols = l.symbols ++ stuffedSymbols l.tone l.ones.toNat bits := by
  induction bits generalizing l with
  | nil => simp [Line.sendBits, stuffedSymbols]
  | cons bit bits ih =>
    have hcons : l.sendBits crcEn (bit :: bits) = (l.sendBit false crcEn bit).sendBits crcEn bits := rfl
    rw [hcons]
    cases bit with
    | false =>
      rw [l.sendBit_zero, ih _ (by simp)]
      simp [stuffedSymbols]
    | true =>
      by_cases h4 : l.ones = 4#3
      · rw [l.sendBit_stuffed crcEn h4, ih _ (by simp)]
        simp [stuffedSymbols, h4]
      · have h3 : l.ones.toNat ≤ 3 := by bv_omega
        have hsucc : (l.ones + 1#3).toNat = l.ones.toNat + 1 := by bv_omega
        rw [l.sendBit_one crcEn h3, ih _ (by simp only [hsucc]; omega)]
        simp [stuffedSymbols, hsucc, show l.ones.toNat ≠ 4 by omega]

/-- What a sequence of non-flag bytes adds to the line. -/
theorem Line.foldl_sendByte_symbols (l : Line) {m : List Byte} (crcEn : Bool) (h : l.ones.toNat ≤ 4)
    (hm : ∀ d ∈ m, d ≠ 0x7E#8) :
    (m.foldl (fun l d => l.sendByte d crcEn) l).symbols =
      l.symbols ++ stuffedSymbols l.tone l.ones.toNat (m.flatMap lineBits) := by
  rw [l.foldl_sendByte_eq_sendBits crcEn hm, l.sendBits_symbols crcEn _ h]

/-! ### Runs of one tone (R273) -/

/-- A run of at most six periods before a change of tone makes no seven equal periods. -/
theorem replicate_append_no_seven {tone x : Bool} {k : Nat} {rest : List Bool} (hk : k ≤ 6)
    (h : List.replicate 7 x <:+: List.replicate k tone ++ (!tone) :: rest) :
    List.replicate 7 x <:+: (!tone) :: rest := by
  induction k with
  | zero => exact h
  | succ k ih =>
    rw [List.replicate_succ (n := k), List.cons_append, List.infix_cons_iff] at h
    refine h.elim (fun hpre => ?_) (ih (by omega))
    have hfirst : x = tone := by simpa using hpre.getElem (i := 0) (by simp)
    have hchange : x = !tone := by
      have hget := hpre.getElem (i := k + 1) (by simp; omega)
      simpa [-List.reduceReplicate, List.getElem_append_right] using hget
    rw [hfirst] at hchange
    cases tone <;> cases hchange

/-- After `run` ones the line has kept its tone for `run + 1` periods, which the symbols prolong to six at most. -/
theorem stuffedSymbols_no_seven (tone x : Bool) (run : Nat) (bits : List Bool) (hrun : run ≤ 4) :
    ¬ List.replicate 7 x <:+: List.replicate (run + 1) tone ++ stuffedSymbols tone run bits := by
  induction bits generalizing tone run with
  | nil =>
    intro h
    have hlen := h.length_le
    simp [stuffedSymbols] at hlen
    omega
  | cons bit bits ih =>
    have hprolong (symbols : List Bool) : List.replicate (run + 1) tone ++ tone :: symbols =
        List.replicate (run + 2) tone ++ symbols := by
      rw [List.replicate_succ' (n := run + 1), List.append_assoc]; rfl
    intro h
    cases bit with
    | false => exact ih (!tone) 0 (by omega) (replicate_append_no_seven (by omega) h)
    | true =>
      rw [stuffedSymbols] at h
      split at h
      · rw [hprolong] at h
        exact ih (!tone) 0 (by omega) (replicate_append_no_seven (by omega) h)
      · rw [hprolong] at h
        exact ih tone (run + 1) (by omega) h

/-! ### The receiver (R251 to R253) -/

theorem unstuff_zero {run : Nat} (hrun : run ≠ 5) (bits : List Bool) : unstuff run (false :: bits) = false :: unstuff 0 bits := by
  rw [unstuff, if_neg hrun]; rfl

theorem unstuff_one {run : Nat} (hrun : run ≠ 5) (bits : List Bool) :
    unstuff run (true :: bits) = true :: unstuff (run + 1) bits := by
  rw [unstuff, if_neg hrun]; rfl

theorem unstuff_dropped (bit : Bool) (bits : List Bool) : unstuff 5 (bit :: bits) = unstuff 0 bits := by
  rw [unstuff, if_pos rfl]

theorem nrziDecode_kept (tone : Bool) (symbols : List Bool) :
    nrziDecode tone (tone :: symbols) = true :: nrziDecode tone symbols := by
  simp [nrziDecode]

theorem nrziDecode_changed (tone : Bool) (symbols : List Bool) :
    nrziDecode tone ((!tone) :: symbols) = false :: nrziDecode (!tone) symbols := by
  simp [nrziDecode]

theorem unstuff_nrziDecode_stuffedSymbols (tone : Bool) (run : Nat) (bits : List Bool) (hrun : run ≤ 4) :
    unstuff run (nrziDecode tone (stuffedSymbols tone run bits)) = bits := by
  induction bits generalizing tone run with
  | nil => rfl
  | cons bit bits ih =>
    cases bit with
    | false => rw [stuffedSymbols, nrziDecode_changed, unstuff_zero (by omega), ih (!tone) 0 (by omega)]
    | true =>
      rw [stuffedSymbols]
      split
      · rename_i h4
        rw [nrziDecode_kept, nrziDecode_changed, unstuff_one (by omega), h4, unstuff_dropped, ih (!tone) 0 (by omega)]
      · rw [nrziDecode_kept, unstuff_one (by omega), ih tone (run + 1) (by omega)]

/-! ### The CRC (R254) -/

theorem Line.sendBit_crc (l : Line) (flag crcEn bit : Bool) : (l.sendBit flag crcEn bit).crc = l.crcAfter crcEn bit := by
  simp only [Line.sendBit, Line.crcAfter, Line.emit]
  repeat' split
  all_goals rfl

theorem Line.sendByte_crc (l : Line) (d : Byte) (crcEn : Bool) :
    (l.sendByte d crcEn).crc = if crcEn then crcByte l.crc d else l.crc := by
  simp only [Line.sendByte, List.foldl_cons, List.foldl_nil, Line.sendBit_crc, Line.crcAfter]
  cases crcEn <;> rfl

theorem Line.sendPayload_crc (l : Line) (m : List Byte) :
    (l.sendPayload m).crc = crcBytes l.crc (m.filter fun d => decide (d ≠ 0x7E#8)) := by
  induction m generalizing l with
  | nil => rfl
  | cons d m ih =>
    have hcons : l.sendPayload (d :: m) = (l.sendByte d (!isFlag d)).sendPayload m := rfl
    rw [hcons, ih, l.sendByte_crc]
    by_cases hd : d = 0x7E#8
    · rw [hd, List.filter_cons_of_neg (by simp)]; rfl
    · rw [(isFlag_eq_false_iff d).mpr hd, List.filter_cons_of_pos (by simpa using hd)]; rfl

theorem Line.sendRaw_crc (l : Line) (m : List Byte) : (l.sendRaw m).crc = l.crc := by
  induction m generalizing l with
  | nil => rfl
  | cons d m ih => exact (ih (l.sendByte d false)).trans (l.sendByte_crc d false)

theorem Line.frame_crc (l : Line) (w : Nat) (m : List Byte) :
    (l.frame w m).crc = fcs (m.filter fun d => decide (d ≠ 0x7E#8)) := by
  rw [Line.frame, Line.sendRaw_crc]
  simp only [Line.sendPayload_crc, Line.sendRaw_crc]
  rfl

/-! ### The obligations -/

/-- Settles O26: the six ones of a flag keep the tone and reset the run counter, its two zeros change the tone. -/
theorem flagByteSymbols : Obligations.FlagByteSymbols := by
  intro l
  have hzero (l : Line) : l.sendBit true false false =
      { l with tone := !l.tone, ones := 0, symbols := l.symbols ++ [!l.tone] } := rfl
  have hone (l : Line) : l.sendBit true false true = { l with ones := 0, symbols := l.symbols ++ [l.tone] } := rfl
  have hbits : l.sendByte 0x7E#8 false =
      [false, true, true, true, true, true, true, false].foldl (fun l bit => l.sendBit true false bit) l := rfl
  have hflag : isFlag 0x7E#8 = true := rfl
  refine ⟨?_, by simp only [Line.sendPayload, List.foldl_cons, List.foldl_nil, hflag, Bool.not_true]⟩
  rw [hbits]
  simp [hzero, hone]

/-- Settles O27: a run is at most six periods, since the line changes after a zero and after the fifth one. -/
theorem stuffedLineKeepsNoToneSevenPeriods : Obligations.StuffedLineKeepsNoToneSevenPeriods := by
  intro l m crcEn hones hm
  refine ⟨_, l.foldl_sendByte_symbols crcEn hones hm, fun pre post x hseven => ?_⟩
  refine stuffedSymbols_no_seven l.tone x l.ones.toNat (m.flatMap lineBits) hones ?_
  exact List.IsInfix.trans ⟨pre, post, hseven.symm⟩ (List.infix_append_of_infix_right (List.infix_refl _))

/-- Settles O28: bit by bit, the receiver undoes the coder. -/
theorem receiverRecoversTheBytesSent : Obligations.ReceiverRecoversTheBytesSent :=
  fun l m crcEn hones hm => ⟨_, l.foldl_sendByte_symbols crcEn hones hm,
    unstuff_nrziDecode_stuffedSymbols l.tone l.ones.toNat (m.flatMap lineBits) hones⟩

/-- Settles O29: a payload byte folds into `CRC` unless it is a flag byte, the bytes of FRM_START and FRM_END never do. -/
theorem frameFcsCoversTheNonFlagBytes : Obligations.FrameFcsCoversTheNonFlagBytes :=
  fun l m => ⟨l.sendPayload_crc m, fun w => l.frame_crc w m⟩

end Sys2Proof.Machine
end

section
/-! The frame commands' taking steps (43_frame_encoder.md R270 to R272), and the encoder steps of one byte as the passes of
`send_byte` (R256, R258). -/

namespace Sys2Proof.Machine

/-! ### The taking steps -/

/-- FRM_START: mark, the transmitter and PTT on, `SMP_COUNT` reloaded unless the transmitter was on (R270). -/
theorem exec_frmStart_eq (w : Half) (s : State) :
    exec (.frmStart w) s = .next { s with
      crc := 0xFFFF#16, ones := 0, ctrl := (((s.setTone false).setTxen true).setPtt true).ctrl
      smpCount := (if s.txen = true then s.smpCount else s.cfg.reloadMark), frmAct := true, encJob := .flags
      encFlagsLeft := w, encBit := 8, encStuff := false, busy := true } := by
  have htxen : s.txen = ({ s with crc := Config.crcInit, ones := 0#3 }.setTone false : State).txen :=
    (State.txen_setTone _ false).symm
  simp only [exec, execFrmStart]
  rw [htxen]
  split <;> rfl

theorem exec_frmByte_eq (d : Byte) (s : State) :
    exec (.frmByte d) s = .next { s with
      encJob := .byte, encByte := d, encCrcEn := decide (d ≠ 0x7E#8), encBit := 0, encStuff := false, busy := true } := by
  rw [exec, execFrmByte, isFlag, ← decide_not]; rfl

theorem exec_frmEnd_eq (s : State) :
    exec .frmEnd s = .next { s with
      crc := ~~~s.crc, encJob := .frameEnd, encEndStage := 0, encBit := 8, encStuff := false, busy := true } := by
  rw [exec, execFrmEnd, xor_crcXorOut]; rfl

/-! ### One encoder step on the line -/

/-- The part of a pass before a stuffed zero: one line bit (R251, R252, R254). -/
def Line.codeBit (l : Line) (flag crcEn bit : Bool) : Line :=
  let l1 : Line := if crcEn then { l with crc := crcStep l.crc bit } else l
  let l2 : Line :=
    if bit then { l1 with ones := if flag then 0#3 else l1.ones + 1#3 }
    else { l1 with tone := !l1.tone, ones := 0#3 }
  l2.emit

/-- A stuffed zero (R253). -/
def Line.stuffZero (l : Line) : Line := ({ l with tone := !l.tone, ones := 0#3 } : Line).emit

theorem Line.sendBit_eq (l : Line) (flag crcEn bit : Bool) :
    l.sendBit flag crcEn bit =
      if !flag && decide ((l.codeBit flag crcEn bit).ones = 5#3) then (l.codeBit flag crcEn bit).stuffZero
      else l.codeBit flag crcEn bit := rfl

theorem State.sendDataBit_line (s : State) :
    s.sendDataBit.line = s.line.codeBit (isFlag s.encByte) s.encCrcEn (s.encByte.getLsbD s.encBit.val) := by
  simp only [State.line, s.sendDataBit_crc, s.sendDataBit_tone, s.sendDataBit_ones, s.sendDataBit_lineTrace]
  cases s.encByte.getLsbD s.encBit.val <;> cases s.encCrcEn <;> rfl

theorem State.sendStuffedZero_line (s : State) : s.sendStuffedZero.line = s.line.stuffZero := by
  have htone : s.sendStuffedZero.tone = !s.tone := s.tone_setTone _
  rw [State.line, htone, s.sendStuffedZero_eq]; rfl

theorem bitPeriod_of_encStep {s t : State} (h : encStep s = .next t) : bitPeriod s = .next { t with dlFlag := false } := by
  rw [bitPeriod, h]

theorem encStep_of_stuff {s : State} (hones : s.ones.toNat ≤ 5) (hstuff : s.encStuff = true) :
    encStep s = .next s.sendStuffedZero := by
  rw [encStep, if_neg (by omega), if_pos hstuff]

theorem bitPeriods_one {s t : State} (h : bitPeriod s = .next t) : bitPeriods 1 s = .next t := by
  simp only [bitPeriods, h]

theorem bitPeriods_add {n m : Nat} {s t : State} (h : bitPeriods n s = .next t) : bitPeriods (n + m) s = bitPeriods m t := by
  induction n generalizing s with
  | zero => cases h; rw [Nat.zero_add]
  | succ n ih =>
    rw [Nat.succ_add]
    simp only [bitPeriods] at h ⊢
    split at h
    · exact ih h
    · cases h
    · cases h

/-! ### The encoder steps of some bits of a byte -/

/-- From `s`, `n` bit periods send the bits of `ENC_BYTE` whose numbers are `bits`, stuffed zeros and all, and lead to `t`. -/
structure SendsBits (s t : State) (n : Nat) (bits : List Nat) : Prop where
  run : bitPeriods n s = .next t
  line : t.line = bits.foldl (fun l k => l.sendBit (isFlag s.encByte) s.encCrcEn (s.encByte.getLsbD k)) s.line
  bit : t.encBit.val = s.encBit.val + bits.length
  ones_le : t.ones.toNat ≤ 4
  kept : t = { s with crc := t.crc, ctrl := t.ctrl, ones := t.ones, encBit := t.encBit, dlFlag := false,
                      dlCount := s.cfg.bitTicks, lineTrace := t.lineTrace }
  txen : t.ctrl.getLsbD 0 = s.ctrl.getLsbD 0
  high : t.ctrl.extractLsb' 2 6 = s.ctrl.extractLsb' 2 6
  symbols : t.lineTrace.length = s.lineTrace.length + n
  /-- A period for each bit. -/
  least : bits.length ≤ n
  /-- A stuffed zero uses up five ones, of which four may have come before. -/
  most : 5 * n + t.ones.toNat ≤ s.ones.toNat + 6 * bits.length
  flag : isFlag s.encByte = true → n = bits.length

theorem SendsBits.trans {s t u : State} {n m : Nat} {bits more : List Nat} (h : SendsBits s t n bits)
    (h' : SendsBits t u m more) : SendsBits s u (n + m) (bits ++ more) := by
  have hbyte : t.encByte = s.encByte := by rw [h.kept]
  have hcrcEn : t.encCrcEn = s.encCrcEn := by rw [h.kept]
  have hleast := h.least
  have hleast' := h'.least
  have hmost := h.most
  have hmost' := h'.most
  constructor
  case run => rw [bitPeriods_add h.run, h'.run]
  case line => rw [h'.line, h.line, hbyte, hcrcEn, List.foldl_append]
  case bit => rw [h'.bit, h.bit, List.length_append, Nat.add_assoc]
  case ones_le => exact h'.ones_le
  case kept =>
    have hkept := h'.kept
    rw [h.kept] at hkept
    exact hkept
  case txen => rw [h'.txen, h.txen]
  case high => rw [h'.high, h.high]
  case symbols => rw [h'.symbols, h.symbols, Nat.add_assoc]
  case least => rw [List.length_append]; omega
  case most => rw [List.length_append]; omega
  case flag =>
    intro hflag
    rw [h.flag hflag, h'.flag (hbyte ▸ hflag), List.length_append]

/-- The bits of `CTRL` other than TONE. -/
theorem setBit_tone_kept (c : Byte) (v : Bool) :
    (setBit c 1 v).getLsbD 0 = c.getLsbD 0 ∧ (setBit c 1 v).extractLsb' 2 6 = c.extractLsb' 2 6 :=
  ⟨getLsbD_setBit c 1 0 v (by decide), setBit_high c 1 v 2 6 (by decide) (by decide)⟩

theorem State.sendDataBit_ctrl_kept (s : State) :
    s.sendDataBit.ctrl.getLsbD 0 = s.ctrl.getLsbD 0 ∧ s.sendDataBit.ctrl.extractLsb' 2 6 = s.ctrl.extractLsb' 2 6 := by
  rw [s.sendDataBit_ctrl]
  split
  · exact ⟨rfl, rfl⟩
  · exact setBit_tone_kept _ _

/-- The line bit of a data bit leaves `ONES` one higher at most, and 0 in a flag byte (R252). -/
theorem State.sendDataBit_ones_le {s : State} (hones : s.ones.toNat ≤ 4) :
    s.sendDataBit.ones.toNat ≤ s.ones.toNat + 1 ∧ (isFlag s.encByte = true → s.sendDataBit.ones = 0#3) := by
  rw [s.sendDataBit_ones]
  have hsucc : (s.ones + 1#3).toNat = s.ones.toNat + 1 := by bv_omega
  refine ⟨?_, fun hflag => ?_⟩
  · repeat' split
    · simp
    · omega
    · simp
  · rw [if_pos hflag]; exact ite_self _

theorem State.sendDataBit_encBit_val {s : State} (hbit : s.encBit.val < 8) :
    s.sendDataBit.encBit.val = s.encBit.val + 1 := by
  rw [s.sendDataBit_encBit, Fin.val_add_one_of_lt (Fin.lt_def.mpr hbit)]

section
variable {s : State} (hstuff : s.encStuff = false)
include hstuff

/-- A stuffed zero falls due in a byte that is no flag, when the run counter reaches 5 (R253). -/
theorem State.sendDataBit_stuff_due :
    s.sendDataBit.encStuff = (!isFlag s.encByte && decide (s.sendDataBit.ones = 5#3)) := by
  rw [s.sendDataBit_encStuff, hstuff]
  cases isFlag s.encByte <;> simp

/-- A pass of `send_byte` is the line bit and the stuffed zero it makes due. -/
theorem State.sendBit_eq_dataBit :
    s.line.sendBit (isFlag s.encByte) s.encCrcEn (s.encByte.getLsbD s.encBit.val) =
      if s.sendDataBit.encStuff then s.sendDataBit.line.stuffZero else s.sendDataBit.line := by
  rw [State.sendDataBit_stuff_due hstuff, Line.sendBit_eq, ← s.sendDataBit_line]; rfl

variable (hones : s.ones.toNat ≤ 4) (hbit : s.encBit.val < 8)
include hones hbit

theorem bitPeriods_dataBit : bitPeriods 1 s = .next { s.sendDataBit with dlFlag := false } :=
  bitPeriods_one (bitPeriod_of_encStep
    (encStep_of_bitsLeft (by omega) hstuff fun h => by rw [h] at hbit; exact absurd hbit (by decide)))

/-- The encoder step of a data bit that makes no stuffed zero due. -/
theorem sendsBits_plain (hdue : s.sendDataBit.encStuff = false) :
    SendsBits s { s.sendDataBit with dlFlag := false } 1 [s.encBit.val] := by
  obtain ⟨hle, hflag⟩ := State.sendDataBit_ones_le hones
  have hfour : s.sendDataBit.ones.toNat ≤ 4 := by
    rw [State.sendDataBit_stuff_due hstuff] at hdue
    cases hf : isFlag s.encByte with
    | true => simp [hflag hf]
    | false =>
      have hne : s.sendDataBit.ones ≠ 5#3 := by simpa [hf] using hdue
      bv_omega
  constructor
  case run => exact bitPeriods_dataBit hstuff hones hbit
  case line =>
    rw [List.foldl_cons, List.foldl_nil, State.sendBit_eq_dataBit hstuff, hdue]; rfl
  case bit => exact State.sendDataBit_encBit_val hbit
  case ones_le => exact hfour
  case kept =>
    have heq := s.sendDataBit_eq
    rw [hdue, ← hstuff, ← s.sendDataBit_encBit, ← s.sendDataBit_lineTrace] at heq
    exact congrArg (fun t : State => { t with dlFlag := false }) heq
  case txen => exact s.sendDataBit_ctrl_kept.1
  case high => exact s.sendDataBit_ctrl_kept.2
  case symbols => simp [s.sendDataBit_lineTrace]
  case least => simp
  case most => simp; omega
  case flag => simp

/-- The encoder steps of a data bit and of the stuffed zero it makes due. -/
theorem sendsBits_stuffed (hdue : s.sendDataBit.encStuff = true) :
    SendsBits s { s.sendDataBit.sendStuffedZero with dlFlag := false } 2 [s.encBit.val] := by
  obtain ⟨hle, -⟩ := State.sendDataBit_ones_le hones
  have hdue' := hdue
  rw [State.sendDataBit_stuff_due hstuff] at hdue'
  obtain ⟨hnoflag, hfive⟩ : isFlag s.encByte = false ∧ s.sendDataBit.ones = 5#3 := by simpa using hdue'
  have hctrl := setBit_tone_kept s.sendDataBit.ctrl (!s.sendDataBit.tone)
  rw [hfive] at hle
  constructor
  case run =>
    rw [bitPeriods_add (m := 1) (bitPeriods_dataBit hstuff hones hbit)]
    exact bitPeriods_one (bitPeriod_of_encStep (encStep_of_stuff (by simp [hfive]) hdue))
  case line =>
    rw [List.foldl_cons, List.foldl_nil, State.sendBit_eq_dataBit hstuff, hdue]
    exact s.sendDataBit.sendStuffedZero_line
  case bit =>
    exact (congrArg Fin.val s.sendDataBit.sendStuffedZero_encBit).trans (State.sendDataBit_encBit_val hbit)
  case ones_le => simp [State.sendStuffedZero_eq]
  case kept =>
    have hzero := s.sendDataBit.sendStuffedZero_eq
    have hdata := s.sendDataBit_eq
    generalize s.sendDataBit = u at hzero hdata ⊢
    rw [hzero, hdata, ← hstuff]
  case txen => exact hctrl.1.trans s.sendDataBit_ctrl_kept.1
  case high => exact hctrl.2.trans s.sendDataBit_ctrl_kept.2
  case symbols => simp [State.sendStuffedZero_eq, s.sendDataBit_lineTrace]
  case least => simp
  case most => simp [State.sendStuffedZero_eq] at hle ⊢; omega
  case flag => simp [hnoflag]

/-- The encoder steps of one bit. -/
theorem exists_sendsBits_one : ∃ (n : Nat) (t : State), SendsBits s t n [s.encBit.val] := by
  cases hdue : s.sendDataBit.encStuff with
  | false => exact ⟨_, _, sendsBits_plain hstuff hones hbit hdue⟩
  | true => exact ⟨_, _, sendsBits_stuffed hstuff hones hbit hdue⟩

end

/-- The encoder steps of the bits from `ENC_BIT` on to the end of the byte. -/
theorem exists_sendsBits_rest (k : Nat) {s : State} (hstuff : s.encStuff = false) (hones : s.ones.toNat ≤ 4)
    (hbit : s.encBit.val + (k + 1) = 8) : ∃ (n : Nat) (t : State), SendsBits s t n (List.range' s.encBit.val (k + 1)) := by
  induction k generalizing s with
  | zero => exact exists_sendsBits_one hstuff hones (by omega)
  | succ k ih =>
    obtain ⟨n, t, ht⟩ := exists_sendsBits_one hstuff hones (show s.encBit.val < 8 by omega)
    have htBit : t.encBit.val = s.encBit.val + 1 := ht.bit
    have htStuff : t.encStuff = false := by rw [ht.kept]; exact hstuff
    obtain ⟨m, u, hu⟩ := ih htStuff ht.ones_le (by omega)
    rw [htBit] at hu
    exact ⟨n + m, u, ht.trans hu⟩

theorem exists_sendsBits_byte {s : State} (hstuff : s.encStuff = false) (hones : s.ones.toNat ≤ 4) (hbit : s.encBit = 0) :
    ∃ (n : Nat) (t : State), SendsBits s t n (List.range 8) := by
  have h := exists_sendsBits_rest 7 hstuff hones (by rw [hbit]; rfl)
  rwa [hbit, Fin.val_zero, ← List.range_eq_range'] at h

/-! ### The obligations -/

/-- Settles O23: each taking step written out; the bits of `CTRL` that FRM_START leaves are above the three it writes. -/
theorem frameCommandsStartTheirJobs : Obligations.FrameCommandsStartTheirJobs := by
  refine ⟨fun s w => ⟨_, exec_frmStart_eq w s, rfl, ?_, ?_, ?_, ?_⟩, fun s d => exec_frmByte_eq d s, exec_frmEnd_eq,
    rejectsHigh_of_mem (by decide), rejectsImm_of_mem (by decide)⟩
  · exact (State.txen_setPtt _ _).trans (State.txen_setTxen _ _)
  · exact (State.tone_setPtt _ _).trans ((State.tone_setTxen _ _).trans (State.tone_setTone _ _))
  · exact State.ptt_setPtt _ _
  · exact (setBit_high _ 2 true 3 5 (by decide) (by decide)).trans
      ((setBit_high _ 0 true 3 5 (by decide) (by decide)).trans (setBit_high _ 1 false 3 5 (by decide) (by decide)))

/-- Settles O24: the periods of the byte's eight bits, each a pass of `send_byte`'s loop. -/
theorem encoderStepsCarryOutTheByteProcedure : Obligations.EncoderStepsCarryOutTheByteProcedure := by
  intro s hones hbit hstuff
  obtain ⟨n, t, h⟩ := exists_sendsBits_byte hstuff hones hbit
  have hend : t.encBit = 8 := Fin.ext (by rw [h.bit, hbit]; rfl)
  have hleast : 8 ≤ n := h.least
  have hmost : 5 * n + t.ones.toNat ≤ s.ones.toNat + 6 * 8 := h.most
  have hkept := h.kept
  rw [hend] at hkept
  refine ⟨n, t, h.run, hleast, by omega, fun hflag => h.flag ?_, h.line, h.symbols, hkept, h.txen, h.high, h.ones_le⟩
  rw [hflag]; rfl

end Sys2Proof.Machine
end

section
/-! What each command and each agent may write of the port, the committed set, `CRC` and the outputs, and from it the four
statements about every step (30_encoding.md R108; 10_state.md R32, R49; 41_position_decoder.md R191). -/

namespace Sys2Proof.Machine

/-! ### The commands -/

/-- The commands that write `CRC` (10_state.md R49). -/
def writesCrc : Instr → Bool
  | .crcInit | .crcBit _ | .crcByte _ | .crcWr _ | .frmStart _ | .frmEnd => true
  | _ => false

theorem writesCrc_cases {i : Instr} (h : writesCrc i = true) :
    i = .crcInit ∨ (∃ d, i = .crcBit d) ∨ (∃ d, i = .crcByte d) ∨ (∃ w, i = .crcWr w) ∨ (∃ w, i = .frmStart w) ∨
      i = .frmEnd := by
  cases i with
  | crcInit => exact .inl rfl
  | crcBit d => exact .inr (.inl ⟨d, rfl⟩)
  | crcByte d => exact .inr (.inr (.inl ⟨d, rfl⟩))
  | crcWr w => exact .inr (.inr (.inr (.inl ⟨w, rfl⟩)))
  | frmStart w => exact .inr (.inr (.inr (.inr (.inl ⟨w, rfl⟩))))
  | frmEnd => exact .inr (.inr (.inr (.inr (.inr rfl))))
  | _ => cases h

/-- What command `i`, taken in `s`, may make of the registers these statements speak of. -/
structure CommandFrame (i : Instr) (s t : State) : Prop where
  cfg : t.cfg = s.cfg
  cmds : t.cmds = s.cmds
  lineTrace : t.lineTrace = s.lineTrace
  dacTrace : t.dacTrace = s.dacTrace
  fix : t.fix = s.fix ∨ (i = .nmeaCommit ∧ t.fix = s.tmp.commit)
  crc : t.crc = s.crc ∨ writesCrc i = true
  txTrace : t.txTrace = s.txTrace ∨ ∃ d b, i = .txEnq d ∧ t.txTrace = s.txTrace ++ [b]
  led : t.led = s.led ∨ ∃ d, i = .ctrlWr d
  ptt : t.ptt = s.ptt ∨ (∃ w, i = .frmStart w) ∨ ∃ d, i = .ctrlWr d

/-- `t` keeps the committed set, `CTRL`, the traces and the parameters of `s`. -/
structure OutputsKept (s t : State) : Prop where
  cfg : t.cfg = s.cfg
  lineTrace : t.lineTrace = s.lineTrace
  dacTrace : t.dacTrace = s.dacTrace
  fix : t.fix = s.fix
  txTrace : t.txTrace = s.txTrace
  ctrl : t.ctrl = s.ctrl

theorem OutputsKept.commandFrame {i : Instr} {s t : State} (h : OutputsKept s t)
    (hcmds : t.cmds = s.cmds) (hcrc : t.crc = s.crc ∨ writesCrc i = true) : CommandFrame i s t :=
  ⟨h.cfg, hcmds, h.lineTrace, h.dacTrace, .inl h.fix, hcrc, .inl h.txTrace, .inl (State.led_eq_of_ctrl h.ctrl),
    .inl (State.ptt_eq_of_ctrl h.ctrl)⟩

theorem State.raiseCmdError_outputsKept (s : State) (c : Cause) (op : Byte) : OutputsKept s (s.raiseCmdError c op) := by
  constructor <;> simp

theorem State.setRes_outputsKept (s : State) (v : Half) : OutputsKept s (s.setRes v) := by
  constructor <;> rfl

theorem State.feed_outputsKept (s : State) (b : Byte) : OutputsKept s (s.feed b) := by
  constructor <;> simp

theorem exec_txEnq_frame {d : Byte} {s t : State} (h : exec (.txEnq d) s = .next t) : CommandFrame (.txEnq d) s t := by
  cases ha : s.txAct with
  | true =>
    rw [exec_txEnq_of_active d ha] at h
    cases h
    exact OutputsKept.commandFrame ⟨rfl, rfl, rfl, rfl, rfl, rfl⟩ rfl (.inl rfl)
  | false =>
    cases hpop : (s.tx.push s.txovm d).pop with
    | none =>
      cases h
      rw [State.prime_of_empty _ hpop]
      exact OutputsKept.commandFrame ⟨rfl, rfl, rfl, rfl, rfl, rfl⟩ rfl (.inl rfl)
    | some vr =>
      rw [exec_txEnq_of_idle d ha hpop] at h
      cases h
      exact ⟨rfl, rfl, rfl, rfl, .inl rfl, .inl rfl, .inr ⟨d, vr.1, rfl, rfl⟩, .inl rfl, .inl rfl⟩

theorem exec_ctrlWr_frame {d : Byte} {s t : State} (h : exec (.ctrlWr d) s = .next t) : CommandFrame (.ctrlWr d) s t := by
  by_cases hd : d.extractLsb' 6 2 = 0#2
  · rw [exec_ctrlWr_of_ok hd] at h
    cases h
    exact ⟨rfl, rfl, rfl, rfl, .inl rfl, .inl rfl, .inl rfl, .inr ⟨d, rfl⟩, .inr (.inr ⟨d, rfl⟩)⟩
  · rw [exec_ctrlWr_of_reserved hd] at h
    cases h
    exact (s.raiseCmdError_outputsKept .reservedBits 0x31#8).commandFrame
      (s.raiseCmdError_cmds .reservedBits 0x31#8) (.inl (s.raiseCmdError_crc .reservedBits 0x31#8))

theorem exec_frmStart_frame {w : Half} {s t : State} (h : exec (.frmStart w) s = .next t) :
    CommandFrame (.frmStart w) s t := by
  rw [exec_frmStart_eq] at h
  cases h
  refine ⟨rfl, rfl, rfl, rfl, .inl rfl, .inr rfl, .inl rfl, .inl ?_, .inr (.inl ⟨w, rfl⟩)⟩
  exact (State.led_setPtt _ _).trans ((State.led_setTxen _ _).trans (State.led_setTone _ _))

theorem exec_frame {i : Instr} {s t : State} (h : exec i s = .next t) : CommandFrame i s t := by
  cases i with
  | nop | errClr | frmByte _ | wait _ | ovfClr =>
    cases h; exact OutputsKept.commandFrame ⟨rfl, rfl, rfl, rfl, rfl, rfl⟩ rfl (.inl rfl)
  | crcInit | crcByte _ | crcWr _ | frmEnd =>
    cases h; exact OutputsKept.commandFrame ⟨rfl, rfl, rfl, rfl, rfl, rfl⟩ rfl (.inr rfl)
  | statRd | errRd | crcRd | crcFcs | ctrlRd | ovfRd | curRd =>
    cases h; exact (s.setRes_outputsKept _).commandFrame rfl (.inl rfl)
  | crcBit _ =>
    simp only [exec, execCrcBit] at h
    split at h <;> cases h <;> exact OutputsKept.commandFrame (by constructor <;> simp) (by simp) (.inr rfl)
  | ringRd _ | fixRd _ _ | tmpRd _ _ | rxPoll | rxPollFeed =>
    simp only [exec, execRingRd, execFixRd, execTmpRd, execRxPoll, execRxPollFeed] at h
    split at h <;> cases h <;> exact OutputsKept.commandFrame (by constructor <;> simp) (by simp) (.inl (by simp))
  | nmeaFeed d => cases h; exact (s.feed_outputsKept d).commandFrame (s.feed_cmds d) (.inl (s.feed_crc d))
  | nmeaCommit => cases h; exact ⟨rfl, rfl, rfl, rfl, .inr ⟨rfl, rfl⟩, .inl rfl, .inl rfl, .inl rfl, .inl rfl⟩
  | frmStart _ => exact exec_frmStart_frame h
  | ctrlWr _ => exact exec_ctrlWr_frame h
  | txEnq _ => exact exec_txEnq_frame h

/-! ### The encoder step (43_frame_encoder.md R258, R259) -/

/-- What an encoder step may make of the registers these statements speak of. -/
structure EncoderFrame (s t : State) : Prop where
  cfg : t.cfg = s.cfg
  cmds : t.cmds = s.cmds
  agenda : t.agenda = s.agenda
  dacTrace : t.dacTrace = s.dacTrace
  fix : t.fix = s.fix
  txTrace : t.txTrace = s.txTrace
  lineTrace : t.lineTrace = s.lineTrace ∨ (t.lineTrace = s.lineTrace ++ [t.tone] ∧ t.dlFlag = true)
  crc : t.crc = s.crc ∨ (s.encCrcEn = true ∧ t.crc = crcStep s.crc (s.encByte.getLsbD s.encBit.val))
  led : t.led = s.led
  ptt : t.ptt = s.ptt ∨ (s.encJob = .frameEnd ∧ t.ptt = false)

theorem State.sendDataBit_ctrl_eq_or (s : State) :
    s.sendDataBit.ctrl = s.ctrl ∨ s.sendDataBit.ctrl = (s.setTone (!s.tone)).ctrl := by
  rw [s.sendDataBit_ctrl]
  split
  · exact .inl rfl
  · exact .inr rfl

theorem State.sendDataBit_led (s : State) : s.sendDataBit.led = s.led := by
  rcases s.sendDataBit_ctrl_eq_or with h | h
  · exact State.led_eq_of_ctrl h
  · exact (State.led_eq_of_ctrl h).trans (s.led_setTone _)

theorem State.sendDataBit_ptt (s : State) : s.sendDataBit.ptt = s.ptt := by
  rcases s.sendDataBit_ctrl_eq_or with h | h
  · exact State.ptt_eq_of_ctrl h
  · exact (State.ptt_eq_of_ctrl h).trans (s.ptt_setTone _)

theorem State.sendDataBit_frame (s : State) : EncoderFrame s s.sendDataBit := by
  constructor
  case lineTrace => exact .inr ⟨s.sendDataBit_lineTrace, s.sendDataBit_dlFlag⟩
  case crc =>
    rw [s.sendDataBit_crc]
    split
    · rename_i hen; exact .inr ⟨hen, rfl⟩
    · exact .inl rfl
  case led => exact s.sendDataBit_led
  case ptt => exact .inl s.sendDataBit_ptt
  all_goals simp

theorem State.sendStuffedZero_frame (s : State) : EncoderFrame s s.sendStuffedZero := by
  constructor
  case lineTrace => exact .inr ⟨rfl, rfl⟩
  case crc => exact .inl rfl
  case led => exact s.led_setTone _
  case ptt => exact .inl (s.ptt_setTone _)
  all_goals rfl

theorem State.finish_led_ptt (s : State) : s.finish.led = s.led ∧ (s.finish.ptt = s.ptt ∨ (s.encJob = .frameEnd ∧ s.finish.ptt = false)) := by
  by_cases hj : s.encJob = .frameEnd
  · rw [State.finish_of_frameEnd hj]
    exact ⟨(State.led_setPtt _ _).trans (s.led_setTxen _), .inr ⟨hj, State.ptt_setPtt _ _⟩⟩
  · rw [State.finish_of_ne_frameEnd hj]
    exact ⟨rfl, .inl rfl⟩

theorem State.finish_frame (s : State) : EncoderFrame s s.finish := by
  constructor
  case lineTrace => exact .inl (by simp)
  case crc => exact .inl (by simp)
  case led => exact s.finish_led_ptt.1
  case ptt => exact s.finish_led_ptt.2
  all_goals simp

/-- A byte just loaded does not update `CRC`, and loading it writes none of these registers (R257). -/
theorem State.nextByte_sendDataBit_frame {s u : State} (hu : s.nextByte = some u) : EncoderFrame s u.sendDataBit := by
  have hload := (s.nextByte_some u hu).1
  have hframe := u.sendDataBit_frame
  have hcrc : u.sendDataBit.crc = u.crc := by rw [u.sendDataBit_crc, hload]; rfl
  rw [hload] at hframe hcrc ⊢
  exact ⟨hframe.cfg, hframe.cmds, hframe.agenda, hframe.dacTrace, hframe.fix, hframe.txTrace, hframe.lineTrace, .inl hcrc,
    hframe.led, hframe.ptt⟩

theorem encStep_frame {s t : State} (h : encStep s = .next t) : EncoderFrame s t := by
  rcases (encStep_next_cases s t h).2 with ⟨-, rfl⟩ | ⟨-, -, rfl⟩ | ⟨-, -, u, hu, rfl⟩ | ⟨-, -, -, rfl⟩
  · exact s.sendStuffedZero_frame
  · exact s.sendDataBit_frame
  · exact State.nextByte_sendDataBit_frame hu
  · exact s.finish_frame

/-! ### The other agents -/

theorem txEmptyEvent_txTrace (s : State) :
    (txEmptyEvent s).txTrace = s.txTrace ∨ (s.txAct = true ∧ ∃ v, (txEmptyEvent s).txTrace = s.txTrace ++ [v]) := by
  rcases txEmptyEvent_cases s with e | ⟨-, -, e⟩ | ⟨ha, v, r, -, e⟩
  · exact .inl (by rw [e])
  · exact .inl (by rw [e])
  · exact .inr ⟨ha, v, by rw [e]; rfl⟩

theorem tickEvent_dacTrace (s : State) :
    (tickEvent s).dacTrace = s.dacTrace ∨
      (s.txen = true ∧ (tickEvent s).dacTrace = s.dacTrace ++ [(tickEvent s).dac]) := by
  cases ht : s.txen with
  | false => exact .inl (tickEvent_sample_holds ht).2.2.2
  | true =>
    by_cases hn : s.smpCount.toNat ≤ 1
    · obtain ⟨-, hdac, -, htrace⟩ := tickEvent_sample_expires ht hn
      exact .inr ⟨rfl, by rw [htrace, hdac]⟩
    · exact .inl (tickEvent_sample_counts ht (by omega)).2.2.2

/-! ### Every step -/

/-- What a step may make of the outputs and of the parameters (10_state.md R32, R33). -/
structure OutputsChange (s t : State) : Prop where
  tx : t.txTrace = s.txTrace ∨ ∃ b, t.txTrace = s.txTrace ++ [b] ∧
    ((s.turn = .txEmpty ∧ s.txAct = true) ∨ ∃ d, s.taken = some (.txEnq d))
  line : t.lineTrace = s.lineTrace ∨
    (s.turn = .sequencer ∧ t.lineTrace = s.lineTrace ++ [t.tone] ∧ t.dlFlag = true)
  dac : t.dacTrace = s.dacTrace ∨ (s.turn = .tick ∧ s.txen = true ∧ t.dacTrace = s.dacTrace ++ [t.dac])
  led : t.led = s.led ∨ s.turn = .reset ∨ ∃ d, s.taken = some (.ctrlWr d)
  ptt : t.ptt = s.ptt ∨ s.turn = .reset ∨ (s.turn = .sequencer ∧ s.encJob = .frameEnd ∧ t.ptt = false) ∨
    (∃ w, s.taken = some (.frmStart w)) ∨ ∃ d, s.taken = some (.ctrlWr d)
  cfg : t.cfg = s.cfg

theorem OutputsKept.outputsChange {s t : State} (h : OutputsKept s t) : OutputsChange s t :=
  ⟨.inl h.txTrace, .inl h.lineTrace, .inl h.dacTrace, .inl (State.led_eq_of_ctrl h.ctrl), .inl (State.ptt_eq_of_ctrl h.ctrl),
    h.cfg⟩

theorem CommandFrame.outputsChange {i : Instr} {s u t : State} (h : CommandFrame i u t) (hu : OutputsKept s u)
    (hi : s.taken = some i) : OutputsChange s t := by
  have hled : u.led = s.led := State.led_eq_of_ctrl hu.ctrl
  have hptt : u.ptt = s.ptt := State.ptt_eq_of_ctrl hu.ctrl
  constructor
  case tx =>
    rw [hi, ← hu.txTrace]
    exact h.txTrace.imp_right fun ⟨d, b, hd, hb⟩ => ⟨b, hb, .inr ⟨d, by rw [hd]⟩⟩
  case line => exact .inl (h.lineTrace.trans hu.lineTrace)
  case dac => exact .inl (h.dacTrace.trans hu.dacTrace)
  case led => 
    rw [hi, ← hled]
    exact h.led.imp_right fun ⟨d, hd⟩ => .inr ⟨d, by rw [hd]⟩
  case ptt =>
    rw [hi, ← hptt]
    refine h.ptt.imp_right fun hp => .inr (.inr ?_)
    exact hp.imp (fun ⟨w, hw⟩ => ⟨w, by rw [hw]⟩) fun ⟨d, hd⟩ => ⟨d, by rw [hd]⟩
  case cfg => exact h.cfg.trans hu.cfg

theorem step_outputsChange {s t : State} (h : step s = .next t) : OutputsChange s t := by
  rcases step_cases s t h with ⟨-, rfl⟩ | ⟨-, -, w, ws, i, -, -, hi, he⟩ | ⟨-, -, w, ws, c, -, -, rfl⟩ | ⟨-, rfl⟩ |
    ⟨ht, -, -, -, he⟩ | ⟨-, -, -, -, rfl⟩ | ⟨-, rfl⟩ | ⟨b, -, rfl⟩ | ⟨ht, rfl⟩ | ⟨ht, rfl⟩ | ⟨ht, rfl⟩
  · exact OutputsKept.outputsChange (by constructor <;> rfl)
  · exact (exec_frame he).outputsChange (by constructor <;> rfl) hi
  · exact OutputsKept.outputsChange (by constructor <;> simp)
  · exact OutputsKept.outputsChange (by constructor <;> rfl)
  · obtain ⟨hcfg, -, -, hdac, -, htx, hline, -, hled, hptt⟩ := encStep_frame he
    exact ⟨.inl htx, hline.imp_right fun hgrow => ⟨ht, hgrow⟩, .inl hdac, .inl hled,
      hptt.imp_right fun hoff => .inr (.inl ⟨ht, hoff⟩), hcfg⟩
  · exact OutputsKept.outputsChange (by constructor <;> rfl)
  · exact OutputsKept.outputsChange (by constructor <;> simp)
  · exact OutputsKept.outputsChange (by constructor <;> rfl)
  · refine ⟨(txEmptyEvent_txTrace s.turnTaken).imp_right fun ⟨ha, v, hv⟩ => ⟨v, hv, .inl ⟨ht, ha⟩⟩, .inl (by simp),
      .inl (by simp), .inl (State.led_eq_of_ctrl (by simp)), .inl (State.ptt_eq_of_ctrl (by simp)), by simp⟩
  · refine ⟨.inl (by simp), .inl (by simp), (tickEvent_dacTrace s.turnTaken).imp_right fun hgrow => ⟨ht, hgrow⟩,
      .inl (State.led_eq_of_ctrl (by simp)), .inl (State.ptt_eq_of_ctrl (by simp)), by simp⟩
  · exact ⟨.inl rfl, .inl rfl, .inl rfl, .inr (.inl ht), .inr (.inl ht), rfl⟩

/-! ### The obligations -/

/-- Settles O10: only the controller's turn takes a word off the port, and no command puts one on it. -/
theorem wordTakenOnlyWhileReady : Obligations.WordTakenOnlyWhileReady := by
  intro s t h
  rcases step_cases s t h with ⟨-, rfl⟩ | ⟨ht, hb, w, ws, i, hc, -, -, he⟩ | ⟨ht, hb, w, ws, c, hc, -, rfl⟩ | ⟨-, rfl⟩ |
    ⟨-, -, -, -, he⟩ | ⟨-, -, -, -, rfl⟩ | ⟨-, rfl⟩ | ⟨b, -, rfl⟩ | ⟨-, rfl⟩ | ⟨-, rfl⟩ | ⟨-, rfl⟩
  · exact .inl rfl
  · exact .inr ⟨hb, ht, w, by rw [hc, (exec_frame he).cmds]⟩
  · exact .inr ⟨hb, ht, w, by rw [hc, State.raiseCmdError_cmds]⟩
  · exact .inl rfl
  · exact .inl (encStep_frame he).cmds
  · exact .inl rfl
  · exact .inl (feederStep_cmds _)
  · exact .inl rfl
  · exact .inl (txEmptyEvent_cmds _)
  · exact .inl (tickEvent_cmds _)
  · exact .inl rfl

/-- Settles O56: agent by agent, and for a command taken by `exec_frame`. -/
theorem committedSetChangesOnlyAtCommit : Obligations.CommittedSetChangesOnlyAtCommit := by
  intro s t h
  rcases step_cases s t h with ⟨-, rfl⟩ | ⟨-, -, w, ws, i, -, -, hi, he⟩ | ⟨-, -, w, ws, c, -, -, rfl⟩ | ⟨-, rfl⟩ |
    ⟨-, -, -, -, he⟩ | ⟨-, -, -, -, rfl⟩ | ⟨-, rfl⟩ | ⟨b, -, rfl⟩ | ⟨-, rfl⟩ | ⟨-, rfl⟩ | ⟨ht, rfl⟩
  · exact .inl rfl
  · exact (exec_frame he).fix.imp_right fun ⟨hcommit, hfix⟩ => .inr ⟨by rw [hi, hcommit], hfix⟩
  · exact .inl (State.raiseCmdError_fix _ _ _)
  · exact .inl rfl
  · exact .inl (encStep_frame he).fix
  · exact .inl rfl
  · exact .inl (feederStep_fix _)
  · exact .inl rfl
  · exact .inl (txEmptyEvent_fix _)
  · exact .inl (tickEvent_fix _)
  · exact .inr (.inl ⟨ht, rfl⟩)

/-- Settles O58: agent by agent; the commands that write `CRC` are the six of `writesCrc`. -/
theorem crcConfinedToTheControllersSide : Obligations.CrcConfinedToTheControllersSide := by
  intro s t h hne
  rcases step_cases s t h with ⟨-, rfl⟩ | ⟨-, -, w, ws, i, -, -, hi, he⟩ | ⟨-, -, w, ws, c, -, -, rfl⟩ | ⟨-, rfl⟩ |
    ⟨ht, -, -, -, he⟩ | ⟨-, -, -, -, rfl⟩ | ⟨-, rfl⟩ | ⟨b, -, rfl⟩ | ⟨-, rfl⟩ | ⟨-, rfl⟩ | ⟨ht, rfl⟩
  · exact absurd rfl hne
  · have hwrites := writesCrc_cases ((exec_frame he).crc.resolve_left hne)
    simp only [hi, Option.some.injEq]
    exact .inr (.inr hwrites)
  · exact absurd (State.raiseCmdError_crc _ _ _) hne
  · exact absurd rfl hne
  · exact .inr (.inl ⟨ht, (encStep_frame he).crc.resolve_left hne⟩)
  · exact absurd rfl hne
  · exact absurd (feederStep_crc _) hne
  · exact absurd rfl hne
  · exact absurd (txEmptyEvent_crc _) hne
  · exact absurd (tickEvent_crc _) hne
  · exact .inl ht

/-- Settles O59: agent by agent, each trace grown by its own agent only. -/
theorem outputsChangeOnlyByTheirAgents : Obligations.OutputsChangeOnlyByTheirAgents := by
  intro s t h
  obtain ⟨htx, hline, hdac, hled, hptt, hcfg⟩ := step_outputsChange h
  exact ⟨htx, hline, hdac, hled, hptt, hcfg⟩

end Sys2Proof.Machine
end

section
/-! Runs in the default order (log 4): the ticks and feeder steps between two encoder steps leave the encoder's view of the
block alone, so that bit periods (43_frame_encoder.md R255) become steps of the machine, and every busy command ends. -/

namespace Sys2Proof.Machine

/-! ### Runs that have not ended yet (70_reset_and_hazards.md R415) -/

/-- One step of a run that has not ended before it. -/
def RunStep (s t : State) : Prop := ¬ s.RunEnded ∧ step s = .next t

/-- `t` comes after `s` in a run, no state before `t` being its end. -/
abbrev Runs : State → State → Prop := Relation.ReflTransGen RunStep

theorem Runs.of_step {s t : State} (hs : ¬ s.RunEnded) (h : step s = .next t) : Runs s t := .single ⟨hs, h⟩

theorem not_runEnded_of_busy {s : State} (h : s.busy = true) : ¬ s.RunEnded := fun ⟨_, hidle⟩ => by simp [h] at hidle

theorem not_runEnded_of_word {s : State} {w : Cmd} {ws : List Cmd} (h : s.cmds = w :: ws) : ¬ s.RunEnded :=
  fun ⟨hnone, _⟩ => by simp [h] at hnone

/-- The number of steps of a run. -/
theorem Runs.exists_steps {s t : State} (h : Runs s t) :
    ∃ n, steps n s = .next t ∧ ∀ (k : Nat) (u : State), k < n → steps k s = .next u → ¬ u.RunEnded := by
  induction h using Relation.ReflTransGen.head_induction_on with
  | refl => exact ⟨0, rfl, fun k _ hk => absurd hk k.not_lt_zero⟩
  | head hstep _ ih =>
    obtain ⟨hs, hu⟩ := hstep
    obtain ⟨n, hn, hbefore⟩ := ih
    refine ⟨n + 1, by simpa only [steps, hu] using hn, fun k v hk hv => ?_⟩
    cases k with
    | zero => cases hv; exact hs
    | succ k => exact hbefore k v (by omega) (by simpa only [steps, hu] using hv)

theorem Runs.runEndsAt {s t : State} (h : Runs s t) (ht : t.RunEnded) : ∃ n, s.RunEndsAt n t := by
  obtain ⟨n, hn, hbefore⟩ := h.exists_steps
  exact ⟨n, hn, ht, hbefore⟩

/-! ### Steps of the default order (log 4) -/

section
variable {s : State} (ha : s.agenda = [])
include ha

theorem step_default_feeder (hb : s.busy = true) (hd : s.dlFlag = true) (hr : s.rx.head ≠ s.rx.tail) :
    step s = .next (feederStep s) := by
  rw [step_default s ha, defaultMove, if_pos hb, if_pos hd, if_pos (by simp [State.rxne, hr])]; rfl

theorem step_default_tick (hb : s.busy = true) (hd : s.dlFlag = true) (hr : s.rx.head = s.rx.tail) :
    step s = .next (tickEvent s) := by
  rw [step_default s ha, defaultMove, if_pos hb, if_pos hd, if_neg (by simp [State.rxne, hr])]; rfl

theorem step_default_sequencer (hb : s.busy = true) (hd : s.dlFlag = false) (hj : s.encJob ≠ .none) :
    step s = sequencerMove s := by
  rw [step_default s ha, defaultMove, if_pos hb, if_neg (by simp [hd]), if_neg hj]; rfl

theorem step_default_takes {w : Cmd} {ws : List Cmd} (hb : s.busy = false) (hc : s.cmds = w :: ws) :
    step s = takeCommand w { s with cmds := ws } := by
  rw [step_default s ha, defaultMove, if_neg (by simp [hb]), hc]
  exact controllerMove_takes s w ws hb hc

end

theorem sendsBits_ne_none {j : Job} (h : j.sendsBits = true) : j ≠ .none := by
  rintro rfl; cases h

/-! ### What the encoder sees of the block -/

/-- The block without the registers that ticks and feeder steps write: the encoder's view of it. -/
def State.encView (s : State) : State :=
  { s with
    rx := Ring.empty, stype := .none, comma := 0#8, cidx := 0#8, tmp := TempSet.zero, dlFlag := false, dlCount := 0#16
    smpCount := 0#16, waveIdx := 0#4, dac := 0#4, dacTrace := [] }

/-- What the encoder sees alike has the same value of every register in the view. -/
theorem eq_of_encView_eq {α : Type} (f : State → α) (hf : ∀ s : State, f s.encView = f s) {s t : State}
    (h : s.encView = t.encView) : f s = f t := by
  rw [← hf s, h, hf t]

theorem tickEvent_encView (s : State) : (tickEvent s).encView = s.encView := by
  rw [tickEvent_eq]; rfl

theorem feederStep_encView (s : State) : (feederStep s).encView = s.encView := by
  rcases feederStep_cases s with e | ⟨-, -, b, r, -, e⟩
  · rw [e]
  · rw [e, State.feed_eq]; rfl

theorem feederStep_of_pop {s : State} {b : Byte} {r : Ring} (hb : s.busy = true) (hd : s.dlFlag = true)
    (hpop : s.rx.pop = some (b, r)) : feederStep s = ({ s with rx := r } : State).feed b := by
  rw [feederStep, if_pos ⟨hb, hd⟩, hpop]

/-- The feeder takes one byte off the ring, where there is one. -/
theorem feederStep_count {s : State} (hb : s.busy = true) (hd : s.dlFlag = true) (hr : s.rx.head ≠ s.rx.tail) :
    (feederStep s).rx.count + 1 = s.rx.count := by
  obtain ⟨⟨b, r⟩, hpop⟩ := Option.ne_none_iff_exists'.mp fun hnone => hr (s.rx.pop_eq_none_iff.mp hnone)
  rw [feederStep_of_pop hb hd hpop, State.feed_rx, ← s.rx.contents_length, (s.rx.pop_eq_some r b hpop).2, List.length_cons, Ring.contents_length]

/-- A pending deadline expires: the feeder empties the ring, then the ticks count down (44_bitclock.md R292, R301). -/
theorem exists_deadline_expired (n : Nat) {s : State} (hn : s.rx.count + s.dlCount.toNat ≤ n) (ha : s.agenda = [])
    (hb : s.busy = true) : ∃ t, Runs s t ∧ t.encView = s.encView ∧ t.dlFlag = false := by
  induction n generalizing s with
  | zero =>
    cases hd : s.dlFlag with
    | false => exact ⟨s, .refl, rfl, hd⟩
    | true =>
      have hr : s.rx.head = s.rx.tail := s.rx.count_eq_zero_iff.mp (by omega)
      exact ⟨_, .of_step (not_runEnded_of_busy hb) (step_default_tick ha hb hd hr), tickEvent_encView s,
        (tickEvent_deadline_expires (by omega)).1⟩
  | succ n ih =>
    cases hd : s.dlFlag with
    | false => exact ⟨s, .refl, rfl, hd⟩
    | true =>
      by_cases hr : s.rx.head = s.rx.tail
      · have hstep : Runs s (tickEvent s) := .of_step (not_runEnded_of_busy hb) (step_default_tick ha hb hd hr)
        by_cases hlast : s.dlCount.toNat ≤ 1
        · exact ⟨_, hstep, tickEvent_encView s, (tickEvent_deadline_expires hlast).1⟩
        · have hcount := (tickEvent_deadline_counts (s := s) (by omega)).2
          obtain ⟨t, hrun, hview, ht⟩ := ih (s := tickEvent s) (by rw [tickEvent_rx]; omega) (by simpa using ha)
            (by simpa using hb)
          exact ⟨t, hstep.trans hrun, hview.trans (tickEvent_encView s), ht⟩
      · have hcount := feederStep_count hb hd hr
        obtain ⟨t, hrun, hview, ht⟩ := ih (s := feederStep s) (by rw [feederStep_dlCount]; omega) (by simpa using ha)
          (by simpa using hb)
        exact ⟨t, (Runs.of_step (not_runEnded_of_busy hb) (step_default_feeder ha hb hd hr)).trans hrun,
          hview.trans (feederStep_encView s), ht⟩

/-! ### Encoder steps on the view -/

/-- The view of what a step answers. -/
def viewOf : Result → Result
  | .next s => .next s.encView
  | .fault r => .fault r
  | .refused r => .refused r

theorem viewOf_eq_next {r : Result} {v : State} (h : viewOf r = .next v) : ∃ t, r = .next t ∧ t.encView = v := by
  cases r with
  | next t => cases h; exact ⟨t, rfl, rfl⟩
  | fault _ | refused _ => cases h

theorem State.encView_sendDataBit (s : State) : s.encView.sendDataBit.encView = s.sendDataBit.encView := by
  have hcrc : s.encView.sendDataBit.crc = s.sendDataBit.crc := by rw [State.sendDataBit_crc, State.sendDataBit_crc]; rfl
  have hones : s.encView.sendDataBit.ones = s.sendDataBit.ones := by
    rw [State.sendDataBit_ones, State.sendDataBit_ones]; rfl
  have hstuff : s.encView.sendDataBit.encStuff = s.sendDataBit.encStuff := by
    rw [State.sendDataBit_encStuff, State.sendDataBit_encStuff, hones]; rfl
  have hctrl : s.encView.sendDataBit.ctrl = s.sendDataBit.ctrl := by
    rw [State.sendDataBit_ctrl, State.sendDataBit_ctrl]; rfl
  rw [s.encView.sendDataBit_eq, s.sendDataBit_eq, hcrc, hones, hstuff, hctrl, State.tone_eq_of_ctrl hctrl]; rfl

theorem State.encView_sendStuffedZero (s : State) : s.encView.sendStuffedZero.encView = s.sendStuffedZero.encView := rfl

theorem State.encView_finish (s : State) : s.encView.finish.encView = s.finish.encView := by
  by_cases hj : s.encJob = .frameEnd
  · rw [State.finish_of_frameEnd hj, State.finish_of_frameEnd (s := s.encView) hj]; rfl
  · rw [State.finish_of_ne_frameEnd hj, State.finish_of_ne_frameEnd (s := s.encView) hj]; rfl

theorem State.encView_nextByte (s : State) : s.encView.nextByte = s.nextByte.map State.encView := by
  have hjob : s.encView.encJob = s.encJob := rfl
  have hleft : s.encView.encFlagsLeft = s.encFlagsLeft := rfl
  have hstage : s.encView.encEndStage = s.encEndStage := rfl
  simp only [State.nextByte, hjob, hleft, hstage]
  repeat' split
  all_goals rfl

theorem viewOf_encStep (s : State) : viewOf (encStep s.encView) = viewOf (encStep s) := by
  have hones : s.encView.ones = s.ones := rfl
  have hstuff : s.encView.encStuff = s.encStuff := rfl
  have hbit : s.encView.encBit = s.encBit := rfl
  simp only [encStep, hones, hstuff, hbit, State.encView_nextByte]
  split
  · rfl
  · split
    · exact congrArg Host.Outcome.next s.encView_sendStuffedZero
    · split
      · cases s.nextByte with
        | none => exact congrArg Host.Outcome.next s.encView_finish
        | some u => exact congrArg Host.Outcome.next u.encView_sendDataBit
      · exact congrArg Host.Outcome.next s.encView_sendDataBit

/-- Two states the encoder sees alike take the same encoder step. -/
theorem encStep_of_encView_eq {s s' t : State} (hview : s'.encView = s.encView) (h : encStep s = .next t) :
    ∃ t', encStep s' = .next t' ∧ t'.encView = t.encView := by
  refine viewOf_eq_next ?_
  rw [← viewOf_encStep, hview, viewOf_encStep, h]; rfl

/-! ### Bit periods as steps of the machine -/

@[simp] theorem State.finish_busy (s : State) : s.finish.busy = false := rfl

/-- An encoder step after which the block is still busy found it busy with the same job. -/
theorem busy_of_encStep {s t : State} (h : encStep s = .next t) (ht : t.busy = true) :
    s.busy = true ∧ t.encJob = s.encJob := by
  rcases (encStep_next_cases s t h).2 with ⟨-, rfl⟩ | ⟨-, -, rfl⟩ | ⟨-, -, u, hu, rfl⟩ | ⟨-, -, -, rfl⟩
  · exact ⟨ht, rfl⟩
  · simpa using ht
  · have hload := (s.nextByte_some u hu).1
    have hbusy : u.busy = s.busy := by rw [hload]
    have hjob : u.encJob = s.encJob := by rw [hload]
    simpa [hbusy, hjob] using ht
  · cases ht

theorem bitPeriods_succ {n : Nat} {s t : State} (h : bitPeriods (n + 1) s = .next t) :
    ∃ u, encStep s = .next u ∧ bitPeriods n { u with dlFlag := false } = .next t := by
  simp only [bitPeriods, bitPeriod] at h
  cases hstep : encStep s with
  | next u => rw [hstep] at h; exact ⟨u, rfl, h⟩
  | fault r => rw [hstep] at h; cases h
  | refused r => rw [hstep] at h; cases h

theorem busy_of_bitPeriods {n : Nat} {s t : State} (h : bitPeriods n s = .next t) (ht : t.busy = true) :
    s.busy = true ∧ t.encJob = s.encJob := by
  induction n generalizing s with
  | zero => cases h; exact ⟨ht, rfl⟩
  | succ n ih =>
    obtain ⟨u, hu, hrest⟩ := bitPeriods_succ h
    obtain ⟨hubusy, hujob⟩ := ih hrest
    obtain ⟨hsbusy, hsjob⟩ := busy_of_encStep hu hubusy
    exact ⟨hsbusy, hujob.trans hsjob⟩

/-- In the default order the next step is an encoder step. -/
structure Coding (s : State) : Prop where
  agenda : s.agenda = []
  busy : s.busy = true
  dlFlag : s.dlFlag = false
  job : s.encJob.sendsBits = true

theorem Coding.step_eq {s : State} (h : Coding s) : step s = encStep s := by
  rw [step_default_sequencer h.agenda h.busy h.dlFlag (sendsBits_ne_none h.job)]
  exact sequencerMove_enc s h.busy h.dlFlag h.job

theorem Coding.runs_step {s t : State} (h : Coding s) (ht : encStep s = .next t) : Runs s t :=
  .of_step (not_runEnded_of_busy h.busy) (h.step_eq.trans ht)

/-- An encoder step that leaves the block busy is followed by the end of its period. -/
theorem Coding.exists_period {s t : State} (h : Coding s) (ht : encStep s = .next t) (hb : t.busy = true) :
    ∃ t', Runs s t' ∧ Coding t' ∧ t'.encView = t.encView := by
  have ha : t.agenda = [] := (encStep_frame ht).agenda.trans h.agenda
  obtain ⟨t', hrun, hview, hd⟩ := exists_deadline_expired _ le_rfl ha hb
  have hagenda : t'.agenda = t.agenda := eq_of_encView_eq State.agenda (fun _ => rfl) hview
  have hbusy : t'.busy = t.busy := eq_of_encView_eq State.busy (fun _ => rfl) hview
  have hjob : t'.encJob = t.encJob := eq_of_encView_eq State.encJob (fun _ => rfl) hview
  refine ⟨t', (h.runs_step ht).trans hrun, ⟨hagenda.trans ha, hbusy.trans hb, hd, ?_⟩, hview⟩
  rw [hjob, (busy_of_encStep ht hb).2]
  exact h.job

/-- Bit periods that leave the block busy are steps of the machine, up to what ticks and feeder steps write. -/
theorem Coding.exists_run {n : Nat} {s s' t : State} (h : bitPeriods n s = .next t) (hb : t.busy = true) (hs' : Coding s')
    (hview : s'.encView = s.encView) : ∃ t', Runs s' t' ∧ Coding t' ∧ t'.encView = t.encView := by
  induction n generalizing s s' with
  | zero => cases h; exact ⟨s', .refl, hs', hview⟩
  | succ n ih =>
    obtain ⟨u, hu, hrest⟩ := bitPeriods_succ h
    obtain ⟨u', hu', huview⟩ := encStep_of_encView_eq hview hu
    have hubusy : u'.busy = true := (eq_of_encView_eq State.busy (fun _ => rfl) huview).trans (busy_of_bitPeriods hrest hb).1
    obtain ⟨v, hrun, hv, hvview⟩ := hs'.exists_period hu' hubusy
    obtain ⟨t', hrun', ht', htview⟩ := ih hrest hv (hvview.trans huview)
    exact ⟨t', hrun.trans hrun', ht', htview⟩

/-! ### Every busy command ends -/

theorem Runs.inv {s t : State} (h : Runs s t) (hs : s.Inv) : t.Inv := by
  induction h with
  | refl => exact hs
  | tail _ hstep ih => exact step_inv ih hstep.2

/-- The bytes a job has still to load (43_frame_encoder.md R257). -/
def State.bytesLeft (s : State) : Nat :=
  match s.encJob with
  | .flags => s.encFlagsLeft.toNat
  | .frameEnd => 3 - s.encEndStage.toNat
  | .none | .byte | .wait => 0

/-- A bound on the encoder steps a job has still to take: at most two for each bit, a stuffed zero that is due apart. -/
def State.periodsLeft (s : State) : Nat :=
  20 * s.bytesLeft + 2 * (8 - s.encBit.val) + s.encStuff.toNat

theorem State.bytesLeft_of_nextByte {s u : State} (h : s.nextByte = some u) : u.bytesLeft + 1 = s.bytesLeft := by
  unfold State.nextByte at h
  split at h
  · rename_i hj
    split at h <;> cases h
    rename_i hn
    have hpos : 0 < s.encFlagsLeft.toNat := BitVec.toNat_pos_of_ne_zero hn
    have hpred : (s.encFlagsLeft - 1#16).toNat = s.encFlagsLeft.toNat - 1 :=
      BitVec.toNat_sub_of_le (BitVec.le_def.mpr hpos)
    simp only [State.bytesLeft, State.loadByte, hj, hpred]
    omega
  · cases h
  · rename_i hj
    split at h <;> cases h <;> rename_i he <;> simp [State.bytesLeft, State.loadByte, hj, he]
  · cases h
  · cases h

theorem State.periodsLeft_sendDataBit {s : State} (hbit : s.encBit ≠ 8) (hstuff : s.encStuff = false) :
    s.sendDataBit.periodsLeft < s.periodsLeft := by
  have hlt : s.encBit.val < 8 := by
    have hle := s.encBit.isLt
    have hne : s.encBit.val ≠ 8 := fun h => hbit (Fin.ext h)
    omega
  have hbytes : s.sendDataBit.bytesLeft = s.bytesLeft := by simp [State.bytesLeft]
  have hdue : s.sendDataBit.encStuff.toNat ≤ 1 := Bool.toNat_le _
  rw [State.periodsLeft, State.periodsLeft, hbytes, State.sendDataBit_encBit_val hlt, hstuff]
  simp only [Bool.toNat_false]
  omega

theorem State.periodsLeft_encStep {s t : State} (h : encStep s = .next t) (hb : t.busy = true) :
    t.periodsLeft < s.periodsLeft := by
  rcases (encStep_next_cases s t h).2 with ⟨hstuff, rfl⟩ | ⟨hstuff, hbit, rfl⟩ | ⟨hstuff, hbit, u, hu, rfl⟩ | ⟨-, -, -, rfl⟩
  · simp [State.periodsLeft, State.bytesLeft, State.sendStuffedZero_eq, hstuff]
  · exact State.periodsLeft_sendDataBit hbit hstuff
  · have hload := (s.nextByte_some u hu).1
    have huBit : u.encBit = 0 := by rw [hload]
    have huStuff : u.encStuff = false := by rw [hload]; exact hstuff
    have hbytes := State.bytesLeft_of_nextByte hu
    have hlt := State.periodsLeft_sendDataBit (s := u) (by rw [huBit]; decide) huStuff
    simp only [State.periodsLeft, hbit, hstuff, huBit, huStuff, Fin.val_zero, Bool.toNat_false] at hlt ⊢
    omega
  · cases hb

theorem Coding.exists_end (n : Nat) {s : State} (hs : Coding s) (hinv : s.Inv) (hn : s.periodsLeft ≤ n) :
    ∃ t, Runs s t ∧ t.busy = false ∧ t.cmds = s.cmds := by
  induction n generalizing s with
  | zero =>
    obtain ⟨t, ht⟩ := encStep_next_of_ones s hinv.ones_le
    refine ⟨t, hs.runs_step ht, ?_, (encStep_frame ht).cmds⟩
    by_contra hb
    have hlt := State.periodsLeft_encStep ht (by simpa using hb)
    omega
  | succ n ih =>
    obtain ⟨t, ht⟩ := encStep_next_of_ones s hinv.ones_le
    cases hb : t.busy with
    | false => exact ⟨t, hs.runs_step ht, hb, (encStep_frame ht).cmds⟩
    | true =>
      have hlt := State.periodsLeft_encStep ht hb
      obtain ⟨t', hrun, ht', hview⟩ := hs.exists_period ht hb
      have hleft : t'.periodsLeft = t.periodsLeft := eq_of_encView_eq State.periodsLeft (fun _ => rfl) hview
      have hcmds : t'.cmds = t.cmds := eq_of_encView_eq State.cmds (fun _ => rfl) hview
      obtain ⟨v, hrun', hv, hvcmds⟩ := ih ht' (hrun.inv hinv) (by omega)
      exact ⟨v, hrun.trans hrun', hv, hvcmds.trans (hcmds.trans (encStep_frame ht).cmds)⟩

theorem exists_endOfWait {s : State} (ha : s.agenda = []) (hb : s.busy = true) (hd : s.dlFlag = false)
    (hj : s.encJob = .wait) : Runs s (endOfWait s) := by
  refine .of_step (not_runEnded_of_busy hb) ?_
  rw [step_default_sequencer ha hb hd (by rw [hj]; decide), sequencerMove_wait hb hd hj]

/-- Settles O32: the pending deadline expires, then a wait ends with one step and the encoder has fewer periods left after
each. -/
theorem busyCommandsEnd : Obligations.BusyCommandsEnd := by
  intro s hinv ha
  have hend : ∃ t, Runs s t ∧ t.busy = false ∧ t.cmds = s.cmds := by
    cases hb : s.busy with
    | false => exact ⟨s, .refl, hb, rfl⟩
    | true =>
      obtain ⟨u, hrun, hview, hd⟩ := exists_deadline_expired _ le_rfl ha hb
      have hua : u.agenda = [] := (eq_of_encView_eq State.agenda (fun _ => rfl) hview).trans ha
      have hub : u.busy = true := (eq_of_encView_eq State.busy (fun _ => rfl) hview).trans hb
      have hucmds : u.cmds = s.cmds := eq_of_encView_eq State.cmds (fun _ => rfl) hview
      have huinv := hrun.inv hinv
      have hcoding (hj : u.encJob.sendsBits = true) : ∃ t, Runs s t ∧ t.busy = false ∧ t.cmds = s.cmds := by
        obtain ⟨t, hrun', ht, htcmds⟩ := Coding.exists_end _ ⟨hua, hub, hd, hj⟩ huinv le_rfl
        exact ⟨t, hrun.trans hrun', ht, htcmds.trans hucmds⟩
      cases hj : u.encJob with
      | none => rw [huinv.job_busy.mp hj] at hub; cases hub
      | wait => exact ⟨_, hrun.trans (exists_endOfWait hua hub hd hj), rfl, hucmds⟩
      | flags | byte | frameEnd => exact hcoding (by rw [hj]; rfl)
  obtain ⟨t, hrun, ht, hcmds⟩ := hend
  obtain ⟨n, hn, -⟩ := hrun.exists_steps
  exact ⟨n, t, hn, ht, hcmds⟩

end Sys2Proof.Machine
end

section
/-! A byte, a job and a frame as runs in the default order (log 4): FRM_BYTE to its end (43_frame_encoder.md R271), and the
whole frame (R260). -/

namespace Sys2Proof.Machine

/-! ### A byte -/

/-- The encoder between two bytes of a job, its step next. -/
structure BetweenBytes (s : State) : Prop extends Coding s where
  bit : s.encBit = 8
  stuff : s.encStuff = false
  ones : s.ones.toNat ≤ 4

/-- Sending bytes leaves the job's registers, the port and these registers of other units as they are. -/
structure JobKept (s t : State) : Prop where
  encJob : t.encJob = s.encJob
  encFlagsLeft : t.encFlagsLeft = s.encFlagsLeft
  encEndStage : t.encEndStage = s.encEndStage
  cmds : t.cmds = s.cmds
  frmAct : t.frmAct = s.frmAct
  res : t.res = s.res
  txTrace : t.txTrace = s.txTrace
  fix : t.fix = s.fix
  err : t.err = s.err

/-- The encoder steps of a byte, where the next one is that of `u`, in which the byte is loaded. -/
theorem Coding.exists_byteSent {s u : State} (hs : Coding s) (hload : encStep s = encStep u) (hb : u.busy = true)
    (hbit : u.encBit = 0) (hstuff : u.encStuff = false) (hones : u.ones.toNat ≤ 4) :
    ∃ t, Runs s t ∧ BetweenBytes t ∧ JobKept u t ∧ t.line = u.line.sendByte u.encByte u.encCrcEn := by
  obtain ⟨n, v, hv⟩ := exists_sendsBits_byte hstuff hones hbit
  have hleast : 8 ≤ n := hv.least
  obtain ⟨k, rfl⟩ : ∃ k, n = k + 1 := ⟨n - 1, by omega⟩
  have hrunS : bitPeriods (k + 1) s = .next v := by
    rw [← hv.run]
    simp only [bitPeriods, bitPeriod, hload]
  obtain ⟨t, hrun, ht, hview⟩ := Coding.exists_run hrunS (by rw [hv.kept]; exact hb) hs rfl
  have hfield {α : Type} (f : State → α) (hf : ∀ s : State, f s.encView = f s) {x : α} (hx : f v = x) : f t = x :=
    (eq_of_encView_eq f hf hview).trans hx
  refine ⟨t, hrun, ⟨ht, ?bit, ?stuff, ?ones⟩, ?kept, hfield State.line (fun _ => rfl) hv.line⟩
  case bit => exact hfield State.encBit (fun _ => rfl) (Fin.ext (by rw [hv.bit, hbit]; rfl))
  case stuff => exact hfield State.encStuff (fun _ => rfl) (by rw [hv.kept]; exact hstuff)
  case ones => rw [hfield State.ones (fun _ => rfl) rfl]; exact hv.ones_le
  case kept =>
    constructor
    case encJob => exact hfield State.encJob (fun _ => rfl) (by rw [hv.kept])
    case encFlagsLeft => exact hfield State.encFlagsLeft (fun _ => rfl) (by rw [hv.kept])
    case encEndStage => exact hfield State.encEndStage (fun _ => rfl) (by rw [hv.kept])
    case cmds => exact hfield State.cmds (fun _ => rfl) (by rw [hv.kept])
    case frmAct => exact hfield State.frmAct (fun _ => rfl) (by rw [hv.kept])
    case res => exact hfield State.res (fun _ => rfl) (by rw [hv.kept])
    case txTrace => exact hfield State.txTrace (fun _ => rfl) (by rw [hv.kept])
    case fix => exact hfield State.fix (fun _ => rfl) (by rw [hv.kept])
    case err => exact hfield State.err (fun _ => rfl) (by rw [hv.kept])

/-! ### A job -/

/-- The job of `s` has the bytes `bytes` still to load, none of them updating `CRC` (R257). -/
def State.Pending : List Byte → State → Prop
  | [], s => s.nextByte = none
  | b :: bytes, s => ∃ u, s.nextByte = some u ∧ u.encByte = b ∧
      ∀ t : State, t.encJob = u.encJob → t.encFlagsLeft = u.encFlagsLeft → t.encEndStage = u.encEndStage → t.crc = u.crc →
        State.Pending bytes t

/-- A job's bytes are sent, up to the state before the step that ends the job. -/
theorem BetweenBytes.exists_bytesSent (bytes : List Byte) {s : State} (hs : BetweenBytes s) (hp : State.Pending bytes s) :
    ∃ t, Runs s t ∧ BetweenBytes t ∧ t.nextByte = none ∧ t.line = s.line.sendRaw bytes ∧ t.encJob = s.encJob ∧
      t.cmds = s.cmds := by
  induction bytes generalizing s with
  | nil => exact ⟨s, .refl, hs, hp, rfl, rfl, rfl⟩
  | cons b bytes ih =>
    obtain ⟨u, hu, hbyte, hrest⟩ := hp
    have hload := (s.nextByte_some u hu).1
    have huLine : u.line = s.line := by rw [hload]; rfl
    have huJob : u.encJob = s.encJob := by rw [hload]
    have huCmds : u.cmds = s.cmds := by rw [hload]
    have huCrcEn : u.encCrcEn = false := by rw [hload]
    obtain ⟨v, hrun, hv, hkept, hsent⟩ := hs.exists_byteSent
      (encStep_of_nextByte_some (by have hones := hs.ones; omega) hs.bit hs.stuff hu)
      (by rw [hload]; exact hs.busy) (by rw [hload]) (by rw [hload]; exact hs.stuff) (by rw [hload]; exact hs.ones)
    have hvLine : v.line = s.line.sendByte b false := by rw [hsent, huLine, hbyte, huCrcEn]
    have hvCrc : v.crc = u.crc :=
      (congrArg Line.crc hvLine).trans ((Line.sendByte_crc _ b false).trans (congrArg Line.crc huLine.symm))
    obtain ⟨t, hrun', ht, hnone, htLine, htJob, htCmds⟩ := ih hv (hrest v hkept.encJob hkept.encFlagsLeft hkept.encEndStage hvCrc)
    refine ⟨t, hrun.trans hrun', ht, hnone, ?_, htJob.trans (hkept.encJob.trans huJob),
      htCmds.trans (hkept.cmds.trans huCmds)⟩
    rw [htLine, hvLine]; rfl

theorem State.pending_flags (w : Nat) {s : State} (hj : s.encJob = .flags) (hw : s.encFlagsLeft.toNat = w) :
    State.Pending (List.replicate w Config.flagByte) s := by
  induction w generalizing s with
  | zero => exact State.nextByte_flags_done hj (BitVec.eq_of_toNat_eq hw)
  | succ w ih =>
    have hne : s.encFlagsLeft ≠ 0 := fun h => by rw [h] at hw; cases hw
    refine ⟨_, State.nextByte_flags hj hne, rfl, fun t htJob htFlags _ _ => ih (htJob.trans hj) ?_⟩
    have hpred : (s.encFlagsLeft - 1#16).toNat = s.encFlagsLeft.toNat - 1 :=
      BitVec.toNat_sub_of_le (BitVec.le_def.mpr (BitVec.toNat_pos_of_ne_zero hne))
    rw [htFlags]
    exact hpred.trans (by omega)

theorem State.pending_frameEnd {s : State} (hj : s.encJob = .frameEnd) (he : s.encEndStage = 0) :
    State.Pending [s.crc.extractLsb' 0 8, s.crc.extractLsb' 8 8, Config.flagByte] s := by
  refine ⟨_, State.nextByte_fcsLow hj he, rfl, fun t htJob _ htStage htCrc => ?_⟩
  have hj1 : t.encJob = .frameEnd := htJob.trans hj
  refine ⟨_, State.nextByte_fcsHigh hj1 htStage, ?_, fun u huJob _ huStage _ => ?_⟩
  · exact congrArg (BitVec.extractLsb' 8 8) htCrc
  have hj2 : u.encJob = .frameEnd := huJob.trans hj1
  refine ⟨_, State.nextByte_endFlag hj2 huStage, rfl, fun v hvJob _ hvStage _ => ?_⟩
  exact State.nextByte_frameEnd_done (hvJob.trans hj2) hvStage

/-! ### The end of a job -/

/-- The block between two commands, the default order next. -/
structure Ready (s : State) : Prop where
  agenda : s.agenda = []
  busy : s.busy = false
  dlFlag : s.dlFlag = false
  ones : s.ones.toNat ≤ 4

theorem State.finish_line (s : State) : s.finish.line = s.line := by
  have htone : s.finish.tone = s.tone := by
    by_cases hj : s.encJob = .frameEnd
    · rw [State.finish_of_frameEnd hj]; exact (State.tone_setPtt _ _).trans (s.tone_setTxen _)
    · rw [State.finish_of_ne_frameEnd hj]; rfl
  simp [State.line, htone]

theorem BetweenBytes.runs_finish {s : State} (hs : BetweenBytes s) (hnone : s.nextByte = none) :
    Runs s s.finish ∧ Ready s.finish := by
  refine ⟨hs.runs_step (encStep_of_nextByte_none (by have hones := hs.ones; omega) hs.bit hs.stuff hnone), ?_, rfl, ?_, ?_⟩
  · simpa using hs.agenda
  · simpa using hs.dlFlag
  · simpa using hs.ones

/-- A job runs from between two bytes to its end. -/
theorem BetweenBytes.exists_jobEnd {bytes : List Byte} {s : State} (hs : BetweenBytes s) (hp : State.Pending bytes s) :
    ∃ t : State, Runs s t.finish ∧ Ready t.finish ∧ t.encJob = s.encJob ∧ t.finish.line = s.line.sendRaw bytes ∧
      t.finish.cmds = s.cmds := by
  obtain ⟨t, hrun, ht, hnone, hline, hjob, hcmds⟩ := hs.exists_bytesSent bytes hp
  obtain ⟨hfinish, hready⟩ := ht.runs_finish hnone
  exact ⟨t, hrun.trans hfinish, hready, hjob, by rw [t.finish_line, hline], by rw [t.finish_cmds, hcmds]⟩

/-! ### The frame commands -/

section
variable {s : State} {ws : List Cmd} (hs : Ready s)
include hs

/-- The step that takes the word of a command. -/
theorem Ready.runs_take {i : Instr} (hc : s.cmds = encode i :: ws) {t : State} (ht : exec i { s with cmds := ws } = .next t) :
    Runs s t := by
  refine .of_step (not_runEnded_of_word hc) ?_
  rw [step_default_takes hs.agenda hs.busy hc, takeCommand_of_ok (decode_encode i), ht]

theorem Ready.exists_frmStart {w : Half} (hc : s.cmds = encode (.frmStart w) :: ws) :
    ∃ t, Runs s t ∧ Ready t ∧ t.cmds = ws ∧
      t.line = ({ s.line with crc := Config.crcInit, ones := 0#3, tone := false } : Line).sendRaw
        (List.replicate w.toNat Config.flagByte) := by
  obtain ⟨u, hrun, hu, hjob, hleft, hcmds, hline⟩ : ∃ u, Runs s u ∧ BetweenBytes u ∧ u.encJob = .flags ∧
      u.encFlagsLeft = w ∧ u.cmds = ws ∧ u.line = { s.line with crc := Config.crcInit, ones := 0#3, tone := false } := by
    refine ⟨_, hs.runs_take hc (exec_frmStart_eq w _), ⟨⟨hs.agenda, rfl, hs.dlFlag, rfl⟩, rfl, rfl, Nat.zero_le _⟩, rfl,
      rfl, rfl, ?_⟩
    have htone : (((s.setTone false).setTxen true).setPtt true).tone = false := by simp
    exact congrArg (fun tone => ({ s.line with crc := Config.crcInit, ones := 0#3, tone := tone } : Line)) htone
  obtain ⟨t, hrun', hready, -, htLine, htCmds⟩ := hu.exists_jobEnd (State.pending_flags _ hjob rfl)
  exact ⟨_, hrun.trans hrun', hready, htCmds.trans hcmds, by rw [htLine, hline, hleft]⟩

theorem Ready.exists_frmByte {d : Byte} (hc : s.cmds = encode (.frmByte d) :: ws) :
    ∃ t, Runs s t ∧ Ready t ∧ t.cmds = ws ∧ t.line = s.line.sendByte d (!isFlag d) ∧ t.frmAct = s.frmAct ∧
      t.res = s.res ∧ t.txTrace = s.txTrace ∧ t.fix = s.fix ∧ t.err = s.err := by
  have hcrcEn : decide (d ≠ 0x7E#8) = !isFlag d := decide_not
  have htake := hs.runs_take hc (exec_frmByte_eq d _)
  have hcoding : Coding { { s with cmds := ws } with
      encJob := .byte, encByte := d, encCrcEn := decide (d ≠ 0x7E#8), encBit := 0, encStuff := false, busy := true } :=
    ⟨hs.agenda, rfl, hs.dlFlag, rfl⟩
  obtain ⟨v, hrun, hv, hkept, hline⟩ := hcoding.exists_byteSent rfl rfl rfl rfl hs.ones
  obtain ⟨hfinish, hready⟩ := hv.runs_finish (State.nextByte_byte hkept.encJob)
  refine ⟨v.finish, htake.trans (hrun.trans hfinish), hready, v.finish_cmds.trans hkept.cmds, ?_, ?_,
    v.finish_res.trans hkept.res, v.finish_txTrace.trans hkept.txTrace, v.finish_fix.trans hkept.fix,
    v.finish_err.trans hkept.err⟩
  · rw [v.finish_line, hline, hcrcEn]; rfl
  · have hjob : v.encJob = .byte := hkept.encJob
    rw [State.finish_of_ne_frameEnd (by rw [hjob]; decide)]; exact hkept.frmAct

theorem Ready.exists_frmEnd (hc : s.cmds = encode .frmEnd :: ws) :
    ∃ t, Runs s t ∧ Ready t ∧ t.cmds = ws ∧ t.txen = false ∧ t.ptt = false ∧ t.frmAct = false ∧
      t.line = ({ s.line with crc := ~~~s.crc } : Line).sendRaw
        [(~~~s.crc).extractLsb' 0 8, (~~~s.crc).extractLsb' 8 8, Config.flagByte] := by
  obtain ⟨u, hrun, hu, hjob, hstage, hcmds, hcrc, hline⟩ : ∃ u, Runs s u ∧ BetweenBytes u ∧ u.encJob = .frameEnd ∧
      u.encEndStage = 0 ∧ u.cmds = ws ∧ u.crc = ~~~s.crc ∧ u.line = { s.line with crc := ~~~s.crc } :=
    ⟨_, hs.runs_take hc (exec_frmEnd_eq _), ⟨⟨hs.agenda, rfl, hs.dlFlag, rfl⟩, rfl, rfl, hs.ones⟩, rfl, rfl, rfl, rfl, rfl⟩
  obtain ⟨t, hrun', hready, htJob, htLine, htCmds⟩ := hu.exists_jobEnd (State.pending_frameEnd hjob hstage)
  refine ⟨_, hrun.trans hrun', hready, htCmds.trans hcmds, ?_, ?_, ?_, by rw [htLine, hline, hcrc]⟩
  all_goals rw [State.finish_of_frameEnd (htJob.trans hjob)]
  · exact (State.txen_setPtt _ _).trans (t.txen_setTxen false)
  · exact State.ptt_setPtt _ _

theorem Ready.exists_payload (m : List Byte) (hc : s.cmds = (frmStr m).map encode ++ ws) :
    ∃ t, Runs s t ∧ Ready t ∧ t.cmds = ws ∧ t.line = s.line.sendPayload m := by
  induction m generalizing s with
  | nil => exact ⟨s, .refl, hs, hc, rfl⟩
  | cons d m ih =>
    obtain ⟨u, hrun, hu, hcmds, hline, -⟩ := hs.exists_frmByte hc
    obtain ⟨t, hrun', ht, htCmds, htLine⟩ := ih hu hcmds
    exact ⟨t, hrun.trans hrun', ht, htCmds, by rw [htLine, hline]; rfl⟩

end

theorem State.Inv.ready {s : State} (hinv : s.Inv) (hb : s.busy = false) (ha : s.agenda = []) : Ready s :=
  ⟨ha, hb, hinv.dl_idle hb, hinv.ones_le_four (hinv.idle_stuff hb)⟩

/-! ### The obligations -/

/-- Settles O30: the taking step, the periods of the byte, and the step that ends the job. -/
theorem byteCommandRunsToCompletion : Obligations.ByteCommandRunsToCompletion := by
  intro s d hinv hb ha hc
  obtain ⟨t, hrun, ht, hcmds, hkept⟩ := (hinv.ready hb ha).exists_frmByte hc
  obtain ⟨n, hn⟩ := hrun.runEndsAt ⟨hcmds, ht.busy⟩
  exact ⟨n, t, hn, hkept⟩

/-- Settles O31: the runs of FRM_START, of the payload's bytes and of FRM_END, one after another. -/
theorem wholeFrameIsSent : Obligations.WholeFrameIsSent := by
  intro s w m hinv hb ha hc
  rw [List.cons_append, List.map_cons, List.map_append] at hc
  obtain ⟨a, hrunA, hA, hcA, hlineA⟩ := (hinv.ready hb ha).exists_frmStart hc
  obtain ⟨b, hrunB, hB, hcB, hlineB⟩ := hA.exists_payload m hcA
  obtain ⟨t, hrunT, hT, hcT, htxen, hptt, hfrmAct, hlineT⟩ := hB.exists_frmEnd hcB
  obtain ⟨n, hn⟩ := Runs.runEndsAt (hrunA.trans (hrunB.trans hrunT)) ⟨hcT, hT.busy⟩
  have hlineEnd : t.line = s.line.frame w.toNat m := by
    have hcrcB : ~~~b.crc = b.line.crc ^^^ Config.crcXorOut := (xor_crcXorOut b.crc).symm
    rw [hlineT, hcrcB, hlineB, hlineA]; rfl
  exact ⟨n, t, hn, hlineEnd, (congrArg Line.crc hlineEnd).trans (Line.frame_crc _ _ _), htxen, hptt, hfrmAct⟩

end Sys2Proof.Machine
end

section
/-! Runs of base ticks: the waveform cycle at one tone (44_bitclock.md R297), and WAIT under the timing convention's order
(R299, R300, R302). -/

namespace Sys2Proof.Machine

/-! ### The waveform cycle -/

theorem ticks_add (n m : Nat) (s : State) : ticks (n + m) s = ticks m (ticks n s) := by
  induction n generalizing s with
  | zero => rw [Nat.zero_add]; rfl
  | succ n ih => rw [Nat.succ_add]; exact ih (tickEvent s)

theorem ticks_sample_expires_waveIdx {s : State} (ht : s.txen = true) :
    (ticks (max s.smpCount.toNat 1) s).waveIdx = s.waveIdx + 1#4 := by
  obtain ⟨k, hmax, hk, hlast⟩ := exists_lastTick s.smpCount.toNat
  obtain ⟨hcount, hidx, -⟩ := ticks_sample_counting ht hk
  rw [hmax, ticks_succ, (tickEvent_sample_expires (s := ticks k s) (by simpa using ht) (by omega)).1, hidx]

/-- The entry of `WAVE` that follows number `n`, all 16 in a cycle (R290, R297). -/
def waveAfter (p : Config.Params) (n : Nat) : Nibble := p.wave[(n + 1) % 16]'(Nat.mod_lt _ (by decide))

theorem wave_next (p : Config.Params) (i : Nibble) : p.wave[(i + 1#4).toNat] = waveAfter p i.toNat := by
  have hidx : (i + 1#4).toNat = (i.toNat + 1) % 16 := BitVec.toNat_add i 1#4
  simp only [waveAfter, hidx]

/-- A step of the waveform: `reload(TONE)` ticks bring the next entry and leave the counter where it was. -/
theorem ticks_reload {s : State} (ht : s.txen = true) (hlegal : s.cfg.legal = true)
    (hcount : s.smpCount = reload s.cfg s.tone) :
    (ticks (reload s.cfg s.tone).toNat s).dacTrace = s.dacTrace ++ [waveAfter s.cfg s.waveIdx.toNat] ∧
      (ticks (reload s.cfg s.tone).toNat s).waveIdx.toNat = (s.waveIdx.toNat + 1) % 16 ∧
      (ticks (reload s.cfg s.tone).toNat s).smpCount = reload s.cfg s.tone := by
  have hpos := reload_pos hlegal s.tone
  have hmax : max s.smpCount.toNat 1 = (reload s.cfg s.tone).toNat := by rw [hcount]; omega
  obtain ⟨htrace, hreload⟩ := ticks_sample_expires ht
  have hidx := ticks_sample_expires_waveIdx ht
  rw [hmax] at htrace hreload hidx
  exact ⟨by rw [htrace, wave_next], by rw [hidx]; exact BitVec.toNat_add s.waveIdx 1#4, hreload⟩

theorem waveAfter_mod (p : Config.Params) (n : Nat) : waveAfter p (n % 16) = waveAfter p n := by
  simp only [waveAfter, Nat.mod_add_mod]

/-- `n` steps of the waveform. -/
theorem ticks_cycle {s : State} (ht : s.txen = true) (hlegal : s.cfg.legal = true)
    (hcount : s.smpCount = reload s.cfg s.tone) (n : Nat) :
    (ticks (n * (reload s.cfg s.tone).toNat) s).dacTrace =
        s.dacTrace ++ (List.range n).map (fun k => waveAfter s.cfg (s.waveIdx.toNat + k)) ∧
      (ticks (n * (reload s.cfg s.tone).toNat) s).waveIdx.toNat = (s.waveIdx.toNat + n) % 16 ∧
      (ticks (n * (reload s.cfg s.tone).toNat) s).smpCount = reload s.cfg s.tone := by
  induction n with
  | zero =>
    have hlt : s.waveIdx.toNat < 16 := s.waveIdx.isLt
    rw [Nat.zero_mul]
    exact ⟨by simp [ticks], (Nat.mod_eq_of_lt hlt).symm, hcount⟩
  | succ n ih =>
    obtain ⟨htrace, hidx, hsmp⟩ := ih
    have hcycle := ticks_reload (s := ticks (n * (reload s.cfg s.tone).toNat) s) (by simpa using ht) (by simpa using hlegal)
      (by simpa using hsmp)
    simp only [ticks_cfg, ticks_tone, htrace, hidx, waveAfter_mod] at hcycle
    obtain ⟨htrace', hidx', hsmp'⟩ := hcycle
    rw [Nat.succ_mul, ticks_add]
    refine ⟨?_, ?_, hsmp'⟩
    · rw [htrace', List.range_succ, List.map_append, List.append_assoc]; rfl
    · rw [hidx', Nat.mod_add_mod, Nat.add_assoc]

/-! ### Ticks as steps of the machine -/

theorem tickEvent_setAgenda (s : State) (ms : List Move) :
    tickEvent { s with agenda := ms } = { tickEvent s with agenda := ms } := by
  simp only [tickEvent, tickDeadline, tickSample, State.txen, State.tone]
  repeat' split
  all_goals rfl

theorem ticks_setAgenda (n : Nat) (s : State) (ms : List Move) :
    ticks n { s with agenda := ms } = { ticks n s with agenda := ms } := by
  induction n generalizing s with
  | zero => rfl
  | succ n ih => rw [ticks, ticks, tickEvent_setAgenda, ih]

/-- Everything a run of ticks leaves alone (R295). -/
theorem ticks_eq (n : Nat) (s : State) :
    ticks n s =
      { s with
        dlFlag := (ticks n s).dlFlag, dlCount := (ticks n s).dlCount, smpCount := (ticks n s).smpCount
        waveIdx := (ticks n s).waveIdx, dac := (ticks n s).dac, dacTrace := (ticks n s).dacTrace } := by
  induction n with
  | zero => rfl
  | succ n ih =>
    rw [ticks_succ]
    have htick := tickEvent_eq (ticks n s)
    generalize tickEvent (ticks n s) = t at htick ⊢
    rw [ih] at htick
    exact htick

theorem steps_one {s t : State} (h : step s = .next t) : steps 1 s = .next t := by
  simp only [steps, h]

theorem steps_add {n m : Nat} {s t : State} (h : steps n s = .next t) : steps (n + m) s = steps m t := by
  induction n generalizing s with
  | zero => cases h; rw [Nat.zero_add]
  | succ n ih =>
    rw [Nat.succ_add]
    simp only [steps] at h ⊢
    split at h
    · exact ih h
    · cases h
    · cases h

/-- The ticks of the agenda, one after another. -/
theorem steps_ticks (n : Nat) {s : State} {ms : List Move} (h : s.agenda = List.replicate n .tick ++ ms) :
    steps n s = .next { ticks n s with agenda := ms } := by
  induction n generalizing s with
  | zero =>
    rw [List.replicate_zero, List.nil_append] at h
    rw [steps, ticks, ← h]
  | succ n ih =>
    rw [List.replicate_succ, List.cons_append] at h
    have hstep : step s = .next { tickEvent s with agenda := List.replicate n .tick ++ ms } :=
      (step_of_agenda s _ _ h).trans (congrArg Host.Outcome.next (tickEvent_setAgenda s _))
    rw [steps, hstep]
    exact (ih rfl).trans (by rw [ticks_setAgenda]; rfl)

/-! ### WAIT (R299, R300) -/

/-- `s` with WAIT w just taken, the words `ws` and the turns `ms` left. -/
def State.waitTaken (s : State) (w : Half) (ws : List Cmd) (ms : List Move) : State :=
  { s with busy := true, encJob := .wait, dlFlag := true, dlCount := w, cmds := ws, agenda := ms }

theorem step_takes_wait {s : State} {w : Half} {ws : List Cmd} {ms : List Move} (hb : s.busy = false)
    (hc : s.cmds = encode (.wait w) :: ws) (ha : s.agenda = .controller :: ms) :
    step s = .next (s.waitTaken w ws ms) := by
  rw [step_of_agenda s _ _ ha]
  refine (controllerMove_takes { s with agenda := ms } _ ws hb hc).trans ?_
  rw [takeCommand_of_ok (decode_encode (.wait w))]; rfl

/-- The end-of-wait step, after the deadline's expiry. -/
theorem step_endOfWait {s : State} {ms : List Move} (ha : s.agenda = .sequencer :: ms) (hb : s.busy = true)
    (hd : s.dlFlag = false) (hj : s.encJob = .wait) : step s = .next (endOfWait { s with agenda := ms }) :=
  (step_of_agenda s _ _ ha).trans (sequencerMove_wait (s := { s with agenda := ms }) hb hd hj)

/-! ### The obligations -/

/-- Settles O37: each step of the waveform starts from the count the one before left, and none brings a sample early. -/
theorem samplesCycleThroughTheWaveform : Obligations.SamplesCycleThroughTheWaveform := by
  intro s n ht hlegal hcount
  obtain ⟨htrace, hidx, hsmp⟩ := ticks_cycle ht hlegal hcount n
  refine ⟨?_, hidx, hsmp, fun j hj => ?_⟩
  · rw [htrace]
    simp only [waveAfter, Nat.add_right_comm]
  · rw [ticks_add]
    exact (ticks_sample_counting (by simpa using ht) (by rw [hsmp]; omega)).2.2

/-- Settles O36: the taking step, the ticks up to the deadline's expiry (`ticks_deadline_expires`), the end-of-wait step. -/
theorem waitTakesItsTicks : Obligations.WaitTakesItsTicks := by
  intro s w ws ms hb hc ha
  rw [List.cons_append] at ha
  obtain ⟨turns, hturns⟩ : ∃ turns, turns = List.replicate (max w.toNat 1) .tick ++ .sequencer :: ms := ⟨_, rfl⟩
  have htake := steps_one (step_takes_wait hb hc (hturns ▸ ha))
  have hkept (k : Nat) := ticks_eq k (s.waitTaken w ws turns)
  refine ⟨fun k hk => ?during, ?after⟩
  case during =>
    have hsplit : turns = List.replicate k .tick ++ (List.replicate (max w.toNat 1 - k) .tick ++ .sequencer :: ms) := by
      rw [hturns, ← List.append_assoc, List.replicate_append_replicate, Nat.add_sub_cancel' (by omega)]
    refine ⟨_, (steps_add htake).trans (steps_ticks k hsplit), ?_, (ticks_deadline_counting hk).1, ?_⟩
    all_goals rw [hkept k]; rfl
  case after =>
    have hticks := steps_ticks (max w.toNat 1) (s := s.waitTaken w ws turns) hturns
    obtain ⟨hflag, hcount⟩ := ticks_deadline_expires (s.waitTaken w ws turns)
    have hend := hkept (max w.toNat 1)
    rw [show (s.waitTaken w ws turns).dlCount = w from rfl] at hflag hcount
    generalize ticks (max w.toNat 1) (s.waitTaken w ws turns) = v at hticks hflag hcount hend
    have hlast : step { v with agenda := .sequencer :: ms } = .next (endOfWait { v with agenda := ms }) :=
      step_endOfWait rfl (by rw [hend]; rfl) hflag (by rw [hend]; rfl)
    have hrun : steps (1 + (max w.toNat 1 + 1)) s = .next (endOfWait { v with agenda := ms }) := by
      rw [steps_add htake, steps_add hticks, steps_one hlast]
    rw [Nat.add_comm, Nat.add_assoc] at hrun
    refine ⟨_, hrun, ?_⟩
    rw [hend]
    exact ⟨rfl, rfl, rfl, rfl, hflag, hcount, rfl, rfl, rfl, rfl, rfl, rfl, rfl, rfl, rfl, rfl, rfl, rfl, rfl, rfl, rfl, rfl⟩

end Sys2Proof.Machine
end

section
/-! Sequences of pushes and pops on one ring (40_serial_link.md R141, R143, R156), and the wait-feeder's step
(44_bitclock.md R301). -/

namespace Sys2Proof.Machine

/-! ### Sequences of pushes -/

theorem pushAll_cons (r : Ring) (mode : Bool) (b : Byte) (bs : List Byte) :
    Claims.pushAll r mode (b :: bs) = Claims.pushAll (r.push mode b) mode bs := rfl

theorem pushAll_append (r : Ring) (mode : Bool) (bs bs' : List Byte) :
    Claims.pushAll r mode (bs ++ bs') = Claims.pushAll (Claims.pushAll r mode bs) mode bs' := List.foldl_append

theorem Ring.push_count {r : Ring} (mode : Bool) (b : Byte) (h : r.count < 95) : (r.push mode b).count = r.count + 1 := by
  rw [← Ring.contents_length, r.push_contents mode b h, List.length_append, Ring.contents_length]; rfl

/-- Pushes that the ring has room for append, in both modes (R141). -/
theorem pushAll_contents_of_room {r : Ring} (mode : Bool) {bs : List Byte} (h : r.count + bs.length ≤ 95) :
    (Claims.pushAll r mode bs).contents = r.contents ++ bs := by
  induction bs generalizing r with
  | nil => exact (List.append_nil _).symm
  | cons b bs ih =>
    rw [List.length_cons] at h
    have hroom : r.count < 95 := by omega
    rw [pushAll_cons, ih (by rw [Ring.push_count mode b hroom]; omega), r.push_contents mode b hroom, List.append_assoc]
    rfl

/-- Drop mode keeps the first 95 of the unread and pushed bytes (R141). -/
theorem pushAll_drop_contents (r : Ring) (bs : List Byte) :
    (Claims.pushAll r true bs).contents = (r.contents ++ bs).take 95 := by
  induction bs generalizing r with
  | nil =>
    have hle := r.count_le
    rw [List.append_nil, List.take_of_length_le (by rw [r.contents_length]; omega)]; rfl
  | cons b bs ih =>
    rw [pushAll_cons, ih]
    rcases Nat.lt_or_eq_of_le r.count_le with hroom | hfull
    · rw [r.push_contents true b hroom, List.append_assoc]; rfl
    · have hlen : r.contents.length = 95 := by rw [r.contents_length, hfull]
      rw [r.push_dropped b hfull, Ring.contents_ovf, List.take_append_of_le_length hlen.ge,
        List.take_append_of_le_length hlen.ge]

/-- Drop mode counts the bytes it drops, up to 255 (R141). -/
theorem pushAll_drop_ovf (r : Ring) (bs : List Byte) :
    (Claims.pushAll r true bs).ovf.toNat = min (r.ovf.toNat + (r.count + bs.length - 95)) 255 := by
  have hovf := r.ovf.isLt
  have hle := r.count_le
  induction bs generalizing r with
  | nil => rw [List.length_nil]; show r.ovf.toNat = _; omega
  | cons b bs ih =>
    have hpush := (r.push true b).ovf.isLt
    rw [pushAll_cons, ih (r.push true b) hpush (Ring.count_le _), List.length_cons]
    rcases Nat.lt_or_eq_of_le hle with hroom | hfull
    · rw [Ring.push_count true b hroom, Ring.push_ovf_of_stores b (.inl hroom)]
      omega
    · have hcount : (r.push true b).count = 95 := by rw [r.push_dropped b hfull]; exact hfull
      rw [(Ring.push_dropped_frame b hfull).2, hcount]
      omega

theorem pushAll_silent_ovf (r : Ring) (bs : List Byte) : (Claims.pushAll r false bs).ovf = r.ovf := by
  induction bs generalizing r with
  | nil => rfl
  | cons b bs ih => rw [pushAll_cons, ih, Ring.push_ovf_of_stores b (.inr rfl)]

/-- In silent mode 96 pushes into an empty ring leave it empty, and those after them are appended (R143). -/
theorem pushAll_silent_contents {r : Ring} {bs : List Byte} (hempty : r.head = r.tail) (hlow : 96 ≤ bs.length)
    (hhigh : bs.length ≤ 191) : (Claims.pushAll r false bs).contents = bs.drop 96 := by
  have hnil : r.contents = [] := r.contents_eq_nil_iff.mpr hempty
  have hzero : r.count = 0 := r.count_eq_zero_iff.mpr hempty
  have hsplit : bs = bs.take 95 ++ bs[95] :: bs.drop 96 := by
    rw [← List.drop_eq_getElem_cons, List.take_append_drop]
  have hfill : (Claims.pushAll r false (bs.take 95)).contents = bs.take 95 := by
    rw [pushAll_contents_of_room false (by rw [hzero, List.length_take]; omega), hnil, List.nil_append]
  have hfull : (Claims.pushAll r false (bs.take 95)).count = 95 := by
    rw [← Ring.contents_length, hfill, List.length_take]; omega
  have hover := Ring.push_silent_full bs[95] hfull
  have hroom : ((Claims.pushAll r false (bs.take 95)).push false bs[95]).count + (bs.drop 96).length ≤ 95 := by
    rw [← Ring.contents_length, hover, List.length_drop, List.length_nil]; omega
  calc (Claims.pushAll r false bs).contents
    _ = (Claims.pushAll r false (bs.take 95 ++ bs[95] :: bs.drop 96)).contents := by rw [← hsplit]
    _ = bs.drop 96 := by
      rw [pushAll_append, pushAll_cons, pushAll_contents_of_room false hroom, hover, List.nil_append]

/-! ### Sequences of pushes and pops -/

/-- Below 95 unread bytes the mode makes no difference (R141). -/
theorem Ring.push_mode {r : Ring} (mode mode' : Bool) (b : Byte) (h : r.count < 95) : r.push mode b = r.push mode' b := by
  rw [r.push_room mode b h, r.push_room mode' b h]

theorem ringRun_push_eq_some {mode : Bool} {b : Byte} {ops : List (Option Byte)} {r r' : Ring} {pushed popped : List Byte}
    (h : Claims.ringRun mode (some b :: ops) r = some (pushed, popped, r')) :
    r.count < 95 ∧ ∃ pushed', pushed = b :: pushed' ∧
      Claims.ringRun mode ops (r.push mode b) = some (pushed', popped, r') := by
  rw [Claims.ringRun] at h
  split at h
  · cases h
  · rename_i hne
    obtain ⟨⟨p, q, v⟩, hrest, hx⟩ := Option.map_eq_some_iff.mp h
    cases hx
    exact ⟨Nat.lt_of_le_of_ne r.count_le hne, p, rfl, hrest⟩

theorem ringRun_pop_eq_some {mode : Bool} {ops : List (Option Byte)} {r r' : Ring} {pushed popped : List Byte}
    (h : Claims.ringRun mode (none :: ops) r = some (pushed, popped, r')) :
    ∃ b v popped', r.pop = some (b, v) ∧ popped = b :: popped' ∧
      Claims.ringRun mode ops v = some (pushed, popped', r') := by
  rw [Claims.ringRun] at h
  split at h
  · rename_i b v hpop
    obtain ⟨⟨p, q, w⟩, hrest, hx⟩ := Option.map_eq_some_iff.mp h
    cases hx
    exact ⟨b, v, q, hpop, rfl, hrest⟩
  · cases h

/-! ### The obligations -/

/-- Settles O45: by induction on the operations; a push appends at the end, a pop takes from the front. -/
theorem ringIsFirstInFirstOut : Obligations.RingIsFirstInFirstOut := by
  intro mode ops
  induction ops with
  | nil => intro r r' pushed popped h; cases h; exact ⟨List.append_nil _, rfl⟩
  | cons op ops ih =>
    intro r r' pushed popped h
    cases op with
    | some b =>
      obtain ⟨hroom, pushed, rfl, hrest⟩ := ringRun_push_eq_some h
      obtain ⟨hfifo, hother⟩ := ih _ _ _ _ hrest
      refine ⟨?_, ?_⟩
      · rw [← hfifo, r.push_contents mode b hroom, List.append_assoc]; rfl
      · rw [Claims.ringRun, if_neg (by omega), Ring.push_mode (!mode) mode b hroom, hother]; rfl
    | none =>
      obtain ⟨b, v, popped, hpop, rfl, hrest⟩ := ringRun_pop_eq_some h
      obtain ⟨hfifo, hother⟩ := ih _ _ _ _ hrest
      refine ⟨?_, ?_⟩
      · rw [(r.pop_eq_some v b hpop).2, List.cons_append, hfifo]; rfl
      · rw [Claims.ringRun, hpop]
        simp only [hother, Option.map_some]

/-- Settles O46: 95 pushes fill the ring, one more makes it read as empty, and the rest have room. -/
theorem silentOverflowKeepsTheNewest : Obligations.SilentOverflowKeepsTheNewest := by
  refine ⟨fun r b hfull => ?_, fun r bs k hempty hlow hhigh hlen => ?_⟩
  · have hnil := Ring.push_silent_full b hfull
    exact ⟨(Ring.contents_eq_nil_iff _).mp hnil, hnil⟩
  · have hcontents := pushAll_silent_contents (bs := bs) hempty (by omega) (by omega)
    refine ⟨?_, hcontents⟩
    rw [← Ring.contents_length, hcontents, List.length_drop]
    omega

/-- Settles O47: push by push, a full ring in drop mode changes its counter only. -/
theorem dropModeKeepsTheOldest : Obligations.DropModeKeepsTheOldest :=
  fun r bs => ⟨pushAll_drop_contents r bs, pushAll_drop_ovf r bs, pushAll_silent_ovf r bs⟩

/-- Settles O44: the feeder's pop answers the oldest byte, and feeding it does not write `RES`. -/
theorem feederFeedsTheOldestByte : Obligations.FeederFeedsTheOldestByte := by
  intro s b bs hb hd hbs
  obtain ⟨r, hpop, hcontents, hhead, hbuf, hovf, htail⟩ := Ring.pop_oldest hbs
  exact ⟨r, _, hcontents, hhead, hbuf, hovf, htail, congrArg Host.Outcome.next (feederStep_of_pop hb hd hpop), rfl,
    State.feed_res _ b⟩

end Sys2Proof.Machine
end

section
/-! The position decoder over texts (41_position_decoder.md R183, R187 to R189), repeated commits (R193), and repeated reads
(20_memory.md R89). -/

namespace Sys2Proof.Machine

/-! ### Texts -/

theorem feedAll_append_singleton (s : State) (bs : List Byte) (b : Byte) :
    Claims.feedAll s (bs ++ [b]) = (Claims.feedAll s bs).feed b := by
  rw [Claims.feedAll, List.foldl_append]; rfl

/-- With no sentence active, a character that starts none changes nothing (R183). -/
theorem State.feed_silent {s : State} {b : Byte} (hty : s.stype = .none) (hcomma : s.comma = 0xFF#8) (hcidx : s.cidx = 0#8)
    (hb : b ≠ 0x24#8) : s.feed b = s := by
  by_cases h0 : b = 0x00#8
  · rw [h0, s.feed_of_nul, ← hty, ← hcomma, ← hcidx]
  · by_cases h2 : b = 0x2C#8
    · have hsat : satInc s.comma = s.comma := by rw [hcomma]; rfl
      rw [h2, s.feed_of_comma, hsat, ← hcidx]
    · exact s.feed_unrouted b h0 hb h2 (by rw [hcomma]; decide) (by rw [hty]; rfl)

/-- A text of a routed section, from the field's first character (R187 to R189): its characters in order as far as the field
goes, and the index counting them up to 255. -/
theorem feedAll_routed {s : State} {fld : Field} {text : List Byte} (hroute : route s.stype s.comma = some fld)
    (hcomma : s.comma ≠ 0#8) (hcidx : s.cidx = 0#8) (htext : ∀ b ∈ text, IsTextByte b) :
    ∃ (tmp : TempSet) (i : Byte), Claims.feedAll s text = { s with tmp := tmp, cidx := i } ∧
      i.toNat = min text.length 255 ∧
      ∀ (g : Field) (k : Nat) (h : k < g.len),
        (tmp.get g)[k] = if g = fld then (text[k]?).getD ((s.tmp.get g)[k]) else (s.tmp.get g)[k] := by
  induction text using List.reverseRecOn with
  | nil => exact ⟨s.tmp, s.cidx, rfl, by rw [hcidx]; rfl, fun g k h => by simp⟩
  | append_singleton text b ih =>
    obtain ⟨htext, hb⟩ := List.forall_mem_append.mp htext
    obtain ⟨h0, h1, h2⟩ := hb b List.mem_cons_self
    obtain ⟨tmp, i, hfed, hi, hslots⟩ := ih htext
    have hstore : Claims.feedAll s (text ++ [b]) = ({ s with tmp := tmp, cidx := i } : State).storeChar fld b := by
      rw [feedAll_append_singleton, hfed]
      exact State.feed_routed _ b fld h0 h1 h2 hcomma hroute
    refine ⟨_, _, hstore, ?_, fun g k hk => ?_⟩
    · rw [satInc_toNat, hi, List.length_append, List.length_singleton]
      omega
    · have hslot := State.storeChar_get { s with tmp := tmp, cidx := i } fld g b k hk
      have hlen : g.len ≤ 10 := by cases g <;> decide
      refine hslot.trans ?_
      simp only [hslots g k hk, hi]
      by_cases hg : g = fld
      · rcases Nat.lt_trichotomy k text.length with hlt | heq | hgt
        · rw [if_neg (by omega), if_pos hg, if_pos hg, List.getElem?_append_left hlt]
        · have hget : (text ++ [b])[k]? = some b := by rw [heq]; exact List.getElem?_concat_length
          rw [if_pos ⟨hg, by omega⟩, if_pos hg, hget]; rfl
        · rw [if_neg (by omega), if_pos hg, if_pos hg, List.getElem?_eq_none (by omega),
            List.getElem?_eq_none (by rw [List.length_append, List.length_singleton]; omega)]
      · rw [if_neg (fun h => hg h.1), if_neg hg, if_neg hg]

/-- Nothing is routed from the identity section (R181). -/
theorem route_identity (ty : SentenceType) : route ty 0#8 = none := by
  cases ty <;> rfl

/-! ### The obligations -/

/-- Settles O50: the NUL leaves no sentence active, and no later character changes that. -/
theorem nulSilencesTheParserUntilTheNextStart : Obligations.NulSilencesTheParserUntilTheNextStart := by
  intro s bs hbs
  have hrest : Claims.feedAll (s.feed 0x00#8) bs = s.feed 0x00#8 := by
    induction bs with
    | nil => rfl
    | cons b bs ih =>
      obtain ⟨hb, hbs⟩ := List.forall_mem_cons.mp hbs
      exact (congrArg (Claims.feedAll · bs) (State.feed_silent rfl rfl rfl hb)).trans (ih hbs)
  exact hrest

/-- Settles O51: the rows of R181 are the routing, and no row is the identity section's. -/
theorem routedTextIsStored : Obligations.RoutedTextIsStored := by
  intro s fld text hrow hcidx htext
  have hroute := (route_eq_some_iff _ _ _).mpr hrow
  refine feedAll_routed hroute (fun hzero => ?_) hcidx htext
  rw [hzero, route_identity] at hroute
  cases hroute

end Sys2Proof.Machine
end

section
/-! Repeated commits (41_position_decoder.md R193), repeated reads (20_memory.md R89), the turns that are not enabled, a step's
word (30_encoding.md R107, R108), and the reset values (70_reset_and_hazards.md R391, R392). -/

namespace Sys2Proof.Machine

/-! ### Reads whose operands are in range -/

/-- A command with its operands in range does not raise `OPERAND_RANGE`. -/
theorem not_outOfRange_of_wellFormed {i : Instr} (h : i.wellFormed = true) : ¬ i.outOfRange := fun hout => by
  rw [(wellFormed_eq_false_iff i).mpr (.inl hout)] at h
  cases h

theorem FixSet.read_of_wellFormed {f k : Byte} (x : FixSet) (h : (Instr.fixRd f k).wellFormed = true) :
    ∃ b, x.read f k = some b :=
  Option.ne_none_iff_exists'.mp fun hnone => not_outOfRange_of_wellFormed h ((x.read_eq_none_iff f k).mp hnone)

theorem TempSet.read_of_wellFormed {f k : Byte} (x : TempSet) (h : (Instr.tmpRd f k).wellFormed = true) :
    ∃ b, x.read f k = some b :=
  Option.ne_none_iff_exists'.mp fun hnone =>
    not_outOfRange_of_wellFormed h ((x.read_eq_none_iff_outOfRange f k).mp hnone)

/-- FIX_RD out of range writes the error record only. -/
theorem exec_fixRd_of_not_wellFormed {f k : Byte} (h : (Instr.fixRd f k).wellFormed = false) (s : State) :
    ∃ t, exec (.fixRd f k) s = .next t ∧ t.res = s.res :=
  ⟨_, exec_of_outOfRange ((fixOperandOk_eq_false_iff f k).mp h) s, s.raiseCmdError_res .operandRange _⟩

theorem exec_ringRd_of_bitOperand {d : Byte} {bit : Bool} (h : bitOperand d = some bit) (s : State) :
    exec (.ringRd d) s = .next (s.setRes (if bit then s.tx.indices else s.rx.indices)) := by
  rw [exec, execRingRd, h]
  cases bit <;> rfl

/-! ### The controller's turn -/

/-- While `BUSY = 0` the controller's turn takes the word on the port, whatever the word. -/
theorem step_takes_of_agenda {s : State} {w : Cmd} {ws : List Cmd} {ms : List Move} (hb : s.busy = false)
    (hc : s.cmds = w :: ws) (ha : s.agenda = .controller :: ms) :
    step s = takeCommand w { s with cmds := ws, agenda := ms } :=
  (step_of_agenda s _ ms ha).trans (controllerMove_takes { s with agenda := ms } w ws hb hc)

/-! ### The obligations -/

/-- Settles O53: the second commit writes what `FIX` holds, and FIX_RD in range reads `FIX` alone. -/
theorem commitIsIdempotent : Obligations.CommitIsIdempotent := by
  intro s t u hcommit htmp hfix
  cases hcommit
  have hsame : u.tmp.commit = u.fix := by rw [htmp, hfix]; rfl
  refine ⟨congrArg (fun x : FixSet => Host.Outcome.next ({ u with fix := x } : State)) hsame, fun f i => ?_⟩
  cases hwf : (Instr.fixRd f i).wellFormed with
  | true =>
    obtain ⟨b, hread⟩ := u.fix.read_of_wellFormed hwf
    exact ⟨_, _, exec_fixRd_of_read (hfix ▸ hread), exec_fixRd_of_read hread, fun _ => rfl, nofun⟩
  | false =>
    obtain ⟨v, hv, hvres⟩ := exec_fixRd_of_not_wellFormed hwf s.commit
    obtain ⟨w, hw, hwres⟩ := exec_fixRd_of_not_wellFormed hwf u
    exact ⟨v, w, hv, hw, nofun, fun _ => ⟨hvres, hwres⟩⟩

/-- Settles O55: no read looks at `RES`; the polls pop the ring, and feeding the byte does not touch it. -/
theorem readsAreIdempotent : Obligations.ReadsAreIdempotent := by
  constructor
  · intro s i hne hi
    obtain ⟨b, bs, hbs⟩ := List.exists_cons_of_ne_nil (mt s.rx.contents_eq_nil_iff.mp hne)
    obtain ⟨r, hpop, -, -, -, -, htail⟩ := Ring.pop_oldest hbs
    rcases hi with rfl | rfl
    · exact ⟨_, exec_rxPoll_of_some hpop, htail⟩
    · exact ⟨_, exec_rxPollFeed_of_some hpop, by rw [State.feed_rx]; exact htail⟩
  · intro i s hread hpoll hpollFeed hwf
    cases i with
    | statRd | errRd | crcRd | crcFcs | ctrlRd | ovfRd | curRd => exact ⟨_, rfl, rfl⟩
    | ringRd d =>
      obtain ⟨bit, hbit⟩ := Option.ne_none_iff_exists'.mp fun hnone =>
        not_outOfRange_of_wellFormed hwf ((bitOperand_eq_none_iff d).mp hnone)
      exact ⟨_, exec_ringRd_of_bitOperand hbit s, exec_ringRd_of_bitOperand hbit _⟩
    | fixRd f k =>
      obtain ⟨b, hb⟩ := s.fix.read_of_wellFormed hwf
      exact ⟨_, exec_fixRd_of_read hb, exec_fixRd_of_read hb⟩
    | tmpRd f k =>
      obtain ⟨b, hb⟩ := s.tmp.read_of_wellFormed hwf
      exact ⟨_, exec_tmpRd_of_read hb, exec_tmpRd_of_read hb⟩
    | rxPoll => exact absurd rfl hpoll
    | rxPollFeed => exact absurd rfl hpollFeed
    | _ => cases hread

/-- Settles O9: the agenda's first turn, or the controller's in the default order; the word of `i` decodes to `i`. -/
theorem stepRunsTheDecodedCommand : Obligations.StepRunsTheDecodedCommand := by
  refine ⟨step_of_agenda, fun s w ws hb hc => ⟨fun ms ha => step_takes_of_agenda hb hc ha, fun ha => step_default_takes ha hb hc⟩,
    fun s w ws i hb hc hdec => ?_, fun s i => ?_⟩
  · exact ⟨fun ms ha => (step_takes_of_agenda hb hc ha).trans (takeCommand_of_ok hdec _),
      fun ha => (step_default_takes ha hb hc).trans (takeCommand_of_ok hdec _)⟩
  · have hword : s.withFetchWord 24 (encode i).toNat = s.present (encode i) :=
      congrArg s.present (tableWord_toNat (encode i))
    rw [hword]
    exact (step_takes_of_agenda (s := s.present (encode i)) rfl rfl rfl).trans (takeCommand_of_ok (decode_encode i) _)

/-- Settles O11: each agent's enabling condition of R30 fails. -/
theorem disabledTurnsChangeNothing : Obligations.DisabledTurnsChangeNothing := by
  refine fun s => ⟨controllerMove_busy s, fun h => ?_, fun h => ?_, fun h => ?_⟩
  · have hoff : ¬ (s.busy = true ∧ s.dlFlag = false) := by
      rintro ⟨hb, hd⟩
      rcases h with h | h
      · rw [hb] at h; cases h
      · rw [hd] at h; cases h
    exact if_neg hoff
  · have hsame : feederStep s = s := by
      unfold feederStep
      rcases h with h | h | h
      · rw [if_neg (by simp [h])]
      · rw [if_neg (by simp [h])]
      · rw [Ring.pop_of_empty h]; exact ite_self s
    exact congrArg Host.Outcome.next hsame
  · exact congrArg Host.Outcome.next (if_neg (by simp [h]))

/-- Settles O12: register by register; the fields are all zero slot by slot. -/
theorem resetStateHoldsTheSpecValues : Obligations.ResetStateHoldsTheSpecValues := by
  rintro s rfl
  have htmp : ∀ (f : Field) (k : Nat) (h : k < f.len), (TempSet.zero.get f)[k] = 0x00#8 := fun f k h => by simp
  have hfix : ∀ (f : Field) (k : Nat) (h : k < f.len + 1), (FixSet.zero.get f)[k] = 0x00#8 := fun f k h => by simp
  exact ⟨rfl, rfl, rfl, rfl, rfl, rfl, rfl, rfl, rfl, rfl, htmp, hfix, rfl, rfl, rfl, rfl, rfl, rfl, rfl, rfl, rfl, rfl,
    rfl, rfl, rfl, rfl, rfl, rfl, rfl, rfl, rfl, rfl, rfl, rfl⟩

end Sys2Proof.Machine
end

section
/-! The assembler (30_encoding.md R109, R110). -/

namespace Sys2Proof.Machine

/-! ### The table of mnemonics, format by format -/

theorem form_of_mnemonicN : ∀ x ∈ Claims.mnemonicsN, (mnemonicTable.lookup x.1).bind formOf = some (.n x.2) := by
  intro x hx
  fin_cases hx <;> rfl

theorem form_of_mnemonicB : ∀ x ∈ Claims.mnemonicsB, (mnemonicTable.lookup x.1).bind formOf = some (.b x.2) := by
  intro x hx
  fin_cases hx <;> rfl

theorem form_of_mnemonicW : ∀ x ∈ Claims.mnemonicsW, (mnemonicTable.lookup x.1).bind formOf = some (.w x.2) := by
  intro x hx
  fin_cases hx <;> rfl

theorem form_of_mnemonicF : ∀ x ∈ Claims.mnemonicsF, (mnemonicTable.lookup x.1).bind formOf = some (.f x.2) := by
  intro x hx
  fin_cases hx <;> rfl

/-! ### A command from its format and operands -/

theorem assembleCore_formN {m : String} {i : Instr} (h : (mnemonicTable.lookup m).bind formOf = some (.n i)) :
    assembleCore m [] = some i := by
  simp only [assembleCore, h]

theorem assembleCore_formB {m : String} {mk : Byte → Instr} (h : (mnemonicTable.lookup m).bind formOf = some (.b mk))
    (d : Token) : assembleCore m [d] = (byteArg d).map mk := by
  simp only [assembleCore, h]

theorem assembleCore_formW {m : String} {mk : Half → Instr} (h : (mnemonicTable.lookup m).bind formOf = some (.w mk))
    (w : Token) : assembleCore m [w] = (halfArg w).map mk := by
  simp only [assembleCore, h]

theorem assembleCore_formF {m : String} {mk : Byte → Byte → Instr}
    (h : (mnemonicTable.lookup m).bind formOf = some (.f mk)) (f k : Token) :
    assembleCore m [f, k] = (fieldArg f).bind fun fv => (byteArg k).map fun kv => mk fv kv := by
  simp only [assembleCore, h]

/-! ### The names of the field codes -/

theorem fieldArg_of_fieldName : ∀ nm ∈ Claims.fieldNames, fieldArg (.name nm.1) = some nm.2 := by
  intro nm hnm
  fin_cases hnm <;> rfl

/-- A name that stands for no field code is refused. -/
theorem fieldArg_of_other_name {nm : String} (h : ∀ c, (nm, c) ∉ Claims.fieldNames) : fieldArg (.name nm) = none := by
  have hnone : fieldNameTable.lookup nm = none := by
    refine List.lookup_eq_none_iff.mpr fun p hp => ?_
    have hmem : (p.1, BitVec.ofNat 8 p.2) ∈ Claims.fieldNames := by fin_cases hp <;> decide
    exact bne_iff_ne.mpr fun heq => h _ (heq ▸ hmem)
  rw [fieldArg, hnone]; rfl

/-! ### FRM_ADDR -/

/-- The six address characters: the call, then spaces. -/
def paddedCall (call : List Byte) : List Byte := call ++ List.replicate (6 - call.length) 0x20#8

theorem paddedCall_length {call : List Byte} (h : call.length ≤ 6) : (paddedCall call).length = 6 := by
  simp [paddedCall]; omega

theorem paddedCall_of_lt {call : List Byte} {k : Nat} (h : k < call.length) : (paddedCall call)[k]? = call[k]? :=
  List.getElem?_append_left h

theorem paddedCall_of_ge {call : List Byte} {k : Nat} (h : call.length ≤ k) (hk : k < 6) :
    (paddedCall call)[k]? = some 0x20#8 := by
  rw [paddedCall, List.getElem?_append_right h, List.getElem?_replicate, if_pos (by omega)]

/-- The SSID byte `0x60 | (ssid << 1) | last`, whose three parts have no bit in common. -/
def ssidByte (ssid last : Nat) : Byte := 0x60#8 ||| (BitVec.ofNat 8 ssid <<< 1) ||| BitVec.ofNat 8 last

theorem ssidByte_toNat {ssid last : Nat} (hs : ssid ≤ 15) (hl : last ≤ 1) :
    (ssidByte ssid last).toNat = 96 + 2 * ssid + last := by
  have hall : ∀ s : Fin 16, ∀ l : Fin 2, (ssidByte s l).toNat = 96 + 2 * s.val + l.val := by decide
  exact hall ⟨ssid, by omega⟩ ⟨last, by omega⟩

theorem frmAddr_of_fits {call : List Byte} {ssid last : Nat} (hc : call.length ≤ 6) (hs : ssid ≤ 15) (hl : last ≤ 1) :
    frmAddr call ssid last =
      some (((paddedCall call).map fun c : Byte => .frmByte (c <<< 1)) ++ [.frmByte (ssidByte ssid last)]) :=
  if_pos ⟨hc, hs, hl⟩

theorem frmAddr_of_not_fits {call : List Byte} {ssid last : Nat} (h : 6 < call.length ∨ 15 < ssid ∨ 1 < last) :
    frmAddr call ssid last = none :=
  if_neg (by omega)

/-- The seven commands of FRM_ADDR: each address character shifted left by one, then the SSID byte. -/
theorem frmAddr_bytes {call : List Byte} {ssid last : Nat} (hc : call.length ≤ 6) (hs : ssid ≤ 15) (hl : last ≤ 1) :
    ∃ l, frmAddr call ssid last = some l ∧ l.length = 7 ∧
      (∀ k, k < 6 → l[k]? = ((paddedCall call)[k]?).map fun c : Byte => .frmByte (c <<< 1)) ∧
      l[6]? = some (.frmByte (ssidByte ssid last)) := by
  have hlen : ((paddedCall call).map fun c : Byte => Instr.frmByte (c <<< 1)).length = 6 := by
    rw [List.length_map, paddedCall_length hc]
  refine ⟨_, frmAddr_of_fits hc hs hl, by rw [List.length_append, hlen]; rfl, fun k hk => ?_, ?_⟩
  · rw [List.getElem?_append_left (by rw [hlen]; exact hk), List.getElem?_map]
  · rw [List.getElem?_append_right (by rw [hlen]), hlen]; rfl

/-! ### The obligation -/

/-- Settles O60: each format's operands, the names of the field codes, and the seven bytes of an address. -/
theorem assemblerRefusesWhatDoesNotFit : Obligations.AssemblerRefusesWhatDoesNotFit := by
  refine ⟨fun x hx => assembleCore_formN (form_of_mnemonicN x hx), fun x hx n => ?_, fun x hx n => ?_,
    fun x hx i => ⟨fun f => ?_, fun nm hnm => ?_, fun nm hnm => ?_⟩,
    fun call ssid last => ⟨fun hc hs hl => ?_, frmAddr_of_not_fits⟩⟩
  · rw [assembleCore_formB (form_of_mnemonicB x hx), byteArg]
    split <;> rfl
  · rw [assembleCore_formW (form_of_mnemonicW x hx), halfArg]
    split <;> rfl
  · rw [assembleCore_formF (form_of_mnemonicF x hx)]
    by_cases hf : f < 256 <;> by_cases hi : i < 256 <;> simp [fieldArg, byteArg, hf, hi]
  · rw [assembleCore_formF (form_of_mnemonicF x hx), fieldArg_of_fieldName nm hnm, Option.bind_some, byteArg]
    split <;> rfl
  · rw [assembleCore_formF (form_of_mnemonicF x hx), fieldArg_of_other_name hnm]; rfl
  · obtain ⟨l, hl7, hlen, hchars, hssid⟩ := frmAddr_bytes hc hs hl
    refine ⟨l, hl7, hlen, fun k hk => ?_, fun k hk hk6 => ?_, _, hssid, ssidByte_toNat hs hl⟩
    · rw [hchars k (by omega), paddedCall_of_lt hk]
    · rw [hchars k hk6, paddedCall_of_ge hk hk6]; rfl

end Sys2Proof.Machine
end
